-- ==== Sys2Proof/Word.lean ====
section
/-! DEFINITION. The word types of the engine (spec/00_scope.md R7, R12): `u8`, `u16`, `u32`. -/

namespace Sys2Proof

/-- `u8`: a serial byte, an op code (00 R7). -/
abbrev Byte := BitVec 8

/-- `u16`: the status value, the wait counter, the wait budget (00 R7). -/
abbrev Half := BitVec 16

/-- `u32`: a register value, an `lba`, a configuration, an error word (00 R7). -/
abbrev Word := BitVec 32

end Sys2Proof
end

