-- ==== Sys2Proof/Config.lean ====
section
/-! DEFINITION. The parameters of the hardware (00 R9, R11) and the free values the spec leaves open (93). A free value is an
`opaque` constant with no body: no proof can learn it. -/

namespace Sys2Proof

/-- The three erase-unit sizes, 0x4000, 0x20000 and 0x40000 bytes (00 R8). Any other size is a configuration a model
refuses (00 R10); here it cannot be written down. -/
inductive BlockSize where
  | b4000
  | b20000
  | b40000
deriving DecidableEq, Repr, Inhabited

/-- RELEASE_MODE: what a released GPIO line is electrically (00 R9, 43 R244). -/
inductive ReleaseMode where
  | driveHigh
  | highZ
deriving DecidableEq, Repr, Inhabited

/-- ERR_STATUS_SOURCE: which status an error word carries (00 R9, 40 R134). -/
inductive ErrStatusSource where
  | reread
  | lastPoll
deriving DecidableEq, Repr, Inhabited

/-- The op codes that are parameters (00 R9). GET_VERSION is 0x00 by the source and is no field. RESERVED_OPS is the union
of the two lists, as the op table has two rows for it. -/
structure OpMap where
  getFlashConfig : Byte
  readFlash : Byte
  writeFlash : Byte
  readFlashStream : Byte
  rebootToBootloader : Byte
  reservedEmmc : List Byte
  reservedDaughterboard : List Byte
deriving DecidableEq, Repr

/-- GET_VERSION's op code, "fixed by the source" (00 R9). -/
abbrev OpMap.getVersion : Byte := 0x00#8

/-- The decided defaults (00 R9, 30 R103, spec/opcode_table.json). PRESUMED by the spec from general knowledge of the
protocol (92 D3, D5; notes/assumptions/3.md, 4.md). -/
def OpMap.table : OpMap where
  getFlashConfig := 0x01#8
  readFlash := 0x02#8
  writeFlash := 0x03#8
  readFlashStream := 0x04#8
  rebootToBootloader := 0xFE#8
  reservedEmmc := (List.range 16).map fun n => BitVec.ofNat 8 (0x50 + n)
  reservedDaughterboard := (List.range 16).map fun n => BitVec.ofNat 8 (0xA0 + n)

/-- The parameters of 00 R9 and R11, held in `State.params` so that a statement about every state is one about every
parameter set (notes/assumptions/2.md). -/
structure Params where
  ops : OpMap
  /-- PROTOCOL_VERSION (00 R9). -/
  protocolVersion : Word
  /-- BLOCK_SIZE_OF as a table: entry `4 * major + minor` (00 R9, 40 R136). -/
  blockSizes : Vector BlockSize 16
  /-- ERR_STATUS_SOURCE (00 R9). -/
  errStatusSource : ErrStatusSource
  /-- RELEASE_MODE (00 R9). -/
  releaseMode : ReleaseMode
  /-- WAIT_BUDGET (00 R11). -/
  waitBudget : Half
  /-- SETTLE_MIN in ms (00 R9): the lower bound a settle event records (43 R242). -/
  settleMinMs : Nat
  /-- FRAME_WAIT in ms (00 R9). No rule reads it: the length of a frame wait is not modelled (41 R182;
  notes/assumptions/31.md). -/
  frameWaitMs : Nat
deriving DecidableEq, Repr

/-- PROTOCOL_VERSION is OPEN (92 D4): a free value. -/
opaque Config.protocolVersion : Word

/-- BLOCK_SIZE_OF is OPEN (92 D9): a free value for each (major, minor). -/
opaque Config.blockSizeOf : BitVec 2 → BitVec 2 → BlockSize

/-- RELEASE_MODE is OPEN (92 D21): a free value. -/
opaque Config.releaseMode : ReleaseMode

/-- The answer of the transport oracle to the n-th register read beyond the answers State lists (20 R72): a free value. -/
opaque Config.regAnswer : Nat → Word

/-- The n-th result of HardwareInit, SerialOpen or TransportUp beyond those State lists (10 R54): a free value. -/
opaque Config.initAnswer : Nat → Bool

/-- Whether the n-th undecided frame wait with an empty queue ends (41 R182, 93 I16): a free value. -/
opaque Config.waitEnds : Nat → Bool

/-- How many bytes the host may have left untaken for the engine to go on after its n-th send, beyond those State lists
(60 R265, 92 D16): a free value. -/
opaque Config.txRoom : Nat → Nat

/-- The parameters of this hardware: the decided values of 00 R8, R9, R11, and the free values for the OPEN ones. -/
def Params.hardware : Params where
  ops := OpMap.table
  protocolVersion := Config.protocolVersion
  blockSizes := Vector.ofFn fun i => Config.blockSizeOf (BitVec.ofNat 2 (i.val / 4)) (BitVec.ofNat 2 (i.val % 4))
  errStatusSource := .reread
  releaseMode := Config.releaseMode
  waitBudget := 0x1000#16
  settleMinMs := 50
  frameWaitMs := 100

end Sys2Proof
end

