-- ==== Sys2Proof/Syntax.lean ====
section
/-! DEFINITION. The command frames of the engine, one constructor per row of spec/opcode_table.json (30 R103). -/

namespace Sys2Proof

/-- A decoded command frame. Every frame carries an operand `lba` (30 R100), used or ignored (30 R102); the rows that stand
for many op values carry the op byte too. The payload of WRITE_FLASH is not part of the frame (30 R108): the command
receives it (41 R187). -/
inductive Instr where
  /-- GET_VERSION, op 0x00; `lba` ignored (41 R184). -/
  | getVersion (lba : Word)
  /-- GET_FLASH_CONFIG; `lba` ignored (41 R185). -/
  | getFlashConfig (lba : Word)
  /-- READ_FLASH of the sector `lba` (41 R186). -/
  | readFlash (lba : Word)
  /-- WRITE_FLASH of the sector `lba`, 528 payload bytes to follow (41 R187). -/
  | writeFlash (lba : Word)
  /-- READ_FLASH_STREAM of `lba` sectors from sector 0 (41 R188). -/
  | readFlashStream (lba : Word)
  /-- REBOOT_TO_BOOTLOADER; `lba` ignored (41 R189). -/
  | rebootToBootloader (lba : Word)
  /-- A reserved eMMC op; `lba` ignored (41 R190). -/
  | reservedEmmc (op : Byte) (lba : Word)
  /-- A reserved daughterboard op; `lba` ignored (41 R190). -/
  | reservedDaughterboard (op : Byte) (lba : Word)
  /-- Any other op; `lba` ignored (41 R191). -/
  | unrecognized (op : Byte) (lba : Word)
deriving DecidableEq, Repr

end Sys2Proof
end

