-- ==== Sys2Proof/WellFormed.lean ====
section
/-! DEFINITION. When a parameter set is one the model accepts (00 R10), and when an instruction is one a frame can stand for
under it (30 R104). -/

namespace Sys2Proof

/-- The six named op values (00 R10). -/
def OpMap.named (m : OpMap) : List Byte :=
  [OpMap.getVersion, m.getFlashConfig, m.readFlash, m.writeFlash, m.readFlashStream, m.rebootToBootloader]

/-- RESERVED_OPS (00 R9). -/
def OpMap.reserved (m : OpMap) : List Byte :=
  m.reservedEmmc ++ m.reservedDaughterboard

/-- 00 R10: the six op codes are pairwise distinct and none of them is reserved. (The third constraint, on block sizes, holds
by the type `BlockSize`.) -/
def OpMap.wf (m : OpMap) : Bool :=
  decide m.named.Nodup && m.named.all fun op => !m.reserved.contains op

/-- The op byte of a row that stands for many op values is one that decodes to that row (30 R104); a named row puts no
condition on its operand. -/
def Instr.wf (m : OpMap) : Instr → Bool
  | .getVersion _ => true
  | .getFlashConfig _ => true
  | .readFlash _ => true
  | .writeFlash _ => true
  | .readFlashStream _ => true
  | .rebootToBootloader _ => true
  | .reservedEmmc op _ => !m.named.contains op && m.reservedEmmc.contains op
  | .reservedDaughterboard op _ =>
      !m.named.contains op && !m.reservedEmmc.contains op && m.reservedDaughterboard.contains op
  | .unrecognized op _ => !m.named.contains op && !m.reserved.contains op

end Sys2Proof
end

