-- ==== Sys2Proof/Decode.lean ====
section
/-! DEFINITION. Byte order (00 R13), the decoder of command frames (30 R100 to R108) and, after it, the encoder (30 R111). -/

namespace Sys2Proof

/-- Byte `i` of a word, byte 0 the least significant (00 R13). -/
def byteOf (v : Word) (i : Nat) : Byte :=
  v.extractLsb' (8 * i) 8

/-- `le32(v)`: the four bytes of `v`, least significant first (00 R13, 20 R74). -/
def le32 (v : Word) : List Byte :=
  [byteOf v 0, byteOf v 1, byteOf v 2, byteOf v 3]

/-- `unle32(b0, b1, b2, b3)`: `b0 | b1 << 8 | b2 << 16 | b3 << 24` as a u32 (00 R13, 20 R73). -/
def unle32 (b0 b1 b2 b3 : Byte) : Word :=
  b0.setWidth 32 ||| b1.setWidth 32 <<< 8 ||| b2.setWidth 32 <<< 16 ||| b3.setWidth 32 <<< 24

/-- Why a byte sequence is no command frame. The op byte never is a reason: decoding is total over it (30 R104). -/
inductive DecodeError where
  /-- Fewer than the five bytes of a frame (30 R100). -/
  | shortFrame (have_ : Nat)
deriving DecidableEq, Repr

/-- The operation a frame with this op byte and operand stands for, decided in the order of 30 R104. -/
def decodeOp (m : OpMap) (op : Byte) (lba : Word) : Instr :=
  if op = OpMap.getVersion then .getVersion lba
  else if op = m.getFlashConfig then .getFlashConfig lba
  else if op = m.readFlash then .readFlash lba
  else if op = m.writeFlash then .writeFlash lba
  else if op = m.readFlashStream then .readFlashStream lba
  else if op = m.rebootToBootloader then .rebootToBootloader lba
  else if m.reservedEmmc.contains op then .reservedEmmc op lba
  else if m.reservedDaughterboard.contains op then .reservedDaughterboard op lba
  else .unrecognized op lba

/-- The first command frame of a byte sequence, with the bytes after it (30 R100, R102). -/
def decode (m : OpMap) : List Byte → Except DecodeError (Instr × List Byte)
  | f0 :: f1 :: f2 :: f3 :: f4 :: rest => .ok (decodeOp m f0 (unle32 f1 f2 f3 f4), rest)
  | bytes => .error (.shortFrame bytes.length)

/-- The op byte of an instruction (30 R103). -/
def opcodeOf (m : OpMap) : Instr → Byte
  | .getVersion _ => OpMap.getVersion
  | .getFlashConfig _ => m.getFlashConfig
  | .readFlash _ => m.readFlash
  | .writeFlash _ => m.writeFlash
  | .readFlashStream _ => m.readFlashStream
  | .rebootToBootloader _ => m.rebootToBootloader
  | .reservedEmmc op _ => op
  | .reservedDaughterboard op _ => op
  | .unrecognized op _ => op

/-- The operand of an instruction (30 R102). -/
def operandOf : Instr → Word
  | .getVersion lba => lba
  | .getFlashConfig lba => lba
  | .readFlash lba => lba
  | .writeFlash lba => lba
  | .readFlashStream lba => lba
  | .rebootToBootloader lba => lba
  | .reservedEmmc _ lba => lba
  | .reservedDaughterboard _ lba => lba
  | .unrecognized _ lba => lba

/-- The five bytes of an instruction's frame: `f[0] ++ le32(lba)` (30 R111). -/
def encode (m : OpMap) (i : Instr) : List Byte :=
  opcodeOf m i :: le32 (operandOf i)

/-- How many bytes the longest command takes: a WRITE_FLASH frame and its payload (30 R108). -/
def longestCommand : Nat := 533

/-- The first `n` bytes of a number, the least significant first. -/
def bytesOf : Nat → Nat → List Byte
  | 0, _ => []
  | n + 1, w => BitVec.ofNat 8 w :: bytesOf n (w / 256)

/-- The bytes of a command whose bits are `w`, bit 0 the least significant of the first byte, the bits from `nbits` on zero,
up to the longest command. -/
def tableBytes (nbits w : Nat) : List Byte :=
  bytesOf longestCommand (w % 2 ^ nbits)

/-- The instruction the decoder reads from a command whose bits are `w`, with the op values of the table. -/
def decodeTableWord (nbits w : Nat) : Option Instr :=
  match decode OpMap.table (tableBytes nbits w) with
  | .ok (i, _) => some i
  | .error _ => none

end Sys2Proof
end

