-- ==== Sys2Proof/Machine/State.lean ====
section
/-! DEFINITION. The state of the engine as plain data (10_state.md), what is still to come from its environment (10 R54),
and its outputs (10 R55). -/

namespace Sys2Proof.Machine

open Sys2Proof

/-- The engine's top-level phase (10 R31). -/
inductive Phase where
  | init
  | stop
  | run
  | start
  | halted
deriving DecidableEq, Repr

/-- `exit_code` (10 R33). -/
inductive ExitCode where
  | none
  | zero
  | one
deriving DecidableEq, Repr

/-- What the engine drives on a GPIO line (10 R36). -/
inductive PinLevel where
  | low
  | released
deriving DecidableEq, Repr

/-- The three GPIO lines: debug-enable, reset, chip-select (10 R36). -/
inductive Line where
  | dbg
  | rst
  | cs
deriving DecidableEq, Repr

/-- The stream medium (10 R44). -/
inductive Medium where
  | nand
  | emmcReserved
deriving DecidableEq, Repr

/-- The five registers of the remote controller's window that the engine uses (10 R47). -/
inductive Reg where
  | cfg
  | status
  | cmd
  | addr
  | data
deriving DecidableEq, Repr

/-- The `wait_ready` a poll belongs to: which wait of which operation, and who reports its failure (60 R263, causes 1 to 5). -/
inductive Site where
  /-- `read_block` step 4, reached from READ_FLASH (41 R186). -/
  | read
  /-- `read_block` step 4, reached from a stream tick (42 R220). -/
  | tick
  /-- `erase_block` step 8 (40 R138). -/
  | erase
  /-- `write_block` step 11 (40 R139). -/
  | fill
  /-- `write_block` step 13 (40 R139). -/
  | addr
  /-- `write_block` step 17 (40 R139). -/
  | commit
deriving DecidableEq, Repr

/-- The causes of 60 R263, each with the value it records. -/
inductive Cause where
  | timeoutRead (s : Half)
  | timeoutErase (s : Half)
  | timeoutFill (s : Half)
  | timeoutAddr (s : Half)
  | timeoutCommit (s : Half)
  | payloadIncomplete (received : Nat)
  | rxClosedMidFrame (rxCnt : Nat)
  | unknownOp (op : Byte)
  | reservedOp (op : Byte)
  | rebootUnsupported
  | fatalHwInit
  | fatalTransportInit
deriving DecidableEq, Repr

/-- One event of the engine (00 R14, 20 R84). -/
inductive Event where
  /-- `RegRead(a)` answered `v`. -/
  | regRead (a : Byte) (v : Word)
  /-- `RegWrite(a, v)`. -/
  | regWrite (a : Byte) (v : Word)
  /-- `Send(bytes)`. -/
  | send (bytes : List Byte)
  /-- A byte taken from the receive stream. -/
  | recv (b : Byte)
  /-- `SetPins`: the lines of one step, changed in one event (43 R243). -/
  | pins (changes : List (Line × PinLevel))
  /-- `Settle()`: a wait of at least so many ms (43 R242). -/
  | settle (atLeastMs : Nat)
  /-- `TransportUp()` and its result. -/
  | transportUp (ok : Bool)
  /-- `TransportDown()`. -/
  | transportDown
  /-- `Log(cause)`; no claim may read one (92 D31). -/
  | log (c : Cause)
deriving DecidableEq, Repr

/-- A straight-line step of the pseudocode: at most one event, no branch. -/
inductive Act where
  /-- `RegWrite(r, v)`. -/
  | write (r : Reg) (v : Word)
  /-- `clear_status` step 1 (40 R132). -/
  | clearRead
  /-- `clear_status` step 2 (40 R132). -/
  | clearWrite
  /-- `get_flash_config` steps 2 to 4 (40 R130). -/
  | cfgRead
  /-- `erase_block` step 2 (40 R138). -/
  | enableRead
  /-- `erase_block` step 3 (40 R138). -/
  | enableWrite
  /-- `write_block` step 9: word `k` of the write buffer (40 R139). -/
  | fillWord (k : Nat)
  /-- `read_block` steps 8 and 9: word `k` into the read buffer (40 R135). -/
  | drainWord (k : Nat)
  /-- `fail()` steps 1 and 2 (40 R134). -/
  | errStatus
  /-- `fail()` step 3 (40 R134), with the cause of 60 R263. -/
  | errForm (w : Site)
  /-- `Send(le32(PROTOCOL_VERSION))` (41 R184). -/
  | sendVersion
  /-- `Send(le32(cfg_value))` (41 R185). -/
  | sendConfig
  /-- `Send(le32(0))` (41 R187). -/
  | sendOk
  /-- `Send(le32(0) ++ data ++ spare)` (41 R186, 42 R220). -/
  | sendSector
  /-- `Send(le32(e))` (41 R186, R187, 42 R220). -/
  | sendErr
  /-- `wr_cnt <- 0` (41 R187). -/
  | clearPayload
  /-- READ_FLASH_STREAM steps 1 to 4 (41 R188). -/
  | armStream
  /-- `st_cur <- st_cur + 1` (42 R220). -/
  | advance
  /-- `st_active <- 0` (42 R220). -/
  | deactivate
  /-- `Log(cause)`. -/
  | log (c : Cause)
  /-- `SetPins` (43 R240, R241). -/
  | pins (changes : List (Line × PinLevel))
  /-- `Settle()` (43 R242). -/
  | settle
  /-- `TransportDown()` (43 R241). -/
  | transportDown
  /-- `phase <- HALTED` at the end of START (70 R294). -/
  | halt
  /-- HardwareInit failed: log, exit code 1, HALTED (70 R291 steps 3, 4). -/
  | fatalHw
  /-- SerialOpen or TransportUp failed: log, exit code 1, START (70 R291 steps 7, 8; R292). -/
  | fatalTransport
deriving DecidableEq, Repr

/-- One operation of the sequencer. `pc` is a list of them: what is left of the procedure in progress (10 R32). -/
inductive Op where
  /-- A straight-line step. -/
  | act (a : Act)
  /-- Entry of phase INIT: HardwareInit (70 R291 steps 1 to 4). -/
  | init
  /-- SerialOpen (70 R291 steps 5 to 9). -/
  | serialOpen
  /-- Entry of phase STOP: `stop_controller` (43 R240). -/
  | stop
  /-- `TransportUp()` (43 R240 step 9, 70 R292). -/
  | transportUp
  /-- Entry of phase START: `start_controller` (43 R241, 70 R294). -/
  | start
  /-- The loop top (41 R180 steps 1 to 3). -/
  | loopTop
  /-- `stream_tick()` (41 R180 step 4, 42 R220). -/
  | tick
  /-- `frame_wait()` (41 R182). -/
  | frameWait
  /-- `dispatch(f)` (41 R183). -/
  | dispatch
  /-- The payload receive of WRITE_FLASH (41 R187 steps 2 to 7). -/
  | recvPayload
  /-- `get_flash_config` step 1 (40 R130). -/
  | cfgTest
  /-- The erase-on-boundary test (40 R137, R139 steps 2 to 5). -/
  | eraseTest
  /-- Entry of a `wait_ready` (40 R133 step 1). -/
  | wait (w : Site)
  /-- One turn of its loop (40 R133 steps 3 to 6). -/
  | poll (w : Site)
deriving DecidableEq, Repr

/-- What the host may do (70 R308). -/
inductive HostMove where
  /-- Append bytes to the receive stream: a frame, a payload, or a part of one. -/
  | send (bytes : List Byte)
  /-- Close the receive channel. -/
  | close
  /-- Take bytes of the transmit stream. -/
  | take (n : Nat)
  /-- Request shutdown. -/
  | shutdown
  /-- Reset the engine. -/
  | reset
deriving DecidableEq, Repr

/-- Whose turn it is: the schedule of the agents as plain data (60 R273; notes/assumptions/23.md). -/
inductive Turn where
  /-- The host makes a move. -/
  | host (m : HostMove)
  /-- The engine does so many events of its procedure, wherever that leaves it. -/
  | events (k : Nat)
  /-- The engine takes one full step. -/
  | engine
deriving DecidableEq, Repr

/-- Why the machine stops with a fault: never. The spec gives the engine no fault ("no input makes a model `fault`", 93 I23),
so the type has no constructor. -/
inductive Fault where
deriving DecidableEq, Repr

/-- Why the machine has no meaning for what it is asked. -/
inductive Refusal where
  /-- An instruction this model gives no meaning to; raised by `exec`'s arm of it alone. SAFE. (No arm raises it.) -/
  | notModelled (mnemonic : String)
  /-- The parameters break 00 R10 ("a model refuses a configuration that breaks one", 92 D40, 93 I14); raised by `step`
  before anything else. SAFE. -/
  | badParams
  /-- The stream medium is EMMC_RESERVED, which no rule writes (42 R225; treatment `refuse`, 93 I19); raised by `step`
  before anything else. SAFE: no run reaches such a state. -/
  | emmcMedium
deriving DecidableEq, Repr

/-- Everything the spec gives the machine. -/
structure State where
  /-- The parameters of 00 R9; no step changes them. -/
  params : Params
  /-- 10 R31. -/
  phase : Phase
  /-- 10 R32, as the continuation of the procedure. -/
  pc : List Op
  /-- 10 R33. -/
  exitCode : ExitCode
  /-- 10 R34. -/
  shutdownPending : Bool
  /-- 10 R35. -/
  transportUp : Bool
  /-- 10 R36. -/
  pinDbg : PinLevel
  /-- 10 R36. -/
  pinRst : PinLevel
  /-- 10 R36. -/
  pinCs : PinLevel
  /-- 10 R37. -/
  cfgValid : Bool
  /-- 10 R37. -/
  cfgValue : Word
  /-- 10 R39. -/
  rxBuf : Vector Byte 5
  /-- 10 R39: 0 to 4. -/
  rxCnt : Nat
  /-- 10 R40. -/
  rxClosed : Bool
  /-- 10 R41: bytes 0..511 the data, 512..527 the spare. -/
  wrBuf : Vector Byte 528
  /-- 10 R41: 0 to 528. -/
  wrCnt : Nat
  /-- 10 R42: bytes 0..511 the data, 512..527 the spare. -/
  rdBuf : Vector Byte 528
  /-- 10 R43: the wait counter. -/
  t : Half
  /-- 10 R43: the last polled status. -/
  sLast : Half
  /-- 10 R44. -/
  stActive : Bool
  /-- 10 R44: the next sector of the stream. -/
  stCur : Word
  /-- 10 R44: the end of the stream. -/
  stEnd : Word
  /-- 10 R44. -/
  stMedium : Medium
  /-- 10 R45. -/
  curOp : Byte
  /-- 10 R45. -/
  curLba : Word
  /-- 10 R45: the error word of the NAND operation in progress. -/
  err : Word
  /-- The model's own: the local variable of the pseudocode step in progress (notes/assumptions/12.md). -/
  tmp : Word
  /-- The receive stream: bytes received and not yet taken, oldest first (10 R54, 92 D39). -/
  rxQueue : List Byte
  /-- The next answers of the transport oracle (20 R72). -/
  regAnswers : List Word
  /-- The model's own: how many free answers were drawn beyond them (notes/assumptions/8.md). -/
  regDraws : Nat
  /-- The next results of HardwareInit, SerialOpen and TransportUp (10 R54). -/
  initAnswers : List Bool
  /-- The model's own: how many free results were drawn beyond them (notes/assumptions/9.md). -/
  initDraws : Nat
  /-- The next choices of a frame wait with an empty queue: it ends, or goes on (41 R182). -/
  waitEnds : List Bool
  /-- The model's own: how many free choices were drawn beyond them (notes/assumptions/10.md). -/
  waitDraws : Nat
  /-- The model's own: whose turn is next (notes/assumptions/23.md). -/
  script : List Turn
  /-- Every event since reset, the NEWEST FIRST (20 R84, 10 R55; notes/assumptions/13.md). -/
  trace : List Event
  /-- The bytes that were on the serial link, sent and not yet taken, at the last reset, oldest first: "bytes already in
  flight on the serial link", which a reset does not reset (70 R290; notes/assumptions/14.md). -/
  txCarry : List Byte
  /-- How many bytes the host has taken since the last reset, of those carried over it and those sent since (70 R308). -/
  txTaken : Nat
  /-- For each send, the first ever at the head, how many untaken bytes the engine goes on with: with more it waits for the
  host to take bytes (60 R265, 92 D16; notes/assumptions/17.md). -/
  txRooms : List Nat
  /-- The model's own: how many sends there were before the last reset (notes/assumptions/17.md). -/
  txSends : Nat
  /-- The value last written to each register of the remote window, by address, addresses strictly rising (60 R268,
  70 R290; notes/assumptions/15.md). -/
  lastWrite : List (Nat × Word)
deriving DecidableEq, Repr

/-- The engine after reset (10 R57), in INIT. Elements R57 calls unspecified are zero: DESIGN CHOICE
(notes/assumptions/11.md). -/
def State.reset : State where
  params := Params.hardware
  phase := .init
  pc := [.init]
  exitCode := .none
  shutdownPending := false
  transportUp := false
  pinDbg := .released
  pinRst := .released
  pinCs := .released
  cfgValid := false
  cfgValue := 0#32
  rxBuf := Vector.replicate 5 0#8
  rxCnt := 0
  rxClosed := false
  wrBuf := Vector.replicate 528 0#8
  wrCnt := 0
  rdBuf := Vector.replicate 528 0#8
  t := 0#16
  sLast := 0#16
  stActive := false
  stCur := 0#32
  stEnd := 0#32
  stMedium := .nand
  curOp := 0#8
  curLba := 0#32
  err := 0#32
  tmp := 0#32
  rxQueue := []
  regAnswers := []
  regDraws := 0
  initAnswers := []
  initDraws := 0
  waitEnds := []
  waitDraws := 0
  script := []
  trace := []
  txCarry := []
  txTaken := 0
  txRooms := []
  txSends := 0
  lastWrite := []

end Sys2Proof.Machine
end

