-- ==== Sys2Proof/Machine/Ops.lean ====
section
/-! DEFINITION. The named operations over the state: the engine's primitives (00 R14), the views of its outputs (10 R55), the
draws from its environment (10 R54), the remote window, the GPIO lines, and the entry of an error and the return from it (60 R268, R269). -/

namespace Sys2Proof.Machine

open Sys2Proof

/-- The 8-bit address of a register (10 R47). -/
def regAddr : Reg → Byte
  | .cfg => 0x00#8
  | .status => 0x04#8
  | .cmd => 0x08#8
  | .addr => 0x0C#8
  | .data => 0x10#8

/-! ### Outputs and their views -/

/-- Record an event (20 R84). -/
def emit (e : Event) (s : State) : State :=
  { s with trace := e :: s.trace }

/-- The events since reset in the order they happened. -/
def State.history (s : State) : List Event :=
  s.trace.reverse

/-- What an event puts on the transmit stream. -/
def eventBytes : Event → List Byte
  | .send bytes => bytes
  | _ => []

/-- Whether an event is a register transaction. -/
def isTransaction : Event → Bool
  | .regRead _ _ => true
  | .regWrite _ _ => true
  | _ => false

/-- Whether an event is a send. -/
def isSend : Event → Bool
  | .send _ => true
  | _ => false

/-- Whether an event belongs to the line trace: line changes, settles, transport up and down (70 R307). -/
def isLineEvent : Event → Bool
  | .pins _ => true
  | .settle _ => true
  | .transportUp _ => true
  | .transportDown => true
  | _ => false

/-- Whether an event is a log event, which carries no obligation (10 R55, 92 D31). -/
def isLog : Event → Bool
  | .log _ => true
  | _ => false

/-- The serial transmit stream since reset (10 R55). -/
def State.tx (s : State) : List Byte :=
  s.history.flatMap eventBytes

/-- The register-transport transaction trace (10 R55). -/
def State.regTrace (s : State) : List Event :=
  s.history.filter isTransaction

/-- The line trace with its settles and the transport events (10 R55, 70 R307). -/
def State.lineTrace (s : State) : List Event :=
  s.history.filter isLineEvent

/-- The events that carry an obligation, in order: all but the log events (10 R55, 92 D31, D38). The transmit stream, the
register trace and the line trace are parts of it. -/
def State.visible (s : State) : List Event :=
  s.history.filter fun e => !isLog e

/-! ### The serial link to the host (60 R265, 70 R290, R308) -/

/-- The bytes put on the link that a reset did not take back: those in flight at the last reset, and those sent since. -/
def State.sent (s : State) : List Byte :=
  s.txCarry ++ s.tx

/-- The bytes in flight, oldest first: sent, and not yet taken by the host. -/
def State.inFlight (s : State) : List Byte :=
  s.sent.drop s.txTaken

/-- How many sends there were since the last reset. -/
def State.sends (s : State) : Nat :=
  s.trace.countP isSend

/-- How many bytes may be in flight for the engine to go on after the k-th send since the last reset, counted from 0: a choice of
the environment (60 R265, 92 D16). -/
def State.room (s : State) (k : Nat) : Nat :=
  (s.txRooms[s.txSends + k]?).getD (Config.txRoom (s.txSends + k))

/-- The last send makes the engine wait until the host takes bytes (60 R265): more bytes are in flight than it goes on with. Where
nothing was sent since reset there is no send to wait for. -/
def State.waitsForHost (s : State) : Bool :=
  match s.sends with
  | 0 => false
  | k + 1 => decide (s.room k < s.inFlight.length)

/-- Where a wait for the host is spent: after its send every procedure comes, with no event between, to the frame wait (42 R220, 41
R180) or to the loop top. -/
def isGate : Op → Bool
  | .loopTop => true
  | .frameWait => true
  | _ => false

/-- The engine stands at such an operation. -/
def State.atGate (s : State) : Bool :=
  match s.pc with
  | o :: _ => isGate o
  | [] => false

/-- The engine is held back: it waits for the host to take bytes (60 R265, 70 R308). -/
def State.held (s : State) : Bool :=
  s.atGate && s.waitsForHost

/-! ### Draws from the environment -/

/-- The answer the transport oracle gives to the k-th register read from now on (20 R72). -/
def State.answer (s : State) (k : Nat) : Word :=
  (s.regAnswers[k]?).getD (Config.regAnswer (s.regDraws + (k - s.regAnswers.length)))

/-- Pass the next answer of the transport oracle. -/
def dropAnswer (s : State) : State :=
  { s with
    regAnswers := s.regAnswers.tail
    regDraws := if s.regAnswers.isEmpty then s.regDraws + 1 else s.regDraws }

/-- The next result of HardwareInit, SerialOpen or TransportUp (10 R54). -/
def State.initAnswer (s : State) : Bool :=
  (s.initAnswers.head?).getD (Config.initAnswer s.initDraws)

/-- Pass it. -/
def dropInit (s : State) : State :=
  { s with
    initAnswers := s.initAnswers.tail
    initDraws := if s.initAnswers.isEmpty then s.initDraws + 1 else s.initDraws }

/-- Whether the frame wait, its queue empty, ends now (41 R182 step 9, 92 D18). -/
def State.waitEndsNow (s : State) : Bool :=
  (s.waitEnds.head?).getD (Config.waitEnds s.waitDraws)

/-- Pass that choice. -/
def dropWait (s : State) : State :=
  { s with
    waitEnds := s.waitEnds.tail
    waitDraws := if s.waitEnds.isEmpty then s.waitDraws + 1 else s.waitDraws }

/-! ### The remote window -/

/-- Write one register of the window in the canonical form: addresses strictly rising. -/
def windowWrite : List (Nat × Word) → Nat → Word → List (Nat × Word)
  | [], a, v => [(a, v)]
  | (b, w) :: rest, a, v =>
    if a < b then (a, v) :: (b, w) :: rest
    else if a = b then (a, v) :: rest
    else (b, w) :: windowWrite rest a v

/-- The value last written at an address, none where the engine has written nothing. -/
def windowRead : List (Nat × Word) → Nat → Option Word
  | [], _ => none
  | (b, w) :: rest, a => if a = b then some w else windowRead rest a

/-- The canonical form: every address of the list is above `lo`, and they rise strictly. -/
def windowWfFrom : Nat → List (Nat × Word) → Bool
  | _, [] => true
  | lo, (b, _) :: rest => decide (lo ≤ b) && windowWfFrom (b + 1) rest

/-- The canonical form of the window: addresses strictly rising. -/
def windowWf (m : List (Nat × Word)) : Bool :=
  windowWfFrom 0 m

/-- What the engine last wrote to a register (60 R268, 70 R290). -/
def State.remote (s : State) (r : Reg) : Option Word :=
  windowRead s.lastWrite (regAddr r).toNat

/-! ### Primitives (00 R14) -/

/-- `RegRead(r)`: the value read, an oracle answer (20 R72). -/
def readValue (s : State) : Word :=
  s.answer 0

/-- `RegRead(r)`: the state after it. -/
def afterRead (r : Reg) (s : State) : State :=
  emit (.regRead (regAddr r) (readValue s)) (dropAnswer s)

/-- `RegWrite(r, v)`. -/
def regWrite (r : Reg) (v : Word) (s : State) : State :=
  emit (.regWrite (regAddr r) v) { s with lastWrite := windowWrite s.lastWrite (regAddr r).toNat v }

/-- `Send(bytes)`. -/
def send (bytes : List Byte) (s : State) : State :=
  emit (.send bytes) s

/-- `Log(cause)`. -/
def logCause (c : Cause) (s : State) : State :=
  emit (.log c) s

/-- Drive one line. -/
def setLine (s : State) : Line × PinLevel → State
  | (.dbg, l) => { s with pinDbg := l }
  | (.rst, l) => { s with pinRst := l }
  | (.cs, l) => { s with pinCs := l }

/-- `SetPins`: the lines of one step change in one event (43 R243). -/
def setPins (changes : List (Line × PinLevel)) (s : State) : State :=
  emit (.pins changes) (changes.foldl setLine s)

/-- `Settle()`: an event that records the wait's lower bound (43 R242). -/
def settle (s : State) : State :=
  emit (.settle s.params.settleMinMs) s

/-- `TransportUp()`: whether it succeeds, a draw of the environment (43 R240). -/
def transportUpOk (s : State) : Bool :=
  s.initAnswer

/-- `TransportUp()`: the state after it (10 R35). -/
def afterTransportUp (s : State) : State :=
  emit (.transportUp (transportUpOk s)) { dropInit s with transportUp := s.transportUp || transportUpOk s }

/-- `TransportDown()`; "no effect if already down" (43 R241). -/
def transportDown (s : State) : State :=
  emit .transportDown { s with transportUp := false }

/-- Drop the oldest queued byte and record that it was taken (20 R88). -/
def takeByte (s : State) (b : Byte) (rest : List Byte) : State :=
  emit (.recv b) { s with rxQueue := rest }

/-- The sequencer registers of a dispatch (10 R45, 41 R183 steps 1 and 2). -/
def beginCommand (i : Instr) (s : State) : State :=
  { s with curOp := opcodeOf s.params.ops i, curLba := operandOf i }

/-- Continue at the given operations (00 R15). -/
def goto (k : List Op) (s : State) : State :=
  { s with pc := k }

/-! ### Error entry and return (60 R268, R269) -/

/-- The cause of 60 R263 a failed wait raises, with the status it records. -/
def siteCause (w : Site) (s : Half) : Cause :=
  match w with
  | .read => .timeoutRead s
  | .tick => .timeoutRead s
  | .erase => .timeoutErase s
  | .fill => .timeoutFill s
  | .addr => .timeoutAddr s
  | .commit => .timeoutCommit s

/-- Error entry, `fail()` (40 R134): the steps that form the error word after a failed wait. Nothing is saved and no further
transaction of the operation follows (60 R268). -/
def errorEntry (w : Site) : List Act :=
  [.errStatus, .errForm w]

/-- Error return (60 R269): what the caller of the failed operation does with the error word. A READ_FLASH sends it; a
stream tick sends it and ends the session; a WRITE_FLASH sends it and empties the payload count. -/
def errorReturn (w : Site) : List Act :=
  match w with
  | .read => [.sendErr]
  | .tick => [.sendErr, .deactivate]
  | .erase => [.sendErr, .clearPayload]
  | .fill => [.sendErr, .clearPayload]
  | .addr => [.sendErr, .clearPayload]
  | .commit => [.sendErr, .clearPayload]

/-- Where the loop goes on after it (41 R180): after the tick the frame wait, after a command the loop top. -/
def errorResume (w : Site) : Op :=
  match w with
  | .tick => .frameWait
  | .read => .loopTop
  | .erase => .loopTop
  | .fill => .loopTop
  | .addr => .loopTop
  | .commit => .loopTop

/-! ### The GPIO lines (43 R244) -/

/-- What drives a line electrically. -/
inductive Drive where
  | low
  | high
  | highZ
  /-- The chip-select line while the register transport owns it (10 R36). -/
  | transport
deriving DecidableEq, Repr

/-- The electrical state of a level under RELEASE_MODE (43 R244). -/
def levelDrive (m : ReleaseMode) : PinLevel → Drive
  | .low => .low
  | .released =>
    match m with
    | .driveHigh => .high
    | .highZ => .highZ

/-- The level the engine drives on a line (10 R36). -/
def State.pin (s : State) : Line → PinLevel
  | .dbg => s.pinDbg
  | .rst => s.pinRst
  | .cs => s.pinCs

/-- What drives a line: the engine's level, but the transport drives chip-select while it is up (43 R244). -/
def State.lineDrive (s : State) (l : Line) : Drive :=
  if l = .cs ∧ s.transportUp then .transport
  else levelDrive s.params.releaseMode (s.pin l)

end Sys2Proof.Machine
end

