-- ==== Sys2Proof/Machine/Operands.lean ====
section
/-! DEFINITION. Operand forms: the byte address of a sector (20 R71), the packing of words into a sector buffer (20 R75), and
the assembly of received bytes into the frame and payload buffers (10 R39, R41). -/

namespace Sys2Proof.Machine

open Sys2Proof

/-- `lba << 9` in 32 bits: `(lba * 512) mod 2^32` (20 R71, 92 D28). -/
def byteAddress (lba : Word) : Word :=
  lba <<< 9

/-- The words of a sector transfer: 128 of data, then 4 of spare (20 R75). -/
def sectorWords : Nat := 132

/-- Word `k` of a sector buffer: `unle32(buf[4k .. 4k+3])` (20 R75). -/
def wordAt (buf : Vector Byte 528) (k : Nat) : Word :=
  unle32 (buf[4 * k]?.getD 0#8) (buf[4 * k + 1]?.getD 0#8) (buf[4 * k + 2]?.getD 0#8) (buf[4 * k + 3]?.getD 0#8)

/-- `buf[4k .. 4k+3] <- le32(w)` (20 R75). -/
def setWordAt (buf : Vector Byte 528) (k : Nat) (w : Word) : Vector Byte 528 :=
  (((buf.setIfInBounds (4 * k) (byteOf w 0)).setIfInBounds (4 * k + 1) (byteOf w 1)).setIfInBounds (4 * k + 2)
    (byteOf w 2)).setIfInBounds (4 * k + 3) (byteOf w 3)

/-- The operand of a complete frame (20 R73, 30 R102). -/
def frameOperand (f : Vector Byte 5) : Word :=
  unle32 f[1] f[2] f[3] f[4]

/-- `frame_wait` steps 2 and 3: one byte into the frame assembler (41 R182). -/
def frameByte (b : Byte) (rest : List Byte) (s : State) : State :=
  { takeByte s b rest with rxBuf := s.rxBuf.setIfInBounds s.rxCnt b, rxCnt := s.rxCnt + 1 }

/-- WRITE_FLASH steps 3 and 7: one byte into the write buffer (41 R187). -/
def payloadByte (b : Byte) (rest : List Byte) (s : State) : State :=
  { takeByte s b rest with wrBuf := s.wrBuf.setIfInBounds s.wrCnt b, wrCnt := s.wrCnt + 1 }

end Sys2Proof.Machine
end

