-- ==== Sys2Proof/Machine/Flags.lean ====
section
/-! DEFINITION. Flags and fields: the status value and its busy bit (10 R49), the error word and its bit 15 (60 R262), the
fields of a configuration and the geometry they select (10 R38, 40 R136), the erase-on-boundary test (40 R137). -/

namespace Sys2Proof.Machine

open Sys2Proof

/-- `trunc_16`: the status value of a REG_STATUS read (20 R76, 40 R131). -/
def statusOf (v : Word) : Half :=
  v.setWidth 16

/-- Status bit 0: busy (10 R49). -/
def busy (s : Half) : Bool :=
  s.getLsbD 0

/-- `zext_32(0x8000 | s)` (60 R262). -/
def errorWord (s : Half) : Word :=
  (0x8000#16 ||| s).setWidth 32

/-- The erase-enable mask of REG_CFG, bit 3 (00 R8, 10 R48). -/
def eraseEnable : Word := 0x08#32

/-- `major = c[18:17]` (10 R38). -/
def majorOf (c : Word) : BitVec 2 :=
  c.extractLsb' 17 2

/-- `minor = c[5:4]` (10 R38). -/
def minorOf (c : Word) : BitVec 2 :=
  c.extractLsb' 4 2

/-- The size in bytes (00 R8). -/
def blockBytes : BlockSize → Nat
  | .b4000 => 0x4000
  | .b20000 => 0x20000
  | .b40000 => 0x40000

/-- `BLOCK_SIZE_OF(major, minor)` (00 R9). -/
def blockSizeOf (p : Params) (major minor : BitVec 2) : BlockSize :=
  (p.blockSizes[4 * major.toNat + minor.toNat]?).getD .b4000

/-- `sectors_in_block = block_bytes / 0x200` (10 R38, 40 R136). -/
def sectorsInBlock (p : Params) (c : Word) : Nat :=
  blockBytes (blockSizeOf p (majorOf c) (minorOf c)) / 0x200

/-- The erase-on-boundary test: `lba % sectors_in_block == 0` (40 R137). -/
def onBoundary (p : Params) (c : Word) (lba : Word) : Bool :=
  lba.toNat % sectorsInBlock p c == 0

end Sys2Proof.Machine
end

