-- ==== Sys2Proof/Machine/Nand.lean ====
section
/-! DEFINITION. The straight-line steps of the pseudocode (`fire`) and the NAND engine's operations (40_nand_engine.md). Each
sequence of transactions is written once, as a list of steps; `perform` runs it whole, and the sequencer (Sequencer.lean)
runs the same list event by event. -/

namespace Sys2Proof.Machine

open Sys2Proof

/-- One straight-line step: its event and what it writes. -/
def fire (a : Act) (s : State) : State :=
  match a with
  | .write r v => regWrite r v s
  | .clearRead => { afterRead .status s with tmp := readValue s }
  | .clearWrite => regWrite .status s.tmp s
  | .cfgRead => { afterRead .cfg s with cfgValue := readValue s, cfgValid := true }
  | .enableRead => { afterRead .cfg s with tmp := readValue s }
  | .enableWrite => regWrite .cfg (s.tmp ||| eraseEnable) s
  | .fillWord k => regWrite .data (wordAt s.wrBuf k) s
  | .drainWord k => { afterRead .data s with rdBuf := setWordAt s.rdBuf k (readValue s) }
  | .errStatus =>
    match s.params.errStatusSource with
    | .reread => { afterRead .status s with tmp := (statusOf (readValue s)).setWidth 32 }
    | .lastPoll => { s with tmp := s.sLast.setWidth 32 }
  | .errForm w => logCause (siteCause w (statusOf s.tmp)) { s with err := errorWord (statusOf s.tmp) }
  | .sendVersion => send (le32 s.params.protocolVersion) s
  | .sendConfig => send (le32 s.cfgValue) s
  | .sendOk => send (le32 0#32) s
  | .sendSector => send (le32 0#32 ++ s.rdBuf.toList) s
  | .sendErr => send (le32 s.err) s
  | .clearPayload => { s with wrCnt := 0 }
  | .armStream => { s with stActive := true, stCur := 0#32, stEnd := s.curLba, stMedium := .nand }
  | .advance => { s with stCur := s.stCur + 1#32 }
  | .deactivate => { s with stActive := false }
  | .log c => logCause c s
  | .pins changes => setPins changes s
  | .settle => settle s
  | .transportDown => transportDown s
  | .halt => { s with phase := .halted }
  | .fatalHw => logCause .fatalHwInit { s with exitCode := .one, phase := .halted }
  | .fatalTransport => logCause .fatalTransportInit { s with exitCode := .one, phase := .start }

/-- A sequence of straight-line steps, in order (00 R15). -/
def perform (acts : List Act) (s : State) : State :=
  acts.foldl (fun s a => fire a s) s

/-! ### The sequences of 40_nand_engine.md -/

/-- `read_block` steps 1 to 3 (40 R135). -/
def readSetup (lba : Word) : List Act :=
  [.clearRead, .clearWrite, .write .addr (byteAddress lba), .write .cmd 0x03#32]

/-- One word of the drain: the pulse, then the read (40 R143). -/
def drainStep (k : Nat) : List Act :=
  [.write .cmd 0x00#32, .drainWord k]

/-- `read_block` steps 5 to 9 (40 R135). -/
def readDrain : List Act :=
  .write .addr 0#32 :: (List.range sectorWords).flatMap drainStep

/-- `erase_block` steps 1 to 7, the handshake 0xAA, 0x55, 0x05 last (40 R138, R141). -/
def eraseSetup (lba : Word) : List Act :=
  [.clearRead, .clearWrite, .enableRead, .enableWrite, .write .addr (byteAddress lba),
    .write .cmd 0xAA#32, .write .cmd 0x55#32, .write .cmd 0x05#32]

/-- One word of the fill: the write, then the pulse (40 R143). -/
def fillStep (k : Nat) : List Act :=
  [.fillWord k, .write .cmd 0x01#32]

/-- `write_block` steps 6 to 10 (40 R139). -/
def writeFill : List Act :=
  [.clearRead, .clearWrite, .write .addr 0#32] ++ (List.range sectorWords).flatMap fillStep

/-- `write_block` step 12 (40 R139). -/
def writeAddr (lba : Word) : List Act :=
  [.write .addr (byteAddress lba)]

/-- `write_block` steps 14 to 16, the commit handshake 0x55, 0xAA, 0x04 (40 R139, R141). -/
def writeCommit : List Act :=
  [.write .cmd 0x55#32, .write .cmd 0xAA#32, .write .cmd 0x04#32]

/-! ### wait_ready and the operations -/

/-- `wait_ready` step 1: `t <- WAIT_BUDGET` (40 R133, R140). -/
def startWait (s : State) : State :=
  { s with t := s.params.waitBudget }

/-- `wait_ready` step 3: one status read (40 R133). -/
def pollStatus (s : State) : State :=
  { afterRead .status s with sLast := statusOf (readValue s) }

/-- `wait_ready` step 6 (40 R133). -/
def countDown (s : State) : State :=
  { s with t := s.t - 1#16 }

/-- The loop of `wait_ready`, with `n` polls left after this one: Ready (true) or NotReady (false). -/
def waitLoop : Nat → State → Bool × State
  | 0, s => (!busy (pollStatus s).sLast, pollStatus s)
  | n + 1, s =>
    if busy (pollStatus s).sLast then waitLoop n (countDown (pollStatus s))
    else (true, pollStatus s)

/-- `wait_ready(WAIT_BUDGET)` (40 R133). -/
def waitReady (s : State) : Bool × State :=
  waitLoop s.params.waitBudget.toNat (startWait s)

/-- A sequence of transactions and the `wait_ready` after it. The result is none for Ok; on NotReady it names the failed
wait, after the error entry (40 R134) and nothing more of the operation. -/
def stage (w : Site) (acts : List Act) (s : State) : Option Site × State :=
  match waitReady (perform acts s) with
  | (true, s') => (none, s')
  | (false, s') => (some w, perform (errorEntry w) s')

/-- Go on only after Ok; an error is passed up unchanged (00 R15, R16). -/
def andThen (r : Option Site × State) (f : State → Option Site × State) : Option Site × State :=
  match r with
  | (none, s) => f s
  | (some w, s) => (some w, s)

/-- `get_flash_config()` (40 R130): the state after it; its result is `cfgValue` there. -/
def getFlashConfig (s : State) : State :=
  if s.cfgValid then s else fire .cfgRead s

/-- `read_block(lba)` (40 R135), from READ_FLASH or a stream tick. -/
def readBlock (w : Site) (lba : Word) (s : State) : Option Site × State :=
  andThen (stage w (readSetup lba) s) fun s => (none, perform readDrain s)

/-- `erase_block(lba)` (40 R138). -/
def eraseBlock (lba : Word) (s : State) : Option Site × State :=
  stage .erase (eraseSetup lba) s

/-- `write_block` steps 2 to 5: the erase if and only if `lba` is on a boundary (40 R137). -/
def eraseOnBoundary (lba : Word) (s : State) : Option Site × State :=
  if onBoundary s.params s.cfgValue lba then eraseBlock lba s else (none, s)

/-- `write_block` steps 6 to 18: fill, address, commit, each with its wait (40 R139). -/
def programBlock (lba : Word) (s : State) : Option Site × State :=
  andThen (stage .fill writeFill s) fun s =>
    andThen (stage .addr (writeAddr lba) s) fun s => stage .commit writeCommit s

/-- `write_block(lba, data, spare)`, the data and spare in `wrBuf` (40 R139). -/
def writeBlock (lba : Word) (s : State) : Option Site × State :=
  andThen (eraseOnBoundary lba (getFlashConfig s)) (programBlock lba)

/-- What the caller of an operation does with its result: on Ok its own steps, on an error the error return (60 R269). -/
def reply (onOk : List Act) (r : Option Site × State) : State :=
  match r with
  | (none, s) => perform onOk s
  | (some w, s) => perform (errorReturn w) s

/-- After a successful sector read for READ_FLASH (41 R186 step 2). -/
def readReply : List Act := [.sendSector]

/-- After a successful sector read for the stream (42 R220 steps 7 and 8). -/
def tickReply : List Act := [.sendSector, .advance]

/-- After a successful write (41 R187 steps 9 and 10). -/
def writeReply : List Act := [.sendOk, .clearPayload]

end Sys2Proof.Machine
end

