-- ==== Sys2Proof/Machine/Ignored.lean ====
section
/-! DEFINITION. The commands that are logged and ignored: REBOOT_TO_BOOTLOADER (41 R189), the reserved ops (41 R190), the
unrecognised ops (41 R191). No byte is sent, none is consumed, no transaction is issued. -/

namespace Sys2Proof.Machine

open Sys2Proof

/-- REBOOT_TO_BOOTLOADER (41 R189). -/
def execRebootToBootloader (lba : Word) (s : State) : Host.Outcome State Fault Refusal :=
  .next (perform [.log .rebootUnsupported] (beginCommand (.rebootToBootloader lba) s))

/-- A reserved eMMC op (41 R190). -/
def execReservedEmmc (op : Byte) (lba : Word) (s : State) : Host.Outcome State Fault Refusal :=
  .next (perform [.log (.reservedOp op)] (beginCommand (.reservedEmmc op lba) s))

/-- A reserved daughterboard op (41 R190). -/
def execReservedDaughterboard (op : Byte) (lba : Word) (s : State) : Host.Outcome State Fault Refusal :=
  .next (perform [.log (.reservedOp op)] (beginCommand (.reservedDaughterboard op lba) s))

/-- An unrecognised op (41 R191). -/
def execUnrecognized (op : Byte) (lba : Word) (s : State) : Host.Outcome State Fault Refusal :=
  .next (perform [.log (.unknownOp op)] (beginCommand (.unrecognized op lba) s))

end Sys2Proof.Machine
end

