-- ==== Sys2Proof/Machine/Query.lean ====
section
/-! DEFINITION. GET_VERSION and GET_FLASH_CONFIG (41 R184, R185). -/

namespace Sys2Proof.Machine

open Sys2Proof

/-- GET_VERSION (41 R184): four bytes whatever `lba` holds, no transaction. -/
def execGetVersion (lba : Word) (s : State) : Host.Outcome State Fault Refusal :=
  .next (perform [.sendVersion] (beginCommand (.getVersion lba) s))

/-- GET_FLASH_CONFIG (41 R185): REG_CFG is read on first use only. -/
def execGetFlashConfig (lba : Word) (s : State) : Host.Outcome State Fault Refusal :=
  .next (perform [.sendConfig] (getFlashConfig (beginCommand (.getFlashConfig lba) s)))

end Sys2Proof.Machine
end

