-- ==== Sys2Proof/Machine/Stream.lean ====
section
/-! DEFINITION. READ_FLASH_STREAM (41 R188) and the stream engine (42_stream.md). -/

namespace Sys2Proof.Machine

open Sys2Proof

/-- READ_FLASH_STREAM (41 R188): arms a session of `lba` sectors from sector 0, replacing any other. -/
def execReadFlashStream (lba : Word) (s : State) : Host.Outcome State Fault Refusal :=
  .next (perform [.armStream] (beginCommand (.readFlashStream lba) s))

/-- `stream_tick()` (42 R220). -/
def streamTick (s : State) : State :=
  if s.stActive then
    if s.stEnd ≤ s.stCur then fire .deactivate s
    else reply tickReply (readBlock .tick s.stCur s)
  else s

end Sys2Proof.Machine
end

