-- ==== Sys2Proof/Machine/Transfer.lean ====
section
/-! DEFINITION. READ_FLASH and WRITE_FLASH (41 R186, R187). -/

namespace Sys2Proof.Machine

open Sys2Proof

/-- READ_FLASH (41 R186): a success code with 528 bytes, or the error word. -/
def execReadFlash (lba : Word) (s : State) : Host.Outcome State Fault Refusal :=
  .next (reply readReply (readBlock .read lba (beginCommand (.readFlash lba) s)))

/-- The bytes of a payload (30 R108). -/
def payloadBytes : Nat := 528

/-- WRITE_FLASH steps 2 to 7 over the bytes already queued: take them until the payload is complete (41 R187). -/
def takePayload : List Byte → State → State
  | [], s => s
  | b :: rest, s => if s.wrCnt < payloadBytes then takePayload rest (payloadByte b rest s) else s

/-- WRITE_FLASH steps 4 to 6: the channel closed before the payload was complete (41 R187, 60 R263 cause 6). -/
def abandonPayload (s : State) : State :=
  perform [.log (.payloadIncomplete s.wrCnt), .clearPayload] s

/-- WRITE_FLASH steps 8 to 10 (41 R187). -/
def finishWrite (s : State) : State :=
  reply writeReply (writeBlock s.curLba s)

/-- WRITE_FLASH once no queued byte is left to take: complete, abandoned, or waiting for the host (70 R302). -/
def payloadDecide (s : State) : State :=
  if s.wrCnt < payloadBytes then
    if s.rxClosed then abandonPayload s else goto [.recvPayload] s
  else finishWrite s

/-- WRITE_FLASH steps 2 to 10, from wherever its payload receive stands (41 R187). -/
def payloadReceive (s : State) : State :=
  payloadDecide (takePayload s.rxQueue s)

/-- WRITE_FLASH (41 R187). Where the queued bytes end before the payload is complete and the channel is open, the engine
waits in the payload receive, and a later step goes on from there (notes/assumptions/19.md). -/
def execWriteFlash (lba : Word) (s : State) : Host.Outcome State Fault Refusal :=
  .next (payloadReceive (perform [.clearPayload] (beginCommand (.writeFlash lba) s)))

end Sys2Proof.Machine
end

