-- ==== Sys2Proof/Machine/Dispatch.lean ====
section
/-! DEFINITION. One arm per command (41 R183 step 3). -/

namespace Sys2Proof.Machine

open Sys2Proof

def exec (i : Instr) (s : State) : Host.Outcome State Fault Refusal :=
  match i with
  | .getVersion lba => Sys2Proof.Machine.execGetVersion lba s
  | .getFlashConfig lba => Sys2Proof.Machine.execGetFlashConfig lba s
  | .readFlash lba => Sys2Proof.Machine.execReadFlash lba s
  | .writeFlash lba => Sys2Proof.Machine.execWriteFlash lba s
  | .readFlashStream lba => Sys2Proof.Machine.execReadFlashStream lba s
  | .rebootToBootloader lba => Sys2Proof.Machine.execRebootToBootloader lba s
  | .reservedEmmc op lba => Sys2Proof.Machine.execReservedEmmc op lba s
  | .reservedDaughterboard op lba => Sys2Proof.Machine.execReservedDaughterboard op lba s
  | .unrecognized op lba => Sys2Proof.Machine.execUnrecognized op lba s

end Sys2Proof.Machine
end

