-- ==== Sys2Proof/Machine/Frame.lean ====
section
/-! DEFINITION. The frame wait (41 R182): how the engine fetches its next command. -/

namespace Sys2Proof.Machine

open Sys2Proof

/-- The instruction the frame assembler holds (41 R183, 30 R104). -/
def frameInstr (s : State) : Instr :=
  decodeOp s.params.ops s.rxBuf[0] (frameOperand s.rxBuf)

/-- Whether the fifth byte of a frame has just come in (41 R182 step 4). -/
def frameComplete (s : State) : Bool :=
  s.rxCnt == 5

/-- `rx_cnt <- 0` for a complete frame (41 R182 step 4). -/
def handOver (s : State) : State :=
  { s with rxCnt := 0 }

/-- `frame_wait` steps 2 to 4 over the queued bytes: take them until a frame is complete (41 R182). True: it is. -/
def takeFrame : List Byte → State → Bool × State
  | [], s => (false, s)
  | b :: rest, s =>
    if frameComplete (frameByte b rest s) then (true, handOver (frameByte b rest s))
    else takeFrame rest (frameByte b rest s)

/-- `frame_wait` step 6: a partial frame is dropped when the channel closes (41 R182, 60 R263 cause 7). -/
def dropPartial (s : State) : State :=
  if s.rxCnt = 0 then s else { logCause (.rxClosedMidFrame s.rxCnt) s with rxCnt := 0 }

/-- `frame_wait` steps 5 to 9, no byte queued: the channel is closed, or the wait ends, or it goes on (41 R182). -/
def frameIdle (s : State) : State :=
  if s.rxClosed then goto [.loopTop] (dropPartial s)
  else if s.waitEndsNow then goto [.loopTop] (dropWait s)
  else goto [.frameWait] (dropWait s)

/-- `frame_wait()` (41 R182): the command fetched, if a frame is complete, and the state in which it is dispatched; the loop
goes on at its top after it. -/
def fetch (s : State) : Option Instr × State :=
  match takeFrame s.rxQueue s with
  | (true, s') => (some (frameInstr s'), goto [.loopTop] s')
  | (false, s') => (none, frameIdle s')

/-- The engine in its frame wait in RUN with these bytes first in its receive queue, the op values those of the table, no frame
begun, and every sent byte taken by the host. -/
def placeBytes (bytes : List Byte) (s : State) : State :=
  { s with
    params := { s.params with ops := OpMap.table }
    phase := .run
    transportUp := true
    pc := [.frameWait]
    stMedium := .nand
    script := []
    rxCnt := 0
    txTaken := s.sent.length
    rxQueue := bytes ++ s.rxQueue }

end Sys2Proof.Machine
end

