-- ==== Sys2Proof/Machine/Power.lean ====
section
/-! DEFINITION. The life of the engine outside the commands: INIT (70 R291), the power sequencer with STOP and START
(43_power.md, 70 R292, R294), and the loop top (41 R180). -/

namespace Sys2Proof.Machine

open Sys2Proof

/-- `stop_controller` steps 1 to 8 (43 R240). -/
def stopSequence : List Act :=
  [.pins [(.dbg, .low)], .settle,
    .pins [(.cs, .low), (.rst, .low)], .settle,
    .pins [(.dbg, .released), (.rst, .released)], .settle,
    .pins [(.cs, .released)], .settle]

/-- `start_controller` (43 R241), then `phase <- HALTED` (70 R294). -/
def startSequence : List Act :=
  [.transportDown, .pins [(.dbg, .low), (.rst, .low)], .settle, .pins [(.rst, .released)], .halt]

/-- A transport failure at start-up: log, exit code 1, START (70 R291 steps 7 and 8, R292). -/
def transportFailed (s : State) : State :=
  goto [.start] (fire .fatalTransport s)

/-- INIT steps 5 to 9 (70 R291). -/
def serialOpen (s : State) : State :=
  if s.initAnswer then goto [.stop] { dropInit s with phase := .stop }
  else transportFailed (dropInit s)

/-- Phase INIT (70 R291). -/
def runInit (s : State) : State :=
  if s.initAnswer then serialOpen (dropInit s)
  else goto [] (fire .fatalHw (dropInit s))

/-- `stop_controller` steps 9 and 10 and what phase STOP makes of them (43 R240, 70 R292). -/
def bringUp (s : State) : State :=
  if transportUpOk s then goto [.loopTop] { afterTransportUp s with phase := .run }
  else transportFailed (afterTransportUp s)

/-- Phase STOP (70 R292). -/
def runStop (s : State) : State :=
  bringUp (perform stopSequence s)

/-- Phase START (70 R294). -/
def runStart (s : State) : State :=
  goto [] (perform startSequence s)

/-- The loop top (41 R180 steps 1 to 3, R181). -/
def loopTop (s : State) : State :=
  if s.shutdownPending then goto [.start] { s with exitCode := .zero, phase := .start }
  else goto [.tick] s

end Sys2Proof.Machine
end

