-- ==== Sys2Proof/Machine/Sequencer.lean ====
section
/-! DEFINITION. The engine event by event (92 D1, 10 R32): one operation of `pc`, at most one event, at a time. The sequences
of transactions are the same lists the whole operations perform. `runProcedure` is one whole procedure. -/

namespace Sys2Proof.Machine

open Sys2Proof

/-- Straight-line steps as sequencer operations. -/
def acts (as : List Act) : List Op :=
  as.map Op.act

/-- `read_block` and what its caller does on Ok. -/
def readOps (w : Site) (lba : Word) (onOk : List Act) (resume : Op) : List Op :=
  acts (readSetup lba) ++ [.wait w] ++ acts (readDrain ++ onOk) ++ [resume]

/-- `erase_block`. -/
def eraseOps (lba : Word) : List Op :=
  acts (eraseSetup lba) ++ [.wait .erase]

/-- `write_block` from its fill on, and what WRITE_FLASH does on Ok. -/
def programOps (lba : Word) : List Op :=
  acts writeFill ++ [.wait .fill] ++ acts (writeAddr lba) ++ [.wait .addr] ++ acts writeCommit ++ [.wait .commit]
    ++ acts writeReply ++ [.loopTop]

/-- After the error entry the error return, then the loop (60 R268, R269). -/
def failOps (w : Site) : List Op :=
  acts (errorEntry w ++ errorReturn w) ++ [errorResume w]

/-- The procedure of a command (41 R183 step 3), and the loop top after it. -/
def commandOps : Instr → List Op
  | .getVersion _ => acts [.sendVersion] ++ [.loopTop]
  | .getFlashConfig _ => .cfgTest :: acts [.sendConfig] ++ [.loopTop]
  | .readFlash lba => readOps .read lba readReply .loopTop
  | .writeFlash _ => acts [.clearPayload] ++ [.recvPayload]
  | .readFlashStream _ => acts [.armStream] ++ [.loopTop]
  | .rebootToBootloader _ => acts [.log .rebootUnsupported] ++ [.loopTop]
  | .reservedEmmc op _ => acts [.log (.reservedOp op)] ++ [.loopTop]
  | .reservedDaughterboard op _ => acts [.log (.reservedOp op)] ++ [.loopTop]
  | .unrecognized op _ => acts [.log (.unknownOp op)] ++ [.loopTop]

/-- One turn of the payload receive (41 R187 steps 2 to 7): the payload is complete, or a byte is taken, or the channel is
closed, or the engine waits. -/
def payloadTurn (s : State) : State :=
  if s.wrCnt < payloadBytes then
    match s.rxQueue with
    | b :: rest => goto [.recvPayload] (payloadByte b rest s)
    | [] =>
      if s.rxClosed then goto (acts [.log (.payloadIncomplete s.wrCnt), .clearPayload] ++ [.loopTop]) s
      else goto [.recvPayload] s
  else goto [.cfgTest, .eraseTest] s

/-- One turn of the frame wait (41 R182). -/
def frameTurn (s : State) : State :=
  match s.rxQueue with
  | b :: rest =>
    if frameComplete (frameByte b rest s) then goto [.dispatch] (handOver (frameByte b rest s))
    else goto [.frameWait] (frameByte b rest s)
  | [] => frameIdle s

/-- One turn of `wait_ready`'s loop (40 R133 steps 3 to 6); `k` is what follows on Ready. -/
def pollTurn (w : Site) (k : List Op) (s : State) : State :=
  if busy (pollStatus s).sLast then
    if s.t = 0#16 then goto (failOps w) (pollStatus s)
    else goto (.poll w :: k) (countDown (pollStatus s))
  else goto k (pollStatus s)

/-- The entry of `stream_tick` (42 R220 steps 1 to 5). -/
def tickTurn (s : State) : State :=
  if s.stActive then
    if s.stEnd ≤ s.stCur then goto (acts [.deactivate] ++ [.frameWait]) s
    else goto (readOps .tick s.stCur tickReply .frameWait) s
  else goto [.frameWait] s

/-- One operation of the sequencer; `k` is what is left of the procedure after it. -/
def opStep (o : Op) (k : List Op) (s : State) : State :=
  match o with
  | .act a => fire a (goto k s)
  | .init =>
    if s.initAnswer then goto [.serialOpen] (dropInit s)
    else goto (acts [.fatalHw]) (dropInit s)
  | .serialOpen =>
    if s.initAnswer then goto [.stop] { dropInit s with phase := .stop }
    else goto (acts [.fatalTransport] ++ [.start]) (dropInit s)
  | .stop => goto (acts stopSequence ++ [.transportUp]) s
  | .transportUp =>
    if transportUpOk s then goto [.loopTop] { afterTransportUp s with phase := .run }
    else goto (acts [.fatalTransport] ++ [.start]) (afterTransportUp s)
  | .start => goto (acts startSequence) s
  | .loopTop => loopTop s
  | .tick => tickTurn s
  | .frameWait => frameTurn s
  | .dispatch => goto (commandOps (frameInstr s)) (beginCommand (frameInstr s) s)
  | .recvPayload => payloadTurn s
  | .cfgTest => if s.cfgValid then goto k s else fire .cfgRead (goto k s)
  | .eraseTest =>
    if onBoundary s.params s.cfgValue s.curLba then goto (eraseOps s.curLba ++ programOps s.curLba) s
    else goto (programOps s.curLba) s
  | .wait w => goto (.poll w :: k) (startWait s)
  | .poll w => pollTurn w k s

/-- One operation of the sequencer; in HALTED, where nothing is left, no event occurs (70 R295), and none while the engine is held
back by the transmit stream (60 R265). -/
def eventStep (s : State) : State :=
  if s.held then s
  else
    match s.pc with
    | [] => s
    | o :: k => opStep o k s

/-- So many operations of the sequencer. -/
def events : Nat → State → State
  | 0, s => s
  | n + 1, s => events n (eventStep s)

/-- One whole procedure of the engine, where `pc` stands at the entry of one; a single operation where it stands inside one. (A
frame wait is the step's own: it fetches and executes a command.) -/
def runProcedure (s : State) : State :=
  match s.pc with
  | .init :: _ => runInit s
  | .stop :: _ => runStop s
  | .start :: _ => runStart s
  | .tick :: _ => goto [.frameWait] (streamTick s)
  | .recvPayload :: _ => payloadReceive (goto [.loopTop] s)
  | _ => eventStep s

end Sys2Proof.Machine
end

