-- ==== Sys2Proof/Machine/HostMoves.lean ====
section
/-! DEFINITION. What the host may do (70 R308), reset among it (70 R290). -/

namespace Sys2Proof.Machine

open Sys2Proof

/-- Reset (70 R290): every engine element at its reset value (10 R57), phase INIT. The remote registers, the bytes in flight on the
serial link in both directions, the parameters and what the environment is still to do are kept (notes/assumptions/14.md). -/
def resetEngine (s : State) : State :=
  { State.reset with
    params := s.params
    rxQueue := s.rxQueue
    regAnswers := s.regAnswers
    regDraws := s.regDraws
    initAnswers := s.initAnswers
    initDraws := s.initDraws
    waitEnds := s.waitEnds
    waitDraws := s.waitDraws
    script := s.script
    txCarry := s.inFlight
    txRooms := s.txRooms
    txSends := s.txSends + s.sends
    lastWrite := s.lastWrite }

/-- Append bytes to the receive stream (70 R308); a closed channel takes no more (notes/assumptions/21.md). -/
def hostSend (bytes : List Byte) (s : State) : State :=
  if s.rxClosed then s else { s with rxQueue := s.rxQueue ++ bytes }

/-- Take bytes off the link, the oldest first (70 R308), no more than there are. -/
def hostTake (n : Nat) (s : State) : State :=
  { s with txTaken := min (s.txTaken + n) s.sent.length }

/-- One move of the host. -/
def applyMove (m : HostMove) (s : State) : State :=
  match m with
  | .send bytes => hostSend bytes s
  | .close => { s with rxClosed := true }
  | .take n => hostTake n s
  | .shutdown => { s with shutdownPending := true }
  | .reset => resetEngine s

end Sys2Proof.Machine
end

