-- ==== Sys2Proof/Machine/Step.lean ====
section
/-! DEFINITION. One step of the machine. -/

namespace Sys2Proof.Machine

open Sys2Proof

/-- One step of the engine, not held back: in its frame wait it fetches a command and executes it (41 R182, R183); elsewhere it
runs the procedure it stands at. -/
def advanceEngine (s : State) : Host.Outcome State Fault Refusal :=
  match s.pc with
  | .frameWait :: _ =>
    match fetch s with
    | (some i, s') => exec i s'
    | (none, s') => .next s'
  | _ => .next (runProcedure s)

/-- One step of the engine; while the transmit stream holds it back, it waits (60 R265). -/
def engineStep (s : State) : Host.Outcome State Fault Refusal :=
  if s.held then .next s else advanceEngine s

/-- One step of the machine: whoever's turn the script says it is, and the engine's where it says nothing. Parameters that
break 00 R10 and the medium EMMC_RESERVED are refused (93 I14, I19). -/
def step (s : State) : Host.Outcome State Fault Refusal :=
  if s.params.ops.wf then
    match s.stMedium with
    | .emmcReserved => .refused .emmcMedium
    | .nand =>
      match s.script with
      | [] => engineStep s
      | .engine :: rest => engineStep { s with script := rest }
      | .events k :: rest => .next (events k { s with script := rest })
      | .host m :: rest => .next (applyMove m { s with script := rest })
  else .refused .badParams

/-- `s` with the command whose bits are `w` (those from `nbits` on zero) next in the receive queue, in a frame wait of RUN, so
that the next step fetches and executes it (notes/assumptions/22.md). -/
def State.withFetchWord (s : State) (nbits w : Nat) : State :=
  placeBytes (tableBytes nbits w) s

end Sys2Proof.Machine
end

