-- ==== Sys2Proof/Machine/Traces.lean ====
section
/-! DEFINITION. The register traces of 40_nand_engine.md written out, for the statements to name: each a function of the answers
`a 0, a 1, …` the oracle gives from where the trace begins. `R<aa>→v` of 30 R112 is `.regRead aa v`, `W<aa>←v` is
`.regWrite aa v`. -/

namespace Sys2Proof.Machine

open Sys2Proof

/-- The answers from the n-th on. -/
def shift (n : Nat) (a : Nat → Word) : Nat → Word :=
  fun k => a (n + k)

/-- `wait_ready` with budget `T` is Ready on its poll number `p + 1` (40 R133). -/
def ReadyAt (a : Nat → Word) (T p : Nat) : Prop :=
  p ≤ T ∧ (∀ i < p, busy (statusOf (a i)) = true) ∧ busy (statusOf (a p)) = false

/-- `wait_ready` with budget `T` is NotReady: busy on each of its T + 1 polls (40 R133). -/
def NeverReady (a : Nat → Word) (T : Nat) : Prop :=
  ∀ i ≤ T, busy (statusOf (a i)) = true

/-- `n` polls: `R04→a 0, R04→a 1, …` (40 R133). -/
def pollEvents (a : Nat → Word) (n : Nat) : List Event :=
  (List.range n).map fun i => .regRead 0x04#8 (a i)

/-- `clear_status()`: one answer (40 R132). -/
def clearEvents (a : Nat → Word) : List Event :=
  [.regRead 0x04#8 (a 0), .regWrite 0x04#8 (a 0)]

/-- `read_block` steps 1 to 3: one answer (40 R135). -/
def readSetupEvents (a : Nat → Word) (lba : Word) : List Event :=
  clearEvents a ++ [.regWrite 0x0C#8 (byteAddress lba), .regWrite 0x08#8 0x03#32]

/-- `read_block` steps 5 to 9: 132 answers (40 R135). -/
def drainEvents (a : Nat → Word) : List Event :=
  .regWrite 0x0C#8 0#32 :: (List.range sectorWords).flatMap fun k => [.regWrite 0x08#8 0x00#32, .regRead 0x10#8 (a k)]

/-- The 528 bytes of a sector whose words are `a 0, …, a 131` (20 R75). -/
def sectorBytes (a : Nat → Word) : List Byte :=
  (List.range sectorWords).flatMap fun k => le32 (a k)

/-- `erase_block` steps 1 to 7: two answers (40 R138). -/
def eraseSetupEvents (a : Nat → Word) (lba : Word) : List Event :=
  clearEvents a ++ [.regRead 0x00#8 (a 1), .regWrite 0x00#8 (a 1 ||| 0x08#32), .regWrite 0x0C#8 (byteAddress lba),
    .regWrite 0x08#8 0xAA#32, .regWrite 0x08#8 0x55#32, .regWrite 0x08#8 0x05#32]

/-- `write_block` steps 6 to 10 from the write buffer: one answer (40 R139). -/
def fillEvents (a : Nat → Word) (buf : Vector Byte 528) : List Event :=
  clearEvents a ++ [.regWrite 0x0C#8 0#32]
    ++ (List.range sectorWords).flatMap fun k => [.regWrite 0x10#8 (wordAt buf k), .regWrite 0x08#8 0x01#32]

/-- `write_block` step 12 (40 R139). -/
def addrEvents (lba : Word) : List Event :=
  [.regWrite 0x0C#8 (byteAddress lba)]

/-- `write_block` steps 14 to 16 (40 R139). -/
def commitEvents : List Event :=
  [.regWrite 0x08#8 0x55#32, .regWrite 0x08#8 0xAA#32, .regWrite 0x08#8 0x04#32]

/-- How many answers `fail()` takes (40 R134). -/
def errorReads (e : ErrStatusSource) : Nat :=
  match e with
  | .reread => 1
  | .lastPoll => 0

/-- `fail()` after a wait whose polls were answered `a 0, …, a T`: the status read it adds (40 R134). -/
def errorEvents (e : ErrStatusSource) (a : Nat → Word) (T : Nat) : List Event :=
  match e with
  | .reread => [.regRead 0x04#8 (a (T + 1))]
  | .lastPoll => []

/-- The error word of that failure (40 R134, 60 R262): from the status read again, or from the last poll's. -/
def failureWord (e : ErrStatusSource) (a : Nat → Word) (T : Nat) : Word :=
  match e with
  | .reread => errorWord (statusOf (a (T + 1)))
  | .lastPoll => errorWord (statusOf (a T))

/-- A wait that fails: its T + 1 polls and what `fail()` adds. -/
def timeoutEvents (e : ErrStatusSource) (a : Nat → Word) (T : Nat) : List Event :=
  pollEvents a (T + 1) ++ errorEvents e a T

/-- `read_block` Ok, its wait Ready on poll `p + 1`: `1 + (p + 1) + 132` answers (40 R135). -/
def readEvents (a : Nat → Word) (lba : Word) (p : Nat) : List Event :=
  readSetupEvents a lba ++ pollEvents (shift 1 a) (p + 1) ++ drainEvents (shift (1 + (p + 1)) a)

/-- `write_block` steps 6 to 17, its three waits Ready on polls `p + 1`, `q + 1` and `r + 1` (40 R139). -/
def programEvents (a : Nat → Word) (buf : Vector Byte 528) (lba : Word) (p q r : Nat) : List Event :=
  fillEvents a buf ++ pollEvents (shift 1 a) (p + 1)
    ++ (addrEvents lba ++ pollEvents (shift (1 + (p + 1)) a) (q + 1))
    ++ (commitEvents ++ pollEvents (shift (1 + (p + 1) + (q + 1)) a) (r + 1))

/-- How many answers `get_flash_config` takes (40 R130). -/
def configReads (s : State) : Nat :=
  if s.cfgValid then 0 else 1

/-- The transactions of `get_flash_config` (40 R130). -/
def configEvents (s : State) : List Event :=
  if s.cfgValid then [] else [.regRead 0x00#8 (s.answer 0)]

/-- The result of `get_flash_config` (40 R130). -/
def configOf (s : State) : Word :=
  if s.cfgValid then s.cfgValue else s.answer 0

/-- `write_block(lba)` comes as far as its fill (40 R139 steps 1 to 5): the `n` answers it has taken and the transactions `es`
it has made by then, without an erase where `lba` is inside an erase unit, and with an erase that succeeds where it is the first
sector of one. -/
def WriteBegins (s : State) (lba : Word) (n : Nat) (es : List Event) : Prop :=
  (lba.toNat % sectorsInBlock s.params (configOf s) ≠ 0 ∧ n = configReads s ∧ es = configEvents s)
    ∨ (lba.toNat % sectorsInBlock s.params (configOf s) = 0 ∧ ∃ p,
      ReadyAt (shift (configReads s + 2) s.answer) s.params.waitBudget.toNat p ∧ n = configReads s + (2 + (p + 1))
        ∧ es = configEvents s ++ (eraseSetupEvents (shift (configReads s) s.answer) lba
            ++ pollEvents (shift (configReads s + 2) s.answer) (p + 1)))

/-- The words written to REG_DATA, in order. -/
def wordsWritten (es : List Event) : List Word :=
  es.filterMap fun
    | .regWrite a v => if a = 0x10#8 then some v else none
    | _ => none

end Sys2Proof.Machine
end

