-- ==== Sys2Proof/Safety.lean ====
section
/-! DEFINITION. What a legal state of the engine is: the promises the rules make about the whole machine. Every run from reset
stays inside; the statements that need one of them take it as a premise. After it, the terms the statements use. -/

namespace Sys2Proof.Safety

open Sys2Proof Sys2Proof.Machine

/-- The values the engine writes to REG_CMD, and only these (10 R50). -/
def strobes : List Word := [0x00#32, 0x01#32, 0x03#32, 0xAA#32, 0x55#32, 0x05#32, 0x04#32]

/-- What a transaction of the engine may be: the five addresses (10 R47), REG_CMD never read and written with the listed
values only (10 R50), REG_ADDR never read and written with sector addresses only (10 R51), REG_CFG written with the erase-enable bit
set (10 R48). Other events are free. -/
def eventOk : Event → Bool
  | .regRead a _ => a == 0x00#8 || a == 0x04#8 || a == 0x10#8
  | .regWrite a v =>
    (a == 0x00#8 && (v &&& 0x08#32 == 0x08#32))
      || a == 0x04#8
      || (a == 0x08#8 && strobes.contains v)
      || (a == 0x0C#8 && (v &&& 0x1FF#32 == 0#32))
      || a == 0x10#8
  | _ => true

/-- A register write given by its value: REG_CMD takes a strobe, REG_ADDR a sector address; the other registers are written
by steps of their own. -/
def writeInRun (r : Reg) (v : Word) : Bool :=
  match r with
  | .cmd => strobes.contains v
  | .addr => v &&& 0x1FF#32 == 0#32
  | .cfg => false
  | .status => false
  | .data => false

/-- The straight-line steps that occur in RUN: all but those of the power sequences and of a fatal start-up error. (The read
that fills the configuration cache is made by `cfgTest` alone, and never waits in a continuation.) -/
def actInRun : Act → Bool
  | .write r v => writeInRun r v
  | .clearRead => true
  | .clearWrite => true
  | .cfgRead => false
  | .enableRead => true
  | .enableWrite => true
  | .fillWord _ => true
  | .drainWord _ => true
  | .errStatus => true
  | .errForm _ => true
  | .sendVersion => true
  | .sendConfig => true
  | .sendOk => true
  | .sendSector => true
  | .sendErr => true
  | .clearPayload => true
  | .armStream => true
  | .advance => true
  | .deactivate => true
  | .log _ => true
  | .pins _ => false
  | .settle => false
  | .transportDown => false
  | .halt => false
  | .fatalHw => false
  | .fatalTransport => false

/-- The sequencer operations that occur in RUN. -/
def opInRun : Op → Bool
  | .act a => actInRun a
  | .init => false
  | .serialOpen => false
  | .stop => false
  | .transportUp => false
  | .start => false
  | _ => true

/-- The operations that say themselves where the loop goes on, so that one may stand last. -/
def endsRun : Op → Bool
  | .loopTop => true
  | .tick => true
  | .frameWait => true
  | .dispatch => true
  | .recvPayload => true
  | .eraseTest => true
  | _ => false

/-- A continuation of RUN: operations of RUN, the last one of those that may stand last. -/
def runFlow : List Op → Bool
  | [] => false
  | o :: k => opInRun o && (if k.isEmpty then endsRun o else runFlow k)

/-- Where `pc` can stand in each phase (10 R31, R32): at the entry of its procedure or inside it. -/
def flow (p : Phase) (k : List Op) : Bool :=
  match p with
  | .init => [[.init], [.serialOpen], [.act .fatalHw], [.act .fatalTransport, .start]].contains k
  | .stop =>
    k == [.stop] || k == [.act .fatalTransport, .start]
      || (!k.isEmpty && k.isSuffixOf (acts stopSequence ++ [.transportUp]))
  | .run => runFlow k
  | .start => k == [.start] || (!k.isEmpty && k.isSuffixOf (acts startSequence))
  | .halted => k.isEmpty

/-- The transport is up throughout RUN, and otherwise only until START has torn it down (10 R35, 92 D34). -/
def transportOk (s : State) : Bool :=
  match s.phase with
  | .run => s.transportUp
  | .start => !s.transportUp || s.pc == [.start] || s.pc == acts startSequence
  | _ => !s.transportUp

/-- The exit code is written when the engine decides to stop, and not before (10 R33). -/
def exitOk (s : State) : Bool :=
  match s.phase with
  | .start => s.exitCode != .none
  | .halted => s.exitCode != .none
  | _ => s.exitCode == .none

/-- The levels of the three lines (10 R36). -/
structure Lines where
  dbg : PinLevel
  rst : PinLevel
  cs : PinLevel
deriving DecidableEq, Repr

/-- All three lines released. -/
def Lines.idle : Lines := ⟨.released, .released, .released⟩

/-- The lines after START: DBG Low, RST and CS Released (70 R295). -/
def Lines.final : Lines := ⟨.low, .released, .released⟩

/-- The levels a state drives. -/
def linesOf (s : State) : Lines := ⟨s.pinDbg, s.pinRst, s.pinCs⟩

/-- The levels after one line change. -/
def changeLine (l : Lines) : Line × PinLevel → Lines
  | (.dbg, v) => { l with dbg := v }
  | (.rst, v) => { l with rst := v }
  | (.cs, v) => { l with cs := v }

/-- The levels once the line changes still in a continuation are made. -/
def endLines : List Op → Lines → Lines
  | [], l => l
  | .act (.pins changes) :: k, l => endLines k (changes.foldl changeLine l)
  | _ :: k, l => endLines k l

/-- The lines in each phase (10 R36, 43 R240, R241, 70 R295): released in INIT and RUN, on the way to released in STOP, released at the
entry of START and on the way to the final levels inside it, and in HALTED the final levels, or released after a hardware
failure. -/
def linesOk (s : State) : Bool :=
  match s.phase with
  | .init => linesOf s == Lines.idle
  | .stop => endLines s.pc (linesOf s) == Lines.idle
  | .run => linesOf s == Lines.idle
  | .start =>
    if s.pc == [.start] then linesOf s == Lines.idle
    else endLines s.pc (linesOf s) == Lines.final
  | .halted => linesOf s == Lines.final || (linesOf s == Lines.idle && s.exitCode == .one)

/-- A legal state. -/
structure Inv (s : State) : Prop where
  /-- 00 R10. -/
  ops : s.params.ops.wf = true
  /-- 42 R225. -/
  medium : s.stMedium = .nand
  /-- 10 R39. -/
  rxCnt : s.rxCnt ≤ 4
  /-- 10 R41. -/
  wrCnt : s.wrCnt ≤ 528
  /-- The record of the remote window is in its canonical form. -/
  window : windowWf s.lastWrite = true
  /-- 10 R31, R32. -/
  flow : flow s.phase s.pc = true
  /-- 10 R35. -/
  transport : transportOk s = true
  /-- 10 R33. -/
  exit : exitOk s = true
  /-- 10 R36. -/
  lines : linesOk s = true
  /-- 70 R308: the host has taken no more than was sent. -/
  taken : s.txTaken ≤ s.sent.length
  /-- 10 R47 to R51. -/
  trace : ∀ e ∈ s.trace, eventOk e = true

/-! ### Terms of the statements -/

/-- The engine is to move, at the operation `o`, and is not held back by the transmit stream. -/
structure AtOp (o : Op) (s : State) : Prop where
  ops : s.params.ops.wf = true
  medium : s.stMedium = .nand
  script : s.script = []
  free : s.held = false
  pc : ∃ k, s.pc = o :: k

/-- The same operation with another operand (30 R102). -/
def withOperand (v : Word) : Instr → Instr
  | .getVersion _ => .getVersion v
  | .getFlashConfig _ => .getFlashConfig v
  | .readFlash _ => .readFlash v
  | .writeFlash _ => .writeFlash v
  | .readFlashStream _ => .readFlashStream v
  | .rebootToBootloader _ => .rebootToBootloader v
  | .reservedEmmc op _ => .reservedEmmc op v
  | .reservedDaughterboard op _ => .reservedDaughterboard op v
  | .unrecognized op _ => .unrecognized op v

/-- The commands that are logged and ignored (41 R189 to R191). -/
def ignored : Instr → Bool
  | .rebootToBootloader _ => true
  | .reservedEmmc _ _ => true
  | .reservedDaughterboard _ _ => true
  | .unrecognized _ _ => true
  | .getVersion _ => false
  | .getFlashConfig _ => false
  | .readFlash _ => false
  | .writeFlash _ => false
  | .readFlashStream _ => false

/-- So many stream ticks, one after another (42 R220). -/
def ticks : Nat → State → State
  | 0, s => s
  | n + 1, s => streamTick (ticks n s)

/-- The read of the next sector would find its wait Ready (40 R133, R135). -/
def ReadSucceeds (s : State) : Prop :=
  ∃ p, ReadyAt (shift 1 s.answer) s.params.waitBudget.toNat p

/-- The read of the next sector would find its wait NotReady (40 R133, R135). -/
def ReadFails (s : State) : Prop :=
  NeverReady (shift 1 s.answer) s.params.waitBudget.toNat

/-- Whether an event is a byte taken from the receive stream. -/
def isRecv : Event → Bool
  | .recv _ => true
  | _ => false

/-- Whether an event is a read of REG_DATA (10 R52). -/
def isDataRead : Event → Bool
  | .regRead a _ => a == 0x10#8
  | _ => false

/-- The stream has not passed its end (42 R221). -/
def StreamInBounds (s : State) : Prop :=
  s.stActive = true → s.stCur ≤ s.stEnd

/-- The values the spec states for a reset (10 R57). -/
structure ResetValues (s : State) : Prop where
  phase : s.phase = .init
  pc : s.pc = [.init]
  exitCode : s.exitCode = .none
  shutdownPending : s.shutdownPending = false
  transportUp : s.transportUp = false
  pinDbg : s.pinDbg = .released
  pinRst : s.pinRst = .released
  pinCs : s.pinCs = .released
  cfgValid : s.cfgValid = false
  rxCnt : s.rxCnt = 0
  rxClosed : s.rxClosed = false
  wrCnt : s.wrCnt = 0
  stActive : s.stActive = false
  stCur : s.stCur = 0#32
  stEnd : s.stEnd = 0#32
  stMedium : s.stMedium = .nand
  tx : s.tx = []
  regTrace : s.regTrace = []

end Sys2Proof.Safety
end

