-- ==== Sys2Proof/Certificates/Slice0/Obligations.lean ====
section
/-! DEFINITION. The statements about the engine, in the order of the spec's files. Each docstring names the rules of spec/ it
formalises. `State.visible` is the observation of 10 R55: every event but the log events, in order, so that a statement
about it is one about the transactions, the bytes sent, the bytes taken, the line events and their order. -/

open Sys2Proof Sys2Proof.Machine Sys2Proof.Safety

/-! ### Encoding (30_encoding.md) -/

/-- Decoding the frame of a well-formed instruction gives the instruction back, under every op map that 00 R10 accepts and at
every operand (30 R100, R102, R104, R111). -/
def Obligations.DecodingAnEncodedFrameGivesItBack : Prop :=
  ∀ (m : OpMap) (i : Instr) (rest : List Byte), m.wf = true → i.wf m = true →
    decode m (encode m i ++ rest) = .ok (i, rest)

/-- Whatever five bytes are decoded, the instruction is well-formed and its frame is those five bytes: decoding loses nothing
(30 R100, R102, R104). -/
def Obligations.EncodingADecodedFrameGivesItsBytesBack : Prop :=
  ∀ (m : OpMap) (bytes rest : List Byte) (i : Instr), decode m bytes = .ok (i, rest) →
    i.wf m = true ∧ encode m i ++ rest = bytes

/-- 30 R104: every op byte decodes; a named value is that operation, else a reserved one is reserved, else it is
unrecognised; and another operand decodes to the same operation. -/
def Obligations.TheOpByteAloneDecidesTheOperation : Prop :=
  ∀ (m : OpMap) (f0 f1 f2 f3 f4 : Byte) (rest : List Byte), m.wf = true →
    ∃ i, decode m (f0 :: f1 :: f2 :: f3 :: f4 :: rest) = .ok (i, rest)
      ∧ (f0 = 0x00#8 → i = .getVersion (operandOf i))
      ∧ (f0 = m.getFlashConfig → i = .getFlashConfig (operandOf i))
      ∧ (f0 = m.readFlash → i = .readFlash (operandOf i))
      ∧ (f0 = m.writeFlash → i = .writeFlash (operandOf i))
      ∧ (f0 = m.readFlashStream → i = .readFlashStream (operandOf i))
      ∧ (f0 = m.rebootToBootloader → i = .rebootToBootloader (operandOf i))
      ∧ (f0 ∉ m.named → f0 ∈ m.reserved →
          i = .reservedEmmc f0 (operandOf i) ∨ i = .reservedDaughterboard f0 (operandOf i))
      ∧ (f0 ∉ m.named → f0 ∉ m.reserved → i = .unrecognized f0 (operandOf i))
      ∧ ∀ g1 g2 g3 g4, ∃ j, decode m (f0 :: g1 :: g2 :: g3 :: g4 :: rest) = .ok (j, rest)
          ∧ j = withOperand (operandOf j) i

/-- 20 R73: the operand of a frame is its bytes 1 to 4, the least significant first. -/
def Obligations.TheOperandIsLittleEndian : Prop :=
  ∀ (m : OpMap) (f0 f1 f2 f3 f4 : Byte) (rest : List Byte),
    ∃ i, decode m (f0 :: f1 :: f2 :: f3 :: f4 :: rest) = .ok (i, rest)
      ∧ operandOf i = unle32 f1 f2 f3 f4
      ∧ (operandOf i).toNat = f1.toNat + 2 ^ 8 * f2.toNat + 2 ^ 16 * f3.toNat + 2 ^ 24 * f4.toNat

/-- 00 R13: `le32` gives the bytes of a word, the least significant first, and `unle32` puts them together again. -/
def Obligations.WordsAndTheirBytesAgree : Prop :=
  (∀ v : Word, (le32 v).map BitVec.toNat
      = [v.toNat % 256, v.toNat / 256 % 256, v.toNat / 65536 % 256, v.toNat / 16777216 % 256])
    ∧ (∀ v : Word, unle32 (byteOf v 0) (byteOf v 1) (byteOf v 2) (byteOf v 3) = v)
    ∧ ∀ b0 b1 b2 b3 : Byte, le32 (unle32 b0 b1 b2 b3) = [b0, b1, b2, b3]

/-- Frames written out from the op map (30 R103; 95 V-F2 to V-F15) decode to what they stand for. A word lists the bytes of
a frame from the right. -/
def Obligations.FramesWrittenOutDecode : Prop :=
  decodeTableWord 40 0xFFFFFFFF00 = some (.getVersion 0xFFFFFFFF#32)
    ∧ decodeTableWord 40 0x0000000001 = some (.getFlashConfig 0x00000000#32)
    ∧ decodeTableWord 40 0x1234567802 = some (.readFlash 0x12345678#32)
    ∧ decodeTableWord 40 0x0000002003 = some (.writeFlash 0x00000020#32)
    ∧ decodeTableWord 40 0x0000000304 = some (.readFlashStream 0x00000003#32)
    ∧ decodeTableWord 40 0x00000000FE = some (.rebootToBootloader 0x00000000#32)
    ∧ decodeTableWord 40 0x0000000050 = some (.reservedEmmc 0x50#8 0x00000000#32)
    ∧ decodeTableWord 40 0x04030201AF = some (.reservedDaughterboard 0xAF#8 0x04030201#32)
    ∧ decodeTableWord 40 0x0000000060 = some (.unrecognized 0x60#8 0x00000000#32)

/-! ### The frame wait (41 R182, R183) -/

/-- In a frame wait, where the bytes of the frame begun and the bytes queued make a whole frame, the step is the command of
that frame, run with the frame taken from the queue, the assembler empty, and the loop top next (41 R180, R182, R183). -/
def Obligations.StepRunsTheDecodedFrame : Prop :=
  ∀ (s : State) (p q : List Byte) (i : Instr), AtOp .frameWait s → s.rxCnt ≤ 4 → s.rxQueue = p ++ q →
    s.rxCnt + p.length = 5 → decode s.params.ops (s.rxBuf.toList.take s.rxCnt ++ p ++ q) = .ok (i, q) →
    ∃ f : Vector Byte 5, f.toList = s.rxBuf.toList.take s.rxCnt ++ p
      ∧ step s = exec i { s with
          rxQueue := q
          rxBuf := f
          rxCnt := 0
          trace := (p.map Event.recv).reverse ++ s.trace
          pc := [.loopTop] }

/-- The model's own way to place an instruction (notes/assumptions/22.md): the step after `withFetchWord` runs what the
decoder reads from the word, in RUN with the transport up and the op values of the table, the bytes after the frame left
in the queue. -/
def Obligations.PlacedWordIsRunNext : Prop :=
  ∀ (s : State) (nbits w : Nat) (i : Instr), decodeTableWord nbits w = some i →
    ∃ t, step (s.withFetchWord nbits w) = exec i t ∧ t.phase = .run ∧ t.transportUp = true ∧ t.pc = [.loopTop]
      ∧ t.params = { s.params with ops := OpMap.table } ∧ t.rxCnt = 0
      ∧ t.rxQueue = (tableBytes nbits w).drop 5 ++ s.rxQueue
      ∧ t.regTrace = s.regTrace ∧ t.tx = s.tx

/-- 41 R182, where no frame becomes complete: every queued byte is taken into the assembler; a closed channel drops the
partial frame and ends the wait; an open one keeps it, and the wait ends or goes on as the environment chooses. Nothing is
sent and no transaction is made. -/
def Obligations.FrameWaitWithoutAFrame : Prop :=
  ∀ s : State, AtOp .frameWait s → s.rxCnt + s.rxQueue.length < 5 →
    ∃ t, step s = .next t ∧ t.rxQueue = [] ∧ t.visible = s.visible ++ s.rxQueue.map Event.recv
      ∧ t.rxBuf.toList.take (s.rxCnt + s.rxQueue.length) = s.rxBuf.toList.take s.rxCnt ++ s.rxQueue
      ∧ (if s.rxClosed then t.rxCnt = 0 ∧ t.pc = [.loopTop]
          else t.rxCnt = s.rxCnt + s.rxQueue.length ∧ t.pc = if s.waitEndsNow then [.loopTop] else [.frameWait])
      ∧ { t with
          pc := s.pc
          rxQueue := s.rxQueue
          rxBuf := s.rxBuf
          rxCnt := s.rxCnt
          waitEnds := s.waitEnds
          waitDraws := s.waitDraws
          trace := s.trace } = s

/-! ### Queries (41 R184, R185) -/

/-- 41 R184: GET_VERSION sends the four bytes of PROTOCOL_VERSION whatever `lba` holds; nothing else is visible, and nothing
but the registers of the dispatch is written. -/
def Obligations.GetVersionSendsTheVersion : Prop :=
  ∀ (lba : Word) (s : State), ∃ t, exec (.getVersion lba) s = .next t
    ∧ opcodeOf s.params.ops (.getVersion lba) = 0x00#8
    ∧ t.visible = s.visible ++ [.send (le32 s.params.protocolVersion)]
    ∧ t.tx = s.tx ++ le32 s.params.protocolVersion
    ∧ (le32 s.params.protocolVersion).length = 4
    ∧ t.regTrace = s.regTrace
    ∧ { t with trace := s.trace, curOp := s.curOp, curLba := s.curLba } = s

/-- 41 R185: GET_FLASH_CONFIG sends the cached value; on the first use of the cache it reads REG_CFG, once, and caches what
it reads whatever that is. -/
def Obligations.GetFlashConfigReadsOnceAndSends : Prop :=
  ∀ (lba : Word) (s : State),
    opcodeOf s.params.ops (.getFlashConfig lba) = s.params.ops.getFlashConfig
    ∧ (s.cfgValid = true → ∃ t, exec (.getFlashConfig lba) s = .next t
      ∧ t.visible = s.visible ++ [.send (le32 s.cfgValue)]
      ∧ { t with trace := s.trace, curOp := s.curOp, curLba := s.curLba } = s)
    ∧ (s.cfgValid = false → ∃ t, exec (.getFlashConfig lba) s = .next t
      ∧ t.visible = s.visible ++ [.regRead 0x00#8 (s.answer 0), .send (le32 (s.answer 0))]
      ∧ t.cfgValid = true ∧ t.cfgValue = s.answer 0 ∧ (∀ k, t.answer k = s.answer (k + 1))
      ∧ { t with
          trace := s.trace
          regAnswers := s.regAnswers
          regDraws := s.regDraws
          cfgValid := s.cfgValid
          cfgValue := s.cfgValue
          curOp := s.curOp
          curLba := s.curLba } = s)

/-- Once filled, the configuration cache keeps its value through every step of a legal state but a reset: no command, no
erase and no stream tick refreshes it (10 R37, 20 R89). -/
def Obligations.TheConfigurationCacheIsNeverRefreshed : Prop :=
  ∀ s t : State, Inv s → s.cfgValid = true → s.script.head? ≠ some (.host .reset) → step s = .next t →
    t.cfgValid = true ∧ t.cfgValue = s.cfgValue

/-! ### READ_FLASH (40 R135, 41 R186) -/

/-- A READ_FLASH whose wait is Ready on poll `p + 1`: the transactions of `read_block` in order, 269 and the polls, 132 of
them reads of REG_DATA, and then one send of the success word and the 528 bytes read. REG_ADDR is left at 0 (40 R135,
41 R186, 20 R75, R81, R85). -/
def Obligations.ReadFlashSendsTheSector : Prop :=
  ∀ (lba : Word) (s : State) (p : Nat), ReadyAt (shift 1 s.answer) s.params.waitBudget.toNat p →
    ∃ t, exec (.readFlash lba) s = .next t
      ∧ t.visible = s.visible ++ readEvents s.answer lba p
          ++ [.send (le32 0#32 ++ sectorBytes (shift (1 + (p + 1)) s.answer))]
      ∧ t.rdBuf.toList = sectorBytes (shift (1 + (p + 1)) s.answer)
      ∧ t.tx.length = s.tx.length + 532
      ∧ t.regTrace.length = s.regTrace.length + (269 + (p + 1))
      ∧ (readEvents s.answer lba p).countP isDataRead = 132
      ∧ t.remote .addr = some 0#32

/-- A READ_FLASH whose wait is NotReady: the setup, the T + 1 polls and the status read of `fail()`, no read of REG_DATA, and
then one send of the error word alone. The read buffer is as it was and REG_ADDR keeps `lba << 9` (40 R134, R135, 41 R186,
60 R268). -/
def Obligations.ReadFlashReportsItsTimeout : Prop :=
  ∀ (lba : Word) (s : State), NeverReady (shift 1 s.answer) s.params.waitBudget.toNat →
    ∃ t, exec (.readFlash lba) s = .next t
      ∧ t.visible = s.visible ++ readSetupEvents s.answer lba
          ++ timeoutEvents s.params.errStatusSource (shift 1 s.answer) s.params.waitBudget.toNat
          ++ [.send (le32 (failureWord s.params.errStatusSource (shift 1 s.answer) s.params.waitBudget.toNat))]
      ∧ t.err = failureWord s.params.errStatusSource (shift 1 s.answer) s.params.waitBudget.toNat
      ∧ t.rdBuf = s.rdBuf
      ∧ t.tx.length = s.tx.length + 4
      ∧ t.regTrace.length
          = s.regTrace.length + (s.params.waitBudget.toNat + 5 + errorReads s.params.errStatusSource)
      ∧ t.remote .addr = some (byteAddress lba)

/-- What a READ_FLASH leaves alone, however it ends: all but the trace, the answers taken, the read buffer, the registers of
the wait, the error and the dispatch, and the record of REG_STATUS, REG_CMD and REG_ADDR. The stream session, the cache and
the receive stream are among what it leaves alone (41 R186). -/
def Obligations.ReadFlashFrame : Prop :=
  ∀ (lba : Word) (s t : State), exec (.readFlash lba) s = .next t →
    { t with
      trace := s.trace
      lastWrite := s.lastWrite
      regAnswers := s.regAnswers
      regDraws := s.regDraws
      t := s.t
      sLast := s.sLast
      tmp := s.tmp
      rdBuf := s.rdBuf
      err := s.err
      curOp := s.curOp
      curLba := s.curLba } = s
    ∧ ∀ x, x ≠ 0x04 → x ≠ 0x08 → x ≠ 0x0C → windowRead t.lastWrite x = windowRead s.lastWrite x

/-! ### WRITE_FLASH (40 R138, R139, 41 R187) -/

/-- A WRITE_FLASH whose 528 payload bytes are queued and whose waits are Ready (the erase's, if there is one, by
`WriteBegins`): the payload is taken, then come the transactions of `write_block` in order, 271 and the polls after what
comes before the fill, then the success word. The payload is in the write buffer, the count is 0 again and the cache is
filled (40 R139, 41 R187). -/
def Obligations.WriteFlashProgramsTheSector : Prop :=
  ∀ (lba : Word) (s : State) (payload rest : List Byte) (n p q r : Nat) (es : List Event),
    s.rxQueue = payload ++ rest → payload.length = 528 → WriteBegins s lba n es →
    ReadyAt (shift (n + 1) s.answer) s.params.waitBudget.toNat p →
    ReadyAt (shift (n + (1 + (p + 1))) s.answer) s.params.waitBudget.toNat q →
    ReadyAt (shift (n + (1 + (p + 1) + (q + 1))) s.answer) s.params.waitBudget.toNat r →
    ∃ t, exec (.writeFlash lba) s = .next t
      ∧ t.visible = s.visible ++ payload.map Event.recv ++ es
          ++ programEvents (shift n s.answer) t.wrBuf lba p q r ++ [.send (le32 0#32)]
      ∧ t.wrBuf.toList = payload ∧ t.wrCnt = 0 ∧ t.rxQueue = rest
      ∧ t.cfgValid = true ∧ t.cfgValue = configOf s
      ∧ t.regTrace.length = s.regTrace.length + es.length + (271 + (p + 1) + (q + 1) + (r + 1))

/-- A WRITE_FLASH at the first sector of an erase unit whose erase is NotReady: the configuration read if it is the first use,
the erase sequence, its polls and the status read, and then the error word. Nothing of the write follows (40 R138,
R139 step 5, 60 R267). -/
def Obligations.WriteFlashReportsAFailedErase : Prop :=
  ∀ (lba : Word) (s : State) (payload rest : List Byte),
    s.rxQueue = payload ++ rest → payload.length = 528 →
    lba.toNat % sectorsInBlock s.params (configOf s) = 0 →
    NeverReady (shift (configReads s + 2) s.answer) s.params.waitBudget.toNat →
    ∃ t, exec (.writeFlash lba) s = .next t
      ∧ t.visible = s.visible ++ payload.map Event.recv ++ configEvents s
          ++ eraseSetupEvents (shift (configReads s) s.answer) lba
          ++ timeoutEvents s.params.errStatusSource (shift (configReads s + 2) s.answer) s.params.waitBudget.toNat
          ++ [.send (le32 t.err)]
      ∧ t.err = failureWord s.params.errStatusSource (shift (configReads s + 2) s.answer) s.params.waitBudget.toNat
      ∧ t.wrCnt = 0 ∧ t.rxQueue = rest

/-- A WRITE_FLASH whose fill, address or commit wait is the first to be NotReady: every transaction up to the failed wait, its
polls, the status read, and then the error word; none of the transactions after it (40 R139 steps 11, 13 and 17, 60 R267,
R268). -/
def Obligations.WriteFlashReportsAFailedWait : Prop :=
  ∀ (lba : Word) (s : State) (payload rest : List Byte) (n : Nat) (es : List Event),
    s.rxQueue = payload ++ rest → payload.length = 528 → WriteBegins s lba n es →
    (NeverReady (shift (n + 1) s.answer) s.params.waitBudget.toNat →
      ∃ t, exec (.writeFlash lba) s = .next t
        ∧ t.visible = s.visible ++ payload.map Event.recv ++ es ++ fillEvents (shift n s.answer) t.wrBuf
            ++ timeoutEvents s.params.errStatusSource (shift (n + 1) s.answer) s.params.waitBudget.toNat
            ++ [.send (le32 t.err)]
        ∧ t.err = failureWord s.params.errStatusSource (shift (n + 1) s.answer) s.params.waitBudget.toNat
        ∧ t.wrBuf.toList = payload ∧ t.wrCnt = 0 ∧ t.rxQueue = rest)
    ∧ ∀ p, ReadyAt (shift (n + 1) s.answer) s.params.waitBudget.toNat p →
      (NeverReady (shift (n + (1 + (p + 1))) s.answer) s.params.waitBudget.toNat →
        ∃ t, exec (.writeFlash lba) s = .next t
          ∧ t.visible = s.visible ++ payload.map Event.recv ++ es ++ fillEvents (shift n s.answer) t.wrBuf
              ++ pollEvents (shift (n + 1) s.answer) (p + 1) ++ addrEvents lba
              ++ timeoutEvents s.params.errStatusSource (shift (n + (1 + (p + 1))) s.answer) s.params.waitBudget.toNat
              ++ [.send (le32 t.err)]
          ∧ t.err = failureWord s.params.errStatusSource (shift (n + (1 + (p + 1))) s.answer) s.params.waitBudget.toNat
          ∧ t.wrBuf.toList = payload ∧ t.wrCnt = 0 ∧ t.rxQueue = rest)
      ∧ ∀ q, ReadyAt (shift (n + (1 + (p + 1))) s.answer) s.params.waitBudget.toNat q →
        NeverReady (shift (n + (1 + (p + 1) + (q + 1))) s.answer) s.params.waitBudget.toNat →
        ∃ t, exec (.writeFlash lba) s = .next t
          ∧ t.visible = s.visible ++ payload.map Event.recv ++ es ++ fillEvents (shift n s.answer) t.wrBuf
              ++ pollEvents (shift (n + 1) s.answer) (p + 1) ++ addrEvents lba
              ++ pollEvents (shift (n + (1 + (p + 1))) s.answer) (q + 1) ++ commitEvents
              ++ timeoutEvents s.params.errStatusSource (shift (n + (1 + (p + 1) + (q + 1))) s.answer)
                s.params.waitBudget.toNat
              ++ [.send (le32 t.err)]
          ∧ t.err = failureWord s.params.errStatusSource (shift (n + (1 + (p + 1) + (q + 1))) s.answer)
              s.params.waitBudget.toNat
          ∧ t.wrBuf.toList = payload ∧ t.wrCnt = 0 ∧ t.rxQueue = rest

/-- What a WRITE_FLASH leaves alone, however it ends: the read buffer, the stream session, the frame assembler, the lines, the
phase and all else but the fields named; the pc too, but where it waits for its payload; and no register of the window but
the engine's five (41 R187). -/
def Obligations.WriteFlashFrame : Prop :=
  ∀ (lba : Word) (s t : State), exec (.writeFlash lba) s = .next t →
    { t with
      trace := s.trace
      lastWrite := s.lastWrite
      regAnswers := s.regAnswers
      regDraws := s.regDraws
      t := s.t
      sLast := s.sLast
      tmp := s.tmp
      err := s.err
      rxQueue := s.rxQueue
      wrBuf := s.wrBuf
      wrCnt := s.wrCnt
      cfgValid := s.cfgValid
      cfgValue := s.cfgValue
      curOp := s.curOp
      curLba := s.curLba
      pc := s.pc } = s
    ∧ (528 ≤ s.rxQueue.length ∨ s.rxClosed = true → t.pc = s.pc)
    ∧ ∀ x, x ≠ 0x00 → x ≠ 0x04 → x ≠ 0x08 → x ≠ 0x0C → x ≠ 0x10 →
        windowRead t.lastWrite x = windowRead s.lastWrite x

/-- A WRITE_FLASH whose payload is cut short by the closing of the channel: the bytes there are are taken, nothing is sent, no
transaction is made and the count is 0 again (41 R187 steps 4 to 6, 20 R81; 95 L1-6). -/
def Obligations.TruncatedPayloadIsAbandoned : Prop :=
  ∀ (lba : Word) (s : State), s.rxClosed = true → s.rxQueue.length < 528 →
    ∃ t, exec (.writeFlash lba) s = .next t
      ∧ t.visible = s.visible ++ s.rxQueue.map Event.recv
      ∧ t.tx = s.tx ∧ t.regTrace = s.regTrace
      ∧ t.wrCnt = 0 ∧ t.rxQueue = []
      ∧ { t with
          trace := s.trace
          rxQueue := s.rxQueue
          wrBuf := s.wrBuf
          wrCnt := s.wrCnt
          curOp := s.curOp
          curLba := s.curLba } = s

/-- A WRITE_FLASH whose payload is incomplete while the channel is open takes the bytes there are, makes no transaction and
waits in the payload receive; with no byte and the channel open it stays there for ever, a pending shutdown and an active
stream notwithstanding (70 R302, 41 R187). -/
def Obligations.IncompletePayloadStalls : Prop :=
  (∀ (lba : Word) (s : State), s.rxClosed = false → s.rxQueue.length < 528 →
    ∃ t, exec (.writeFlash lba) s = .next t ∧ t.pc = [.recvPayload]
      ∧ t.visible = s.visible ++ s.rxQueue.map Event.recv
      ∧ t.tx = s.tx ∧ t.regTrace = s.regTrace
      ∧ t.wrCnt = s.rxQueue.length ∧ t.rxQueue = []
      ∧ t.wrBuf.toList.take s.rxQueue.length = s.rxQueue)
  ∧ ∀ (s : State) (n : Nat), s.params.ops.wf = true → s.stMedium = .nand → s.script = [] → s.pc = [.recvPayload] →
      s.wrCnt < 528 → s.rxClosed = false → s.rxQueue = [] → Host.Core.run Sys2Proof.core n s = .next s

/-- A payload that arrives in parts: where the first part left a WRITE_FLASH waiting, the step after the second part arrives
does what the command does with both parts queued at once (41 R187 steps 2 to 7). -/
def Obligations.PayloadInPartsIsPayloadAtOnce : Prop :=
  ∀ (lba : Word) (s t : State) (more : List Byte),
    s.params.ops.wf = true → s.stMedium = .nand → s.script = [] → s.pc = [.loopTop] → s.rxClosed = false →
    s.rxQueue.length < 528 → exec (.writeFlash lba) s = .next t →
    step (hostSend more t) = exec (.writeFlash lba) (hostSend more s)

/-- 40 R137: with its payload complete, a WRITE_FLASH issues an erase if and only if its sector is the first of an erase unit,
whatever the answers; sector 0 always is, and sector 0xFFFFFFFF never. -/
def Obligations.EraseExactlyOnTheBoundary : Prop :=
  ∀ (lba : Word) (s : State), 528 ≤ s.rxQueue.length →
    (∃ t, exec (.writeFlash lba) s = .next t
      ∧ (.regWrite 0x08#8 0x05#32 ∈ t.regTrace.drop s.regTrace.length
          ↔ lba.toNat % sectorsInBlock s.params (configOf s) = 0))
    ∧ (0x00000000#32).toNat % sectorsInBlock s.params (configOf s) = 0
    ∧ (0xFFFFFFFF#32).toNat % sectorsInBlock s.params (configOf s) ≠ 0

/-- 95 L1-1 under its premise M (20 R72, R75): where the REG_DATA answers of a later read are, in order, the words a
WRITE_FLASH wrote to REG_DATA, the READ_FLASH sends the payload of that write. -/
def Obligations.WrittenSectorReadsBack : Prop :=
  ∀ (lba lba' : Word) (s t u : State) (payload rest : List Byte) (p : Nat),
    s.rxQueue = payload ++ rest → payload.length = 528 → exec (.writeFlash lba) s = .next t →
    ReadyAt (shift 1 u.answer) u.params.waitBudget.toNat p →
    (∀ k < 132, (wordsWritten (t.regTrace.drop s.regTrace.length))[k]? = some (u.answer (1 + (p + 1) + k))) →
    ∃ v, exec (.readFlash lba') u = .next v ∧ v.tx = u.tx ++ le32 0#32 ++ payload

/-! ### Streaming (41 R188, 42_stream.md) -/

/-- 41 R188: READ_FLASH_STREAM arms a session of `lba` sectors from sector 0 on the NAND, whatever session there was; nothing
is visible and nothing else but the registers of the dispatch is written. A session of no sectors ends at its first tick with no
output. -/
def Obligations.ReadFlashStreamArmsTheSession : Prop :=
  ∀ (lba : Word) (s : State), ∃ t, exec (.readFlashStream lba) s = .next t
    ∧ opcodeOf s.params.ops (.readFlashStream lba) = s.params.ops.readFlashStream
    ∧ t.stActive = true ∧ t.stCur = 0#32 ∧ t.stEnd = lba ∧ t.stMedium = .nand
    ∧ t.visible = s.visible ∧ t.tx = s.tx ∧ t.regTrace = s.regTrace
    ∧ (lba = 0#32 → streamTick t = { t with stActive := false })
    ∧ { t with
        stActive := s.stActive
        stCur := s.stCur
        stEnd := s.stEnd
        stMedium := s.stMedium
        curOp := s.curOp
        curLba := s.curLba } = s

/-- 42 R220: one stream tick. Inactive, it does nothing; at the end it clears the session with no output; else it reads sector
`st_cur`, and sends the sector and advances by one, or sends the error word and clears the session. -/
def Obligations.StreamTickReadsOneSector : Prop :=
  ∀ s : State, AtOp .tick s →
    (s.stActive = false → step s = .next { s with pc := [.frameWait] })
    ∧ (s.stActive = true → s.stEnd.toNat ≤ s.stCur.toNat →
        step s = .next { s with pc := [.frameWait], stActive := false })
    ∧ (s.stActive = true → s.stCur.toNat < s.stEnd.toNat →
        (∀ p, ReadyAt (shift 1 s.answer) s.params.waitBudget.toNat p → ∃ t, step s = .next t
          ∧ t.visible = s.visible ++ readEvents s.answer s.stCur p
              ++ [.send (le32 0#32 ++ sectorBytes (shift (1 + (p + 1)) s.answer))]
          ∧ t.stCur = s.stCur + 1#32 ∧ t.stActive = true ∧ t.pc = [.frameWait]
          ∧ { t with
              pc := s.pc
              stCur := s.stCur
              trace := s.trace
              lastWrite := s.lastWrite
              regAnswers := s.regAnswers
              regDraws := s.regDraws
              t := s.t
              sLast := s.sLast
              tmp := s.tmp
              rdBuf := s.rdBuf
              err := s.err } = s)
        ∧ (NeverReady (shift 1 s.answer) s.params.waitBudget.toNat → ∃ t, step s = .next t
          ∧ t.visible = s.visible ++ readSetupEvents s.answer s.stCur
              ++ timeoutEvents s.params.errStatusSource (shift 1 s.answer) s.params.waitBudget.toNat
              ++ [.send (le32 (failureWord s.params.errStatusSource (shift 1 s.answer) s.params.waitBudget.toNat))]
          ∧ t.stActive = false ∧ t.stCur = s.stCur ∧ t.pc = [.frameWait]
          ∧ { t with
              pc := s.pc
              stActive := s.stActive
              trace := s.trace
              lastWrite := s.lastWrite
              regAnswers := s.regAnswers
              regDraws := s.regDraws
              t := s.t
              sLast := s.sLast
              tmp := s.tmp
              rdBuf := s.rdBuf
              err := s.err } = s))

/-- 95 L1-5, 42 R221, R222(a): a session of N sectors all of which read successfully sends, in N ticks, N units of 532 bytes,
the i-th of them the success word and sector i as read; the next tick sends nothing and ends the session; later ticks do
nothing. -/
def Obligations.StreamSendsItsCount : Prop :=
  ∀ (s : State), s.stActive = true → s.stCur = 0#32 → (∀ i < s.stEnd.toNat, ReadSucceeds (ticks i s)) →
    (∀ i < s.stEnd.toNat, (ticks (i + 1) s).tx = (ticks i s).tx ++ le32 0#32 ++ (ticks (i + 1) s).rdBuf.toList
        ∧ .regWrite 0x0C#8 (byteAddress (BitVec.ofNat 32 i)) ∈ (ticks (i + 1) s).regTrace.drop (ticks i s).regTrace.length)
    ∧ (ticks s.stEnd.toNat s).tx.length = s.tx.length + 532 * s.stEnd.toNat
    ∧ (ticks (s.stEnd.toNat + 1) s).visible = (ticks s.stEnd.toNat s).visible
    ∧ (ticks (s.stEnd.toNat + 1) s).stActive = false
    ∧ ∀ m, ticks (s.stEnd.toNat + 1 + m) s = ticks (s.stEnd.toNat + 1) s

/-- 95 L1-5, 42 R222(b), R223: a session whose read fails at sector `k` sends `k` units of 532 bytes and one error word of 4,
is then over with `st_cur` at `k`, and later ticks do nothing: no retry and no further sector. -/
def Obligations.StreamStopsAtTheFirstError : Prop :=
  ∀ (s : State) (k : Nat), s.stActive = true → s.stCur = 0#32 → k < s.stEnd.toNat →
    (∀ i < k, ReadSucceeds (ticks i s)) → ReadFails (ticks k s) →
    (ticks (k + 1) s).tx.length = s.tx.length + 532 * k + 4
    ∧ (ticks (k + 1) s).tx = (ticks k s).tx ++ le32 (ticks (k + 1) s).err
    ∧ (ticks (k + 1) s).stActive = false ∧ (ticks (k + 1) s).stCur = BitVec.ofNat 32 k
    ∧ ∀ m, ticks (k + 1 + m) s = ticks (k + 1) s

/-- 42 R221: a stream that has not passed its end does not pass it, by a tick or by any command; so `st_cur` never wraps. -/
def Obligations.StreamNeverPassesItsEnd : Prop :=
  ∀ s : State, StreamInBounds s →
    StreamInBounds (streamTick s) ∧ (streamTick s).stCur.toNat ≤ s.stCur.toNat + 1 ∧ s.stCur.toNat ≤ (streamTick s).stCur.toNat
    ∧ ∀ i t, exec i s = .next t → StreamInBounds t

/-! ### Ignored commands (41 R189 to R191) -/

/-- REBOOT_TO_BOOTLOADER, a reserved op and an unrecognised op: nothing is visible (no byte sent or taken, no transaction, no
line changed) and nothing is written but the log and the registers of the dispatch (30 R105 to R107, 41 R189 to R191,
92 D29, D31). -/
def Obligations.IgnoredCommandsChangeNothing : Prop :=
  ∀ (i : Instr) (s : State), ignored i = true → ∃ t, exec i s = .next t
    ∧ t.visible = s.visible ∧ t.tx = s.tx ∧ t.regTrace = s.regTrace
    ∧ { t with trace := s.trace, curOp := s.curOp, curLba := s.curLba } = s

/-! ### The NAND engine's parts (40_nand_engine.md) -/

/-- 40 R133: `wait_ready` with budget T. Where the first status with bit 0 clear is that of the k-th poll and k ≤ T + 1, Ready
after exactly k polls; else NotReady after exactly T + 1. No other transaction falls between them, and only `t`, `s_last`
and the trace are written. -/
def Obligations.WaitReadyCountsItsPolls : Prop :=
  ∀ s : State,
    (∀ k, 1 ≤ k → k ≤ s.params.waitBudget.toNat + 1 → (∀ j < k - 1, (s.answer j).getLsbD 0 = true) →
      (s.answer (k - 1)).getLsbD 0 = false →
      ∃ u, waitReady s = (true, u) ∧ u.visible = s.visible ++ pollEvents s.answer k
        ∧ u.t.toNat = s.params.waitBudget.toNat - (k - 1) ∧ u.sLast = (s.answer (k - 1)).setWidth 16
        ∧ { u with
            trace := s.trace
            regAnswers := s.regAnswers
            regDraws := s.regDraws
            t := s.t
            sLast := s.sLast } = s)
    ∧ ((∀ j ≤ s.params.waitBudget.toNat, (s.answer j).getLsbD 0 = true) →
      ∃ u, waitReady s = (false, u) ∧ u.visible = s.visible ++ pollEvents s.answer (s.params.waitBudget.toNat + 1)
        ∧ u.t = 0#16 ∧ u.sLast = (s.answer s.params.waitBudget.toNat).setWidth 16
        ∧ { u with
            trace := s.trace
            regAnswers := s.regAnswers
            regDraws := s.regDraws
            t := s.t
            sLast := s.sLast } = s)

/-- 30 R110 (60 R262): the error word of a 16-bit status has bits 31:16 clear, bit 15 set and the status's bits 14:0; its bytes
are as listed; it is never the success word; and two statuses give one word exactly where they agree below bit 15. -/
def Obligations.ErrorWordOnTheWire : Prop :=
  (∀ s : Half, (errorWord s).toNat = 0x8000 + s.toNat % 0x8000
    ∧ le32 (errorWord s) = [s.extractLsb' 0 8, 0x80#8 ||| s.extractLsb' 8 8, 0x00#8, 0x00#8]
    ∧ errorWord s ≠ 0#32
    ∧ ∀ s' : Half, errorWord s = errorWord s' ↔ s.toNat % 0x8000 = s'.toNat % 0x8000)
  ∧ le32 0#32 = [0x00#8, 0x00#8, 0x00#8, 0x00#8]

/-- 10 R38, 40 R136, 70 R303: the sectors of an erase unit are 32, 256 or 512, as the table gives for the fields [18:17] and
[5:4] of the configuration; no other bit of it counts, the erase-enable bit among them. -/
def Obligations.GeometryComesFromTwoFields : Prop :=
  ∀ (p : Params) (c : Word),
    (∀ i : Fin 16, i.val = 4 * (c.toNat / 2 ^ 17 % 4) + c.toNat / 2 ^ 4 % 4 →
      (p.blockSizes[i] = .b4000 → sectorsInBlock p c = 32)
      ∧ (p.blockSizes[i] = .b20000 → sectorsInBlock p c = 256)
      ∧ (p.blockSizes[i] = .b40000 → sectorsInBlock p c = 512))
    ∧ (∀ c' : Word, c'.toNat / 2 ^ 17 % 4 = c.toNat / 2 ^ 17 % 4 → c'.toNat / 2 ^ 4 % 4 = c.toNat / 2 ^ 4 % 4 →
        sectorsInBlock p c' = sectorsInBlock p c)
    ∧ sectorsInBlock p (c ||| 0x08#32) = sectorsInBlock p c

/-- 20 R71: the address programmed for a sector, by a read, an erase and a write, is `(lba * 512) mod 2^32`; sectors that differ
by a multiple of 2^23, and only they, share one; and any sector is accepted. -/
def Obligations.SectorAddressIsShiftedAndTruncated : Prop :=
  ∀ lba : Word,
    (byteAddress lba).toNat = lba.toNat * 512 % 2 ^ 32
    ∧ (∀ lba' : Word, byteAddress lba = byteAddress lba' ↔ lba.toNat % 2 ^ 23 = lba'.toNat % 2 ^ 23)
    ∧ .write .addr (byteAddress lba) ∈ readSetup lba
    ∧ .write .addr (byteAddress lba) ∈ eraseSetup lba
    ∧ .write .addr (byteAddress lba) ∈ writeAddr lba
    ∧ ∀ s : State, ∃ t, exec (.readFlash lba) s = .next t
        ∧ .regWrite 0x0C#8 (byteAddress lba) ∈ t.regTrace.drop s.regTrace.length

/-- 10 R47 to R51: every event any command adds is, if a transaction, one the engine may make: one of the five addresses,
REG_CMD and REG_ADDR never read, REG_CMD written with the seven strobes only, REG_ADDR with multiples of 512 only, REG_CFG
with bit 3 set only. -/
def Obligations.CommandsMakeOnlyListedTransactions : Prop :=
  ∀ (i : Instr) (s t : State), exec i s = .next t →
    ∃ es, t.history = s.history ++ es ∧ ∀ e ∈ es, eventOk e = true

/-- 70 R301: the bounds on the transactions of one READ_FLASH, one stream tick and one WRITE_FLASH; for the budget of the
hardware, 0x1000, they are 4366, 4366 and 16669. -/
def Obligations.TransactionsAreBounded : Prop :=
  ∀ s : State,
    (∀ lba t, exec (.readFlash lba) s = .next t →
      t.regTrace.length ≤ s.regTrace.length + (269 + (s.params.waitBudget.toNat + 1)))
    ∧ (streamTick s).regTrace.length ≤ s.regTrace.length + (269 + (s.params.waitBudget.toNat + 1))
    ∧ (∀ lba t, exec (.writeFlash lba) s = .next t → t.regTrace.length ≤ s.regTrace.length
        + (1 + 8 + (s.params.waitBudget.toNat + 1) + 271 + 3 * (s.params.waitBudget.toNat + 1) + 1))
    ∧ (s.params.waitBudget = 0x1000#16 → 269 + (s.params.waitBudget.toNat + 1) = 4366
        ∧ 1 + 8 + (s.params.waitBudget.toNat + 1) + 271 + 3 * (s.params.waitBudget.toNat + 1) + 1 = 16669)

/-! ### Every command -/

/-- A command other than READ_FLASH_STREAM leaves the stream session as it was (41 R186, R190, 42 R227, 60 R269). -/
def Obligations.CommandsLeaveTheStreamSession : Prop :=
  ∀ (i : Instr) (s t : State), exec i s = .next t → (∀ lba, i ≠ .readFlashStream lba) →
    t.stActive = s.stActive ∧ t.stCur = s.stCur ∧ t.stEnd = s.stEnd ∧ t.stMedium = s.stMedium

/-- No command selects a phase, writes the exit code or the shutdown flag, moves a line, takes the transport up or down, closes
the channel or touches the frame assembler; each records its op and operand (10 R45, 60 R270, 41 R183). -/
def Obligations.CommandsLeaveTheMachineAround : Prop :=
  ∀ (i : Instr) (s t : State), exec i s = .next t →
    t.params = s.params ∧ t.phase = s.phase ∧ t.exitCode = s.exitCode ∧ t.shutdownPending = s.shutdownPending
    ∧ t.transportUp = s.transportUp ∧ t.pinDbg = s.pinDbg ∧ t.pinRst = s.pinRst ∧ t.pinCs = s.pinCs
    ∧ t.lineTrace = s.lineTrace ∧ t.rxClosed = s.rxClosed ∧ t.rxBuf = s.rxBuf ∧ t.rxCnt = s.rxCnt
    ∧ t.txCarry = s.txCarry ∧ t.txTaken = s.txTaken ∧ t.txRooms = s.txRooms ∧ t.txSends = s.txSends
    ∧ t.script = s.script ∧ t.initAnswers = s.initAnswers ∧ t.initDraws = s.initDraws
    ∧ t.waitEnds = s.waitEnds ∧ t.waitDraws = s.waitDraws
    ∧ t.curOp = opcodeOf s.params.ops i ∧ t.curLba = operandOf i

/-- 20 R88: a command takes from the queue the payload of a WRITE_FLASH, in order and into the write buffer, and no other byte;
what follows is left for the next frame. -/
def Obligations.CommandsTakeOnlyTheirPayload : Prop :=
  ∀ (i : Instr) (s t : State), exec i s = .next t →
    ((∀ lba, i ≠ .writeFlash lba) → t.rxQueue = s.rxQueue ∧ t.wrBuf = s.wrBuf ∧ t.wrCnt = s.wrCnt)
    ∧ (∀ lba, i = .writeFlash lba →
        t.rxQueue = s.rxQueue.drop 528
        ∧ t.wrBuf.toList = s.rxQueue.take 528 ++ s.wrBuf.toList.drop (s.rxQueue.take 528).length)
    ∧ t.history.filter isRecv
        = s.history.filter isRecv ++ (s.rxQueue.take (s.rxQueue.length - t.rxQueue.length)).map Event.recv

/-! ### Power sequences, start-up and shutdown (43_power.md, 70_reset_and_hazards.md) -/

/-- 70 R291: phase INIT. HardwareInit fails: exit code 1 and HALTED, no line driven. SerialOpen fails: exit code 1 and START.
Neither fails: STOP. Nothing is visible, so no frame is read and no transaction is made. -/
def Obligations.StartUpChecks : Prop :=
  ∀ s : State, AtOp .init s → ∃ t, step s = .next t
    ∧ t.visible = s.visible
    ∧ (s.initAnswer = false → t.phase = .halted ∧ t.exitCode = .one ∧ t.pc = [])
    ∧ (s.initAnswer = true → (dropInit s).initAnswer = false → t.phase = .start ∧ t.exitCode = .one ∧ t.pc = [.start])
    ∧ (s.initAnswer = true → (dropInit s).initAnswer = true →
        t.phase = .stop ∧ t.exitCode = s.exitCode ∧ t.pc = [.stop])
    ∧ { t with
        phase := s.phase
        exitCode := s.exitCode
        pc := s.pc
        trace := s.trace
        initAnswers := s.initAnswers
        initDraws := s.initDraws } = s

/-- 43 R240, R243, 70 R292: phase STOP. The line steps in their order, each followed by its settle, then TransportUp; all lines
end Released. If it succeeds, RUN at the loop top; if not, exit code 1 and START. No transaction is made and nothing is
sent. -/
def Obligations.StopControllerSequence : Prop :=
  ∀ s : State, AtOp .stop s → ∃ t ok, step s = .next t
    ∧ t.visible = s.visible ++
        [.pins [(.dbg, .low)], .settle s.params.settleMinMs,
          .pins [(.cs, .low), (.rst, .low)], .settle s.params.settleMinMs,
          .pins [(.dbg, .released), (.rst, .released)], .settle s.params.settleMinMs,
          .pins [(.cs, .released)], .settle s.params.settleMinMs, .transportUp ok]
    ∧ ok = s.initAnswer
    ∧ t.pinDbg = .released ∧ t.pinRst = .released ∧ t.pinCs = .released
    ∧ (ok = true → t.transportUp = true ∧ t.phase = .run ∧ t.pc = [.loopTop] ∧ t.exitCode = s.exitCode)
    ∧ (ok = false → t.transportUp = s.transportUp ∧ t.phase = .start ∧ t.pc = [.start] ∧ t.exitCode = .one)
    ∧ { t with
        phase := s.phase
        pc := s.pc
        exitCode := s.exitCode
        transportUp := s.transportUp
        pinDbg := s.pinDbg
        pinRst := s.pinRst
        pinCs := s.pinCs
        trace := s.trace
        initAnswers := s.initAnswers
        initDraws := s.initDraws } = s

/-- 43 R241, R243, 70 R294: phase START. The transport goes down, the line steps follow in their order with their one settle,
and the engine is HALTED with its exit code as it was: DBG Low, RST Released, CS unchanged. -/
def Obligations.StartControllerSequence : Prop :=
  ∀ s : State, AtOp .start s → ∃ t, step s = .next t
    ∧ t.visible = s.visible ++
        [.transportDown, .pins [(.dbg, .low), (.rst, .low)], .settle s.params.settleMinMs, .pins [(.rst, .released)]]
    ∧ t.transportUp = false ∧ t.pinDbg = .low ∧ t.pinRst = .released ∧ t.pinCs = s.pinCs
    ∧ t.phase = .halted ∧ t.pc = [] ∧ t.exitCode = s.exitCode
    ∧ { t with
        phase := s.phase
        pc := s.pc
        transportUp := s.transportUp
        pinDbg := s.pinDbg
        pinRst := s.pinRst
        trace := s.trace } = s

/-- 41 R180, R181, 70 R294: at the loop top a pending shutdown is taken before any tick or frame, and two steps later than the
request is seen the engine is HALTED with exit code 0, having made no transaction, taken no byte and sent none. With none
pending the stream tick is next and nothing else changes. -/
def Obligations.ShutdownIsTakenAtTheLoopTop : Prop :=
  ∀ s : State, AtOp .loopTop s →
    (s.shutdownPending = true → ∃ t, Host.Core.run Sys2Proof.core 2 s = .next t ∧ t.phase = .halted ∧ t.exitCode = .zero
      ∧ t.transportUp = false ∧ t.pinDbg = .low ∧ t.pinRst = .released ∧ t.pinCs = s.pinCs
      ∧ t.tx = s.tx ∧ t.regTrace = s.regTrace ∧ t.rxQueue = s.rxQueue)
    ∧ (s.shutdownPending = false → step s = .next { s with pc := [.tick] })

/-- 10 R34, 41 R181: the shutdown flag is read at the loop top only. Anywhere else a step does the same whether the flag is
set or not, and leaves it as it is. -/
def Obligations.ShutdownIsReadOnlyAtTheLoopTop : Prop :=
  ∀ (s t : State) (b : Bool), s.script = [] → s.pc.head? ≠ some .loopTop → step s = .next t →
    t.shutdownPending = s.shutdownPending
    ∧ step { s with shutdownPending := b } = .next { t with shutdownPending := b }

/-- 70 R295: HALTED is terminal. Whatever the host does short of a reset, the engine stays there and nothing becomes visible;
the lines are DBG Low, RST and CS Released, or all Released after a hardware failure; the exit code is final. -/
def Obligations.HaltedIsTerminal : Prop :=
  ∀ s t : State, Inv s → s.phase = .halted → s.script.head? ≠ some (.host .reset) → step s = .next t →
    t.phase = .halted ∧ t.visible = s.visible ∧ t.exitCode = s.exitCode ∧ t.exitCode ≠ .none
    ∧ t.pinDbg = s.pinDbg ∧ t.pinRst = .released ∧ t.pinCs = .released
    ∧ (t.pinDbg = .low ∨ t.exitCode = .one)

/-- 43 R244, 10 R36: Low is driven low and Released is what RELEASE_MODE says, on every line, but the register transport drives
chip-select while it is up. -/
def Obligations.LinesAreDrivenAsTheirLevelSays : Prop :=
  ∀ (s : State) (l : Line), ¬(l = .cs ∧ s.transportUp = true) →
    (s.pin l = .low → s.lineDrive l = .low)
    ∧ (s.pin l = .released → s.params.releaseMode = .driveHigh → s.lineDrive l = .high)
    ∧ (s.pin l = .released → s.params.releaseMode = .highZ → s.lineDrive l = .highZ)
    ∧ ∀ u : State, u.transportUp = true → u.lineDrive .cs = .transport

/-! ### Reset and the host (70 R290, R308) -/

/-- 10 R57, 70 R290: the state right after reset has every value the spec states for it; and a reset in the middle of anything, a
wait for the host among it, gives those values again, the bytes in flight on the link in both directions, the parameters and what
the remote registers hold untouched. -/
def Obligations.ResetGivesTheStatedValues : Prop :=
  ResetValues State.reset
  ∧ ∀ (s : State) (rest : List Turn), s.params.ops.wf = true → s.stMedium = .nand → s.script = .host .reset :: rest →
      ∃ t, step s = .next t ∧ ResetValues t ∧ t.script = rest
        ∧ t.params = s.params ∧ t.rxQueue = s.rxQueue ∧ t.inFlight = s.inFlight ∧ t.lastWrite = s.lastWrite
        ∧ t.waitsForHost = false

/-- 70 R308: what each other move of the host changes: sent bytes are appended to the receive stream while the channel is open,
and do not arrive once it is closed (the model's choice, notes/assumptions/21.md); a close sets its flag, a shutdown request sets
its latch; the count of taken bytes goes up by as many as are taken, or to the end of the bytes sent (that a taking of more takes
all there are is the model's choice, notes/assumptions/17.md). Nothing else changes. -/
def Obligations.HostMovesChangeOnlyTheirOwn : Prop :=
  ∀ (s : State) (m : HostMove) (rest : List Turn), s.params.ops.wf = true → s.stMedium = .nand →
    s.script = .host m :: rest →
    (∀ bytes, m = .send bytes →
      (s.rxClosed = false → step s = .next { s with script := rest, rxQueue := s.rxQueue ++ bytes })
      ∧ (s.rxClosed = true → step s = .next { s with script := rest }))
    ∧ (m = .close → step s = .next { s with script := rest, rxClosed := true })
    ∧ (m = .shutdown → step s = .next { s with script := rest, shutdownPending := true })
    ∧ (∀ n, m = .take n → ∃ k, (s.txTaken + n ≤ s.sent.length → k = s.txTaken + n)
        ∧ (s.sent.length ≤ s.txTaken + n → k = s.sent.length)
        ∧ step s = .next { s with script := rest, txTaken := k })

/-- 60 R265, 70 R290, R308: no byte sent is lost. The bytes in flight on the link, sent and not yet taken, lose their oldest ones
by a taking and nothing otherwise: what an engine step sends joins them behind, a reset leaves them, any other move too. -/
def Obligations.NoSentByteIsLost : Prop :=
  ∀ s t : State, Inv s → step s = .next t →
    (∀ n, s.script.head? = some (.host (.take n)) → t.inFlight = s.inFlight.drop n ∧ t.tx = s.tx)
    ∧ (s.script.head? = some (.host .reset) → t.inFlight = s.inFlight)
    ∧ ((∀ n, s.script.head? ≠ some (.host (.take n))) → s.script.head? ≠ some (.host .reset) →
        ∃ bytes, t.tx = s.tx ++ bytes ∧ t.inFlight = s.inFlight ++ bytes)

/-- 60 R265, 70 R308 (92 D16): a send makes the engine wait exactly where it leaves more bytes in flight than the environment's
choice for it, `room`; held back, the engine does nothing, by steps or by events; and a taking of `n` bytes leaves it held back
exactly where still more than that are in flight, so a taking of all ends the wait. (That the wait is spent at the gates, and that
the choice is a number of bytes, is the model's: notes/assumptions/17.md.) -/
def Obligations.TheEngineWaitsForTheHost : Prop :=
  ∀ s : State, s.txTaken ≤ s.sent.length →
    (∀ bytes, (send bytes s).waitsForHost = true ↔ s.room s.sends < s.inFlight.length + bytes.length)
    ∧ (s.held = true →
        (s.params.ops.wf = true → s.stMedium = .nand → s.script = [] →
          ∀ n, Host.Core.run Sys2Proof.core n s = .next s ∧ events n s = s)
        ∧ (∀ n, (hostTake n s).held = true ↔ s.room (s.sends - 1) + n < s.inFlight.length)
        ∧ (hostTake s.inFlight.length s).held = false)

/-- 00 R10: a parameter set is accepted exactly where the six op codes are pairwise distinct and none of them is reserved; the
machine refuses any other before anything else. Every block size is one of the three. -/
def Obligations.BadParametersAreRefused : Prop :=
  (∀ m : OpMap, m.wf = true ↔
    ([0x00#8, m.getFlashConfig, m.readFlash, m.writeFlash, m.readFlashStream, m.rebootToBootloader].Nodup
      ∧ ∀ op ∈ [0x00#8, m.getFlashConfig, m.readFlash, m.writeFlash, m.readFlashStream, m.rebootToBootloader],
          op ∉ m.reservedEmmc ∧ op ∉ m.reservedDaughterboard))
  ∧ (∀ s : State, s.params.ops.wf = false → step s = .refused .badParams)
  ∧ ∀ (p : Params) (major minor : BitVec 2), blockBytes (blockSizeOf p major minor) ∈ [0x4000, 0x20000, 0x40000]

/-! ### The whole machine -/

/-- The state after reset is a legal one. -/
def Obligations.ResetIsLegal : Prop :=
  Inv State.reset

/-- Every step from a legal state leads to a legal state: the receive count stays at most 4 and the payload count at most 528
(10 R39, R41), the medium stays NAND (42 R225), the window stays in its canonical form, the phase and the pc agree (10 R31, R32),
the transport is up exactly where it may be (10 R35), the exit code is written when the engine stops (10 R33), the lines stand
as the power sequences leave them (10 R36, 70 R295), the host has taken no byte that was not sent (70 R308), and every transaction
made is one of those listed (10 R47 to R51). -/
def Obligations.EveryStepKeepsTheStateLegal : Prop :=
  ∀ s t : State, Inv s → step s = .next t → Inv t

/-- From a legal state every step answers a next state: no input makes the engine fault (93 I23), and neither refusal is
reached. -/
def Obligations.LegalStatesAlwaysStep : Prop :=
  ∀ s : State, Inv s → ∃ t, step s = .next t

/-- 10 R35, 40 R129, 70 R291, R305: in a legal state an event that is a transaction, a byte taken or a byte sent occurs only in
RUN and with the transport up. -/
def Obligations.TransactionsOnlyInRunWithTheTransportUp : Prop :=
  ∀ s : State, Inv s →
    (eventStep s).regTrace ≠ s.regTrace ∨ (eventStep s).tx ≠ s.tx ∨ (eventStep s).rxQueue ≠ s.rxQueue →
    s.phase = .run ∧ s.transportUp = true

/-- No step changes the parameters, and none but a reset takes back an event: the outputs only grow (20 R84, 10 R55). -/
def Obligations.OutputsOnlyGrow : Prop :=
  ∀ s t : State, step s = .next t →
    t.params = s.params
    ∧ (s.script.head? ≠ some (.host .reset) → ∃ es, t.history = s.history ++ es)

/-- A full step of the engine is so many single events of its sequencer (00 R15, 10 R32, 92 D1): the two levels of the model
are one machine. -/
def Obligations.AStepIsManyEvents : Prop :=
  ∀ s t : State, s.params.ops.wf = true → s.stMedium = .nand → s.script = [] → step s = .next t →
    ∃ n, t = events n s
end

