-- ==== Sys2Proof/Laws/State.lean ====
section
/-! SUPPORT. What each update of the state does to each field: one lemma per field per update, by `rfl`. -/

namespace Sys2Proof.Machine

open Sys2Proof

/-! ### emit -/

@[simp] theorem emit_params (e : Event) (s : State) : (emit e s).params = s.params := rfl
@[simp] theorem emit_phase (e : Event) (s : State) : (emit e s).phase = s.phase := rfl
@[simp] theorem emit_pc (e : Event) (s : State) : (emit e s).pc = s.pc := rfl
@[simp] theorem emit_exitCode (e : Event) (s : State) : (emit e s).exitCode = s.exitCode := rfl
@[simp] theorem emit_shutdownPending (e : Event) (s : State) : (emit e s).shutdownPending = s.shutdownPending := rfl
@[simp] theorem emit_transportUp (e : Event) (s : State) : (emit e s).transportUp = s.transportUp := rfl
@[simp] theorem emit_pinDbg (e : Event) (s : State) : (emit e s).pinDbg = s.pinDbg := rfl
@[simp] theorem emit_pinRst (e : Event) (s : State) : (emit e s).pinRst = s.pinRst := rfl
@[simp] theorem emit_pinCs (e : Event) (s : State) : (emit e s).pinCs = s.pinCs := rfl
@[simp] theorem emit_cfgValid (e : Event) (s : State) : (emit e s).cfgValid = s.cfgValid := rfl
@[simp] theorem emit_cfgValue (e : Event) (s : State) : (emit e s).cfgValue = s.cfgValue := rfl
@[simp] theorem emit_rxBuf (e : Event) (s : State) : (emit e s).rxBuf = s.rxBuf := rfl
@[simp] theorem emit_rxCnt (e : Event) (s : State) : (emit e s).rxCnt = s.rxCnt := rfl
@[simp] theorem emit_rxClosed (e : Event) (s : State) : (emit e s).rxClosed = s.rxClosed := rfl
@[simp] theorem emit_wrBuf (e : Event) (s : State) : (emit e s).wrBuf = s.wrBuf := rfl
@[simp] theorem emit_wrCnt (e : Event) (s : State) : (emit e s).wrCnt = s.wrCnt := rfl
@[simp] theorem emit_rdBuf (e : Event) (s : State) : (emit e s).rdBuf = s.rdBuf := rfl
@[simp] theorem emit_t (e : Event) (s : State) : (emit e s).t = s.t := rfl
@[simp] theorem emit_sLast (e : Event) (s : State) : (emit e s).sLast = s.sLast := rfl
@[simp] theorem emit_stActive (e : Event) (s : State) : (emit e s).stActive = s.stActive := rfl
@[simp] theorem emit_stCur (e : Event) (s : State) : (emit e s).stCur = s.stCur := rfl
@[simp] theorem emit_stEnd (e : Event) (s : State) : (emit e s).stEnd = s.stEnd := rfl
@[simp] theorem emit_stMedium (e : Event) (s : State) : (emit e s).stMedium = s.stMedium := rfl
@[simp] theorem emit_curOp (e : Event) (s : State) : (emit e s).curOp = s.curOp := rfl
@[simp] theorem emit_curLba (e : Event) (s : State) : (emit e s).curLba = s.curLba := rfl
@[simp] theorem emit_err (e : Event) (s : State) : (emit e s).err = s.err := rfl
@[simp] theorem emit_tmp (e : Event) (s : State) : (emit e s).tmp = s.tmp := rfl
@[simp] theorem emit_rxQueue (e : Event) (s : State) : (emit e s).rxQueue = s.rxQueue := rfl
@[simp] theorem emit_regAnswers (e : Event) (s : State) : (emit e s).regAnswers = s.regAnswers := rfl
@[simp] theorem emit_regDraws (e : Event) (s : State) : (emit e s).regDraws = s.regDraws := rfl
@[simp] theorem emit_initAnswers (e : Event) (s : State) : (emit e s).initAnswers = s.initAnswers := rfl
@[simp] theorem emit_initDraws (e : Event) (s : State) : (emit e s).initDraws = s.initDraws := rfl
@[simp] theorem emit_waitEnds (e : Event) (s : State) : (emit e s).waitEnds = s.waitEnds := rfl
@[simp] theorem emit_waitDraws (e : Event) (s : State) : (emit e s).waitDraws = s.waitDraws := rfl
@[simp] theorem emit_script (e : Event) (s : State) : (emit e s).script = s.script := rfl
@[simp] theorem emit_trace (e : Event) (s : State) : (emit e s).trace = e :: s.trace := rfl
@[simp] theorem emit_txTaken (e : Event) (s : State) : (emit e s).txTaken = s.txTaken := rfl
@[simp] theorem emit_txCarry (e : Event) (s : State) : (emit e s).txCarry = s.txCarry := rfl
@[simp] theorem emit_txRooms (e : Event) (s : State) : (emit e s).txRooms = s.txRooms := rfl
@[simp] theorem emit_txSends (e : Event) (s : State) : (emit e s).txSends = s.txSends := rfl
@[simp] theorem emit_lastWrite (e : Event) (s : State) : (emit e s).lastWrite = s.lastWrite := rfl

/-! ### goto -/

@[simp] theorem goto_params (k : List Op) (s : State) : (goto k s).params = s.params := rfl
@[simp] theorem goto_phase (k : List Op) (s : State) : (goto k s).phase = s.phase := rfl
@[simp] theorem goto_pc (k : List Op) (s : State) : (goto k s).pc = k := rfl
@[simp] theorem goto_exitCode (k : List Op) (s : State) : (goto k s).exitCode = s.exitCode := rfl
@[simp] theorem goto_shutdownPending (k : List Op) (s : State) : (goto k s).shutdownPending = s.shutdownPending := rfl
@[simp] theorem goto_transportUp (k : List Op) (s : State) : (goto k s).transportUp = s.transportUp := rfl
@[simp] theorem goto_pinDbg (k : List Op) (s : State) : (goto k s).pinDbg = s.pinDbg := rfl
@[simp] theorem goto_pinRst (k : List Op) (s : State) : (goto k s).pinRst = s.pinRst := rfl
@[simp] theorem goto_pinCs (k : List Op) (s : State) : (goto k s).pinCs = s.pinCs := rfl
@[simp] theorem goto_cfgValid (k : List Op) (s : State) : (goto k s).cfgValid = s.cfgValid := rfl
@[simp] theorem goto_cfgValue (k : List Op) (s : State) : (goto k s).cfgValue = s.cfgValue := rfl
@[simp] theorem goto_rxBuf (k : List Op) (s : State) : (goto k s).rxBuf = s.rxBuf := rfl
@[simp] theorem goto_rxCnt (k : List Op) (s : State) : (goto k s).rxCnt = s.rxCnt := rfl
@[simp] theorem goto_rxClosed (k : List Op) (s : State) : (goto k s).rxClosed = s.rxClosed := rfl
@[simp] theorem goto_wrBuf (k : List Op) (s : State) : (goto k s).wrBuf = s.wrBuf := rfl
@[simp] theorem goto_wrCnt (k : List Op) (s : State) : (goto k s).wrCnt = s.wrCnt := rfl
@[simp] theorem goto_rdBuf (k : List Op) (s : State) : (goto k s).rdBuf = s.rdBuf := rfl
@[simp] theorem goto_t (k : List Op) (s : State) : (goto k s).t = s.t := rfl
@[simp] theorem goto_sLast (k : List Op) (s : State) : (goto k s).sLast = s.sLast := rfl
@[simp] theorem goto_stActive (k : List Op) (s : State) : (goto k s).stActive = s.stActive := rfl
@[simp] theorem goto_stCur (k : List Op) (s : State) : (goto k s).stCur = s.stCur := rfl
@[simp] theorem goto_stEnd (k : List Op) (s : State) : (goto k s).stEnd = s.stEnd := rfl
@[simp] theorem goto_stMedium (k : List Op) (s : State) : (goto k s).stMedium = s.stMedium := rfl
@[simp] theorem goto_curOp (k : List Op) (s : State) : (goto k s).curOp = s.curOp := rfl
@[simp] theorem goto_curLba (k : List Op) (s : State) : (goto k s).curLba = s.curLba := rfl
@[simp] theorem goto_err (k : List Op) (s : State) : (goto k s).err = s.err := rfl
@[simp] theorem goto_tmp (k : List Op) (s : State) : (goto k s).tmp = s.tmp := rfl
@[simp] theorem goto_rxQueue (k : List Op) (s : State) : (goto k s).rxQueue = s.rxQueue := rfl
@[simp] theorem goto_regAnswers (k : List Op) (s : State) : (goto k s).regAnswers = s.regAnswers := rfl
@[simp] theorem goto_regDraws (k : List Op) (s : State) : (goto k s).regDraws = s.regDraws := rfl
@[simp] theorem goto_initAnswers (k : List Op) (s : State) : (goto k s).initAnswers = s.initAnswers := rfl
@[simp] theorem goto_initDraws (k : List Op) (s : State) : (goto k s).initDraws = s.initDraws := rfl
@[simp] theorem goto_waitEnds (k : List Op) (s : State) : (goto k s).waitEnds = s.waitEnds := rfl
@[simp] theorem goto_waitDraws (k : List Op) (s : State) : (goto k s).waitDraws = s.waitDraws := rfl
@[simp] theorem goto_script (k : List Op) (s : State) : (goto k s).script = s.script := rfl
@[simp] theorem goto_trace (k : List Op) (s : State) : (goto k s).trace = s.trace := rfl
@[simp] theorem goto_txTaken (k : List Op) (s : State) : (goto k s).txTaken = s.txTaken := rfl
@[simp] theorem goto_txCarry (k : List Op) (s : State) : (goto k s).txCarry = s.txCarry := rfl
@[simp] theorem goto_txRooms (k : List Op) (s : State) : (goto k s).txRooms = s.txRooms := rfl
@[simp] theorem goto_txSends (k : List Op) (s : State) : (goto k s).txSends = s.txSends := rfl
@[simp] theorem goto_lastWrite (k : List Op) (s : State) : (goto k s).lastWrite = s.lastWrite := rfl

/-! ### dropAnswer -/

@[simp] theorem dropAnswer_params (s : State) : (dropAnswer s).params = s.params := rfl
@[simp] theorem dropAnswer_phase (s : State) : (dropAnswer s).phase = s.phase := rfl
@[simp] theorem dropAnswer_pc (s : State) : (dropAnswer s).pc = s.pc := rfl
@[simp] theorem dropAnswer_exitCode (s : State) : (dropAnswer s).exitCode = s.exitCode := rfl
@[simp] theorem dropAnswer_shutdownPending (s : State) : (dropAnswer s).shutdownPending = s.shutdownPending := rfl
@[simp] theorem dropAnswer_transportUp (s : State) : (dropAnswer s).transportUp = s.transportUp := rfl
@[simp] theorem dropAnswer_pinDbg (s : State) : (dropAnswer s).pinDbg = s.pinDbg := rfl
@[simp] theorem dropAnswer_pinRst (s : State) : (dropAnswer s).pinRst = s.pinRst := rfl
@[simp] theorem dropAnswer_pinCs (s : State) : (dropAnswer s).pinCs = s.pinCs := rfl
@[simp] theorem dropAnswer_cfgValid (s : State) : (dropAnswer s).cfgValid = s.cfgValid := rfl
@[simp] theorem dropAnswer_cfgValue (s : State) : (dropAnswer s).cfgValue = s.cfgValue := rfl
@[simp] theorem dropAnswer_rxBuf (s : State) : (dropAnswer s).rxBuf = s.rxBuf := rfl
@[simp] theorem dropAnswer_rxCnt (s : State) : (dropAnswer s).rxCnt = s.rxCnt := rfl
@[simp] theorem dropAnswer_rxClosed (s : State) : (dropAnswer s).rxClosed = s.rxClosed := rfl
@[simp] theorem dropAnswer_wrBuf (s : State) : (dropAnswer s).wrBuf = s.wrBuf := rfl
@[simp] theorem dropAnswer_wrCnt (s : State) : (dropAnswer s).wrCnt = s.wrCnt := rfl
@[simp] theorem dropAnswer_rdBuf (s : State) : (dropAnswer s).rdBuf = s.rdBuf := rfl
@[simp] theorem dropAnswer_t (s : State) : (dropAnswer s).t = s.t := rfl
@[simp] theorem dropAnswer_sLast (s : State) : (dropAnswer s).sLast = s.sLast := rfl
@[simp] theorem dropAnswer_stActive (s : State) : (dropAnswer s).stActive = s.stActive := rfl
@[simp] theorem dropAnswer_stCur (s : State) : (dropAnswer s).stCur = s.stCur := rfl
@[simp] theorem dropAnswer_stEnd (s : State) : (dropAnswer s).stEnd = s.stEnd := rfl
@[simp] theorem dropAnswer_stMedium (s : State) : (dropAnswer s).stMedium = s.stMedium := rfl
@[simp] theorem dropAnswer_curOp (s : State) : (dropAnswer s).curOp = s.curOp := rfl
@[simp] theorem dropAnswer_curLba (s : State) : (dropAnswer s).curLba = s.curLba := rfl
@[simp] theorem dropAnswer_err (s : State) : (dropAnswer s).err = s.err := rfl
@[simp] theorem dropAnswer_tmp (s : State) : (dropAnswer s).tmp = s.tmp := rfl
@[simp] theorem dropAnswer_rxQueue (s : State) : (dropAnswer s).rxQueue = s.rxQueue := rfl
@[simp] theorem dropAnswer_initAnswers (s : State) : (dropAnswer s).initAnswers = s.initAnswers := rfl
@[simp] theorem dropAnswer_initDraws (s : State) : (dropAnswer s).initDraws = s.initDraws := rfl
@[simp] theorem dropAnswer_waitEnds (s : State) : (dropAnswer s).waitEnds = s.waitEnds := rfl
@[simp] theorem dropAnswer_waitDraws (s : State) : (dropAnswer s).waitDraws = s.waitDraws := rfl
@[simp] theorem dropAnswer_script (s : State) : (dropAnswer s).script = s.script := rfl
@[simp] theorem dropAnswer_trace (s : State) : (dropAnswer s).trace = s.trace := rfl
@[simp] theorem dropAnswer_txTaken (s : State) : (dropAnswer s).txTaken = s.txTaken := rfl
@[simp] theorem dropAnswer_txCarry (s : State) : (dropAnswer s).txCarry = s.txCarry := rfl
@[simp] theorem dropAnswer_txRooms (s : State) : (dropAnswer s).txRooms = s.txRooms := rfl
@[simp] theorem dropAnswer_txSends (s : State) : (dropAnswer s).txSends = s.txSends := rfl
@[simp] theorem dropAnswer_lastWrite (s : State) : (dropAnswer s).lastWrite = s.lastWrite := rfl

/-! ### dropInit -/

@[simp] theorem dropInit_params (s : State) : (dropInit s).params = s.params := rfl
@[simp] theorem dropInit_phase (s : State) : (dropInit s).phase = s.phase := rfl
@[simp] theorem dropInit_pc (s : State) : (dropInit s).pc = s.pc := rfl
@[simp] theorem dropInit_exitCode (s : State) : (dropInit s).exitCode = s.exitCode := rfl
@[simp] theorem dropInit_shutdownPending (s : State) : (dropInit s).shutdownPending = s.shutdownPending := rfl
@[simp] theorem dropInit_transportUp (s : State) : (dropInit s).transportUp = s.transportUp := rfl
@[simp] theorem dropInit_pinDbg (s : State) : (dropInit s).pinDbg = s.pinDbg := rfl
@[simp] theorem dropInit_pinRst (s : State) : (dropInit s).pinRst = s.pinRst := rfl
@[simp] theorem dropInit_pinCs (s : State) : (dropInit s).pinCs = s.pinCs := rfl
@[simp] theorem dropInit_cfgValid (s : State) : (dropInit s).cfgValid = s.cfgValid := rfl
@[simp] theorem dropInit_cfgValue (s : State) : (dropInit s).cfgValue = s.cfgValue := rfl
@[simp] theorem dropInit_rxBuf (s : State) : (dropInit s).rxBuf = s.rxBuf := rfl
@[simp] theorem dropInit_rxCnt (s : State) : (dropInit s).rxCnt = s.rxCnt := rfl
@[simp] theorem dropInit_rxClosed (s : State) : (dropInit s).rxClosed = s.rxClosed := rfl
@[simp] theorem dropInit_wrBuf (s : State) : (dropInit s).wrBuf = s.wrBuf := rfl
@[simp] theorem dropInit_wrCnt (s : State) : (dropInit s).wrCnt = s.wrCnt := rfl
@[simp] theorem dropInit_rdBuf (s : State) : (dropInit s).rdBuf = s.rdBuf := rfl
@[simp] theorem dropInit_t (s : State) : (dropInit s).t = s.t := rfl
@[simp] theorem dropInit_sLast (s : State) : (dropInit s).sLast = s.sLast := rfl
@[simp] theorem dropInit_stActive (s : State) : (dropInit s).stActive = s.stActive := rfl
@[simp] theorem dropInit_stCur (s : State) : (dropInit s).stCur = s.stCur := rfl
@[simp] theorem dropInit_stEnd (s : State) : (dropInit s).stEnd = s.stEnd := rfl
@[simp] theorem dropInit_stMedium (s : State) : (dropInit s).stMedium = s.stMedium := rfl
@[simp] theorem dropInit_curOp (s : State) : (dropInit s).curOp = s.curOp := rfl
@[simp] theorem dropInit_curLba (s : State) : (dropInit s).curLba = s.curLba := rfl
@[simp] theorem dropInit_err (s : State) : (dropInit s).err = s.err := rfl
@[simp] theorem dropInit_tmp (s : State) : (dropInit s).tmp = s.tmp := rfl
@[simp] theorem dropInit_rxQueue (s : State) : (dropInit s).rxQueue = s.rxQueue := rfl
@[simp] theorem dropInit_regAnswers (s : State) : (dropInit s).regAnswers = s.regAnswers := rfl
@[simp] theorem dropInit_regDraws (s : State) : (dropInit s).regDraws = s.regDraws := rfl
@[simp] theorem dropInit_waitEnds (s : State) : (dropInit s).waitEnds = s.waitEnds := rfl
@[simp] theorem dropInit_waitDraws (s : State) : (dropInit s).waitDraws = s.waitDraws := rfl
@[simp] theorem dropInit_script (s : State) : (dropInit s).script = s.script := rfl
@[simp] theorem dropInit_trace (s : State) : (dropInit s).trace = s.trace := rfl
@[simp] theorem dropInit_txTaken (s : State) : (dropInit s).txTaken = s.txTaken := rfl
@[simp] theorem dropInit_txCarry (s : State) : (dropInit s).txCarry = s.txCarry := rfl
@[simp] theorem dropInit_txRooms (s : State) : (dropInit s).txRooms = s.txRooms := rfl
@[simp] theorem dropInit_txSends (s : State) : (dropInit s).txSends = s.txSends := rfl
@[simp] theorem dropInit_lastWrite (s : State) : (dropInit s).lastWrite = s.lastWrite := rfl

/-! ### dropWait -/

@[simp] theorem dropWait_params (s : State) : (dropWait s).params = s.params := rfl
@[simp] theorem dropWait_phase (s : State) : (dropWait s).phase = s.phase := rfl
@[simp] theorem dropWait_pc (s : State) : (dropWait s).pc = s.pc := rfl
@[simp] theorem dropWait_exitCode (s : State) : (dropWait s).exitCode = s.exitCode := rfl
@[simp] theorem dropWait_shutdownPending (s : State) : (dropWait s).shutdownPending = s.shutdownPending := rfl
@[simp] theorem dropWait_transportUp (s : State) : (dropWait s).transportUp = s.transportUp := rfl
@[simp] theorem dropWait_pinDbg (s : State) : (dropWait s).pinDbg = s.pinDbg := rfl
@[simp] theorem dropWait_pinRst (s : State) : (dropWait s).pinRst = s.pinRst := rfl
@[simp] theorem dropWait_pinCs (s : State) : (dropWait s).pinCs = s.pinCs := rfl
@[simp] theorem dropWait_cfgValid (s : State) : (dropWait s).cfgValid = s.cfgValid := rfl
@[simp] theorem dropWait_cfgValue (s : State) : (dropWait s).cfgValue = s.cfgValue := rfl
@[simp] theorem dropWait_rxBuf (s : State) : (dropWait s).rxBuf = s.rxBuf := rfl
@[simp] theorem dropWait_rxCnt (s : State) : (dropWait s).rxCnt = s.rxCnt := rfl
@[simp] theorem dropWait_rxClosed (s : State) : (dropWait s).rxClosed = s.rxClosed := rfl
@[simp] theorem dropWait_wrBuf (s : State) : (dropWait s).wrBuf = s.wrBuf := rfl
@[simp] theorem dropWait_wrCnt (s : State) : (dropWait s).wrCnt = s.wrCnt := rfl
@[simp] theorem dropWait_rdBuf (s : State) : (dropWait s).rdBuf = s.rdBuf := rfl
@[simp] theorem dropWait_t (s : State) : (dropWait s).t = s.t := rfl
@[simp] theorem dropWait_sLast (s : State) : (dropWait s).sLast = s.sLast := rfl
@[simp] theorem dropWait_stActive (s : State) : (dropWait s).stActive = s.stActive := rfl
@[simp] theorem dropWait_stCur (s : State) : (dropWait s).stCur = s.stCur := rfl
@[simp] theorem dropWait_stEnd (s : State) : (dropWait s).stEnd = s.stEnd := rfl
@[simp] theorem dropWait_stMedium (s : State) : (dropWait s).stMedium = s.stMedium := rfl
@[simp] theorem dropWait_curOp (s : State) : (dropWait s).curOp = s.curOp := rfl
@[simp] theorem dropWait_curLba (s : State) : (dropWait s).curLba = s.curLba := rfl
@[simp] theorem dropWait_err (s : State) : (dropWait s).err = s.err := rfl
@[simp] theorem dropWait_tmp (s : State) : (dropWait s).tmp = s.tmp := rfl
@[simp] theorem dropWait_rxQueue (s : State) : (dropWait s).rxQueue = s.rxQueue := rfl
@[simp] theorem dropWait_regAnswers (s : State) : (dropWait s).regAnswers = s.regAnswers := rfl
@[simp] theorem dropWait_regDraws (s : State) : (dropWait s).regDraws = s.regDraws := rfl
@[simp] theorem dropWait_initAnswers (s : State) : (dropWait s).initAnswers = s.initAnswers := rfl
@[simp] theorem dropWait_initDraws (s : State) : (dropWait s).initDraws = s.initDraws := rfl
@[simp] theorem dropWait_script (s : State) : (dropWait s).script = s.script := rfl
@[simp] theorem dropWait_trace (s : State) : (dropWait s).trace = s.trace := rfl
@[simp] theorem dropWait_txTaken (s : State) : (dropWait s).txTaken = s.txTaken := rfl
@[simp] theorem dropWait_txCarry (s : State) : (dropWait s).txCarry = s.txCarry := rfl
@[simp] theorem dropWait_txRooms (s : State) : (dropWait s).txRooms = s.txRooms := rfl
@[simp] theorem dropWait_txSends (s : State) : (dropWait s).txSends = s.txSends := rfl
@[simp] theorem dropWait_lastWrite (s : State) : (dropWait s).lastWrite = s.lastWrite := rfl

/-! ### afterRead -/

@[simp] theorem afterRead_params (r : Reg) (s : State) : (afterRead r s).params = s.params := rfl
@[simp] theorem afterRead_phase (r : Reg) (s : State) : (afterRead r s).phase = s.phase := rfl
@[simp] theorem afterRead_pc (r : Reg) (s : State) : (afterRead r s).pc = s.pc := rfl
@[simp] theorem afterRead_exitCode (r : Reg) (s : State) : (afterRead r s).exitCode = s.exitCode := rfl
@[simp] theorem afterRead_shutdownPending (r : Reg) (s : State) : (afterRead r s).shutdownPending = s.shutdownPending := rfl
@[simp] theorem afterRead_transportUp (r : Reg) (s : State) : (afterRead r s).transportUp = s.transportUp := rfl
@[simp] theorem afterRead_pinDbg (r : Reg) (s : State) : (afterRead r s).pinDbg = s.pinDbg := rfl
@[simp] theorem afterRead_pinRst (r : Reg) (s : State) : (afterRead r s).pinRst = s.pinRst := rfl
@[simp] theorem afterRead_pinCs (r : Reg) (s : State) : (afterRead r s).pinCs = s.pinCs := rfl
@[simp] theorem afterRead_cfgValid (r : Reg) (s : State) : (afterRead r s).cfgValid = s.cfgValid := rfl
@[simp] theorem afterRead_cfgValue (r : Reg) (s : State) : (afterRead r s).cfgValue = s.cfgValue := rfl
@[simp] theorem afterRead_rxBuf (r : Reg) (s : State) : (afterRead r s).rxBuf = s.rxBuf := rfl
@[simp] theorem afterRead_rxCnt (r : Reg) (s : State) : (afterRead r s).rxCnt = s.rxCnt := rfl
@[simp] theorem afterRead_rxClosed (r : Reg) (s : State) : (afterRead r s).rxClosed = s.rxClosed := rfl
@[simp] theorem afterRead_wrBuf (r : Reg) (s : State) : (afterRead r s).wrBuf = s.wrBuf := rfl
@[simp] theorem afterRead_wrCnt (r : Reg) (s : State) : (afterRead r s).wrCnt = s.wrCnt := rfl
@[simp] theorem afterRead_rdBuf (r : Reg) (s : State) : (afterRead r s).rdBuf = s.rdBuf := rfl
@[simp] theorem afterRead_t (r : Reg) (s : State) : (afterRead r s).t = s.t := rfl
@[simp] theorem afterRead_sLast (r : Reg) (s : State) : (afterRead r s).sLast = s.sLast := rfl
@[simp] theorem afterRead_stActive (r : Reg) (s : State) : (afterRead r s).stActive = s.stActive := rfl
@[simp] theorem afterRead_stCur (r : Reg) (s : State) : (afterRead r s).stCur = s.stCur := rfl
@[simp] theorem afterRead_stEnd (r : Reg) (s : State) : (afterRead r s).stEnd = s.stEnd := rfl
@[simp] theorem afterRead_stMedium (r : Reg) (s : State) : (afterRead r s).stMedium = s.stMedium := rfl
@[simp] theorem afterRead_curOp (r : Reg) (s : State) : (afterRead r s).curOp = s.curOp := rfl
@[simp] theorem afterRead_curLba (r : Reg) (s : State) : (afterRead r s).curLba = s.curLba := rfl
@[simp] theorem afterRead_err (r : Reg) (s : State) : (afterRead r s).err = s.err := rfl
@[simp] theorem afterRead_tmp (r : Reg) (s : State) : (afterRead r s).tmp = s.tmp := rfl
@[simp] theorem afterRead_rxQueue (r : Reg) (s : State) : (afterRead r s).rxQueue = s.rxQueue := rfl
@[simp] theorem afterRead_initAnswers (r : Reg) (s : State) : (afterRead r s).initAnswers = s.initAnswers := rfl
@[simp] theorem afterRead_initDraws (r : Reg) (s : State) : (afterRead r s).initDraws = s.initDraws := rfl
@[simp] theorem afterRead_waitEnds (r : Reg) (s : State) : (afterRead r s).waitEnds = s.waitEnds := rfl
@[simp] theorem afterRead_waitDraws (r : Reg) (s : State) : (afterRead r s).waitDraws = s.waitDraws := rfl
@[simp] theorem afterRead_script (r : Reg) (s : State) : (afterRead r s).script = s.script := rfl
@[simp] theorem afterRead_trace (r : Reg) (s : State) : (afterRead r s).trace = .regRead (regAddr r) (s.answer 0) :: s.trace := rfl
@[simp] theorem afterRead_txTaken (r : Reg) (s : State) : (afterRead r s).txTaken = s.txTaken := rfl
@[simp] theorem afterRead_txCarry (r : Reg) (s : State) : (afterRead r s).txCarry = s.txCarry := rfl
@[simp] theorem afterRead_txRooms (r : Reg) (s : State) : (afterRead r s).txRooms = s.txRooms := rfl
@[simp] theorem afterRead_txSends (r : Reg) (s : State) : (afterRead r s).txSends = s.txSends := rfl
@[simp] theorem afterRead_lastWrite (r : Reg) (s : State) : (afterRead r s).lastWrite = s.lastWrite := rfl

/-! ### regWrite -/

@[simp] theorem regWrite_params (r : Reg) (v : Word) (s : State) : (regWrite r v s).params = s.params := rfl
@[simp] theorem regWrite_phase (r : Reg) (v : Word) (s : State) : (regWrite r v s).phase = s.phase := rfl
@[simp] theorem regWrite_pc (r : Reg) (v : Word) (s : State) : (regWrite r v s).pc = s.pc := rfl
@[simp] theorem regWrite_exitCode (r : Reg) (v : Word) (s : State) : (regWrite r v s).exitCode = s.exitCode := rfl
@[simp] theorem regWrite_shutdownPending (r : Reg) (v : Word) (s : State) : (regWrite r v s).shutdownPending = s.shutdownPending := rfl
@[simp] theorem regWrite_transportUp (r : Reg) (v : Word) (s : State) : (regWrite r v s).transportUp = s.transportUp := rfl
@[simp] theorem regWrite_pinDbg (r : Reg) (v : Word) (s : State) : (regWrite r v s).pinDbg = s.pinDbg := rfl
@[simp] theorem regWrite_pinRst (r : Reg) (v : Word) (s : State) : (regWrite r v s).pinRst = s.pinRst := rfl
@[simp] theorem regWrite_pinCs (r : Reg) (v : Word) (s : State) : (regWrite r v s).pinCs = s.pinCs := rfl
@[simp] theorem regWrite_cfgValid (r : Reg) (v : Word) (s : State) : (regWrite r v s).cfgValid = s.cfgValid := rfl
@[simp] theorem regWrite_cfgValue (r : Reg) (v : Word) (s : State) : (regWrite r v s).cfgValue = s.cfgValue := rfl
@[simp] theorem regWrite_rxBuf (r : Reg) (v : Word) (s : State) : (regWrite r v s).rxBuf = s.rxBuf := rfl
@[simp] theorem regWrite_rxCnt (r : Reg) (v : Word) (s : State) : (regWrite r v s).rxCnt = s.rxCnt := rfl
@[simp] theorem regWrite_rxClosed (r : Reg) (v : Word) (s : State) : (regWrite r v s).rxClosed = s.rxClosed := rfl
@[simp] theorem regWrite_wrBuf (r : Reg) (v : Word) (s : State) : (regWrite r v s).wrBuf = s.wrBuf := rfl
@[simp] theorem regWrite_wrCnt (r : Reg) (v : Word) (s : State) : (regWrite r v s).wrCnt = s.wrCnt := rfl
@[simp] theorem regWrite_rdBuf (r : Reg) (v : Word) (s : State) : (regWrite r v s).rdBuf = s.rdBuf := rfl
@[simp] theorem regWrite_t (r : Reg) (v : Word) (s : State) : (regWrite r v s).t = s.t := rfl
@[simp] theorem regWrite_sLast (r : Reg) (v : Word) (s : State) : (regWrite r v s).sLast = s.sLast := rfl
@[simp] theorem regWrite_stActive (r : Reg) (v : Word) (s : State) : (regWrite r v s).stActive = s.stActive := rfl
@[simp] theorem regWrite_stCur (r : Reg) (v : Word) (s : State) : (regWrite r v s).stCur = s.stCur := rfl
@[simp] theorem regWrite_stEnd (r : Reg) (v : Word) (s : State) : (regWrite r v s).stEnd = s.stEnd := rfl
@[simp] theorem regWrite_stMedium (r : Reg) (v : Word) (s : State) : (regWrite r v s).stMedium = s.stMedium := rfl
@[simp] theorem regWrite_curOp (r : Reg) (v : Word) (s : State) : (regWrite r v s).curOp = s.curOp := rfl
@[simp] theorem regWrite_curLba (r : Reg) (v : Word) (s : State) : (regWrite r v s).curLba = s.curLba := rfl
@[simp] theorem regWrite_err (r : Reg) (v : Word) (s : State) : (regWrite r v s).err = s.err := rfl
@[simp] theorem regWrite_tmp (r : Reg) (v : Word) (s : State) : (regWrite r v s).tmp = s.tmp := rfl
@[simp] theorem regWrite_rxQueue (r : Reg) (v : Word) (s : State) : (regWrite r v s).rxQueue = s.rxQueue := rfl
@[simp] theorem regWrite_regAnswers (r : Reg) (v : Word) (s : State) : (regWrite r v s).regAnswers = s.regAnswers := rfl
@[simp] theorem regWrite_regDraws (r : Reg) (v : Word) (s : State) : (regWrite r v s).regDraws = s.regDraws := rfl
@[simp] theorem regWrite_initAnswers (r : Reg) (v : Word) (s : State) : (regWrite r v s).initAnswers = s.initAnswers := rfl
@[simp] theorem regWrite_initDraws (r : Reg) (v : Word) (s : State) : (regWrite r v s).initDraws = s.initDraws := rfl
@[simp] theorem regWrite_waitEnds (r : Reg) (v : Word) (s : State) : (regWrite r v s).waitEnds = s.waitEnds := rfl
@[simp] theorem regWrite_waitDraws (r : Reg) (v : Word) (s : State) : (regWrite r v s).waitDraws = s.waitDraws := rfl
@[simp] theorem regWrite_script (r : Reg) (v : Word) (s : State) : (regWrite r v s).script = s.script := rfl
@[simp] theorem regWrite_trace (r : Reg) (v : Word) (s : State) : (regWrite r v s).trace = .regWrite (regAddr r) v :: s.trace := rfl
@[simp] theorem regWrite_txTaken (r : Reg) (v : Word) (s : State) : (regWrite r v s).txTaken = s.txTaken := rfl
@[simp] theorem regWrite_txCarry (r : Reg) (v : Word) (s : State) : (regWrite r v s).txCarry = s.txCarry := rfl
@[simp] theorem regWrite_txRooms (r : Reg) (v : Word) (s : State) : (regWrite r v s).txRooms = s.txRooms := rfl
@[simp] theorem regWrite_txSends (r : Reg) (v : Word) (s : State) : (regWrite r v s).txSends = s.txSends := rfl
@[simp] theorem regWrite_lastWrite (r : Reg) (v : Word) (s : State) : (regWrite r v s).lastWrite = windowWrite s.lastWrite (regAddr r).toNat v := rfl

/-! ### send -/

@[simp] theorem send_params (bytes : List Byte) (s : State) : (send bytes s).params = s.params := rfl
@[simp] theorem send_phase (bytes : List Byte) (s : State) : (send bytes s).phase = s.phase := rfl
@[simp] theorem send_pc (bytes : List Byte) (s : State) : (send bytes s).pc = s.pc := rfl
@[simp] theorem send_exitCode (bytes : List Byte) (s : State) : (send bytes s).exitCode = s.exitCode := rfl
@[simp] theorem send_shutdownPending (bytes : List Byte) (s : State) : (send bytes s).shutdownPending = s.shutdownPending := rfl
@[simp] theorem send_transportUp (bytes : List Byte) (s : State) : (send bytes s).transportUp = s.transportUp := rfl
@[simp] theorem send_pinDbg (bytes : List Byte) (s : State) : (send bytes s).pinDbg = s.pinDbg := rfl
@[simp] theorem send_pinRst (bytes : List Byte) (s : State) : (send bytes s).pinRst = s.pinRst := rfl
@[simp] theorem send_pinCs (bytes : List Byte) (s : State) : (send bytes s).pinCs = s.pinCs := rfl
@[simp] theorem send_cfgValid (bytes : List Byte) (s : State) : (send bytes s).cfgValid = s.cfgValid := rfl
@[simp] theorem send_cfgValue (bytes : List Byte) (s : State) : (send bytes s).cfgValue = s.cfgValue := rfl
@[simp] theorem send_rxBuf (bytes : List Byte) (s : State) : (send bytes s).rxBuf = s.rxBuf := rfl
@[simp] theorem send_rxCnt (bytes : List Byte) (s : State) : (send bytes s).rxCnt = s.rxCnt := rfl
@[simp] theorem send_rxClosed (bytes : List Byte) (s : State) : (send bytes s).rxClosed = s.rxClosed := rfl
@[simp] theorem send_wrBuf (bytes : List Byte) (s : State) : (send bytes s).wrBuf = s.wrBuf := rfl
@[simp] theorem send_wrCnt (bytes : List Byte) (s : State) : (send bytes s).wrCnt = s.wrCnt := rfl
@[simp] theorem send_rdBuf (bytes : List Byte) (s : State) : (send bytes s).rdBuf = s.rdBuf := rfl
@[simp] theorem send_t (bytes : List Byte) (s : State) : (send bytes s).t = s.t := rfl
@[simp] theorem send_sLast (bytes : List Byte) (s : State) : (send bytes s).sLast = s.sLast := rfl
@[simp] theorem send_stActive (bytes : List Byte) (s : State) : (send bytes s).stActive = s.stActive := rfl
@[simp] theorem send_stCur (bytes : List Byte) (s : State) : (send bytes s).stCur = s.stCur := rfl
@[simp] theorem send_stEnd (bytes : List Byte) (s : State) : (send bytes s).stEnd = s.stEnd := rfl
@[simp] theorem send_stMedium (bytes : List Byte) (s : State) : (send bytes s).stMedium = s.stMedium := rfl
@[simp] theorem send_curOp (bytes : List Byte) (s : State) : (send bytes s).curOp = s.curOp := rfl
@[simp] theorem send_curLba (bytes : List Byte) (s : State) : (send bytes s).curLba = s.curLba := rfl
@[simp] theorem send_err (bytes : List Byte) (s : State) : (send bytes s).err = s.err := rfl
@[simp] theorem send_tmp (bytes : List Byte) (s : State) : (send bytes s).tmp = s.tmp := rfl
@[simp] theorem send_rxQueue (bytes : List Byte) (s : State) : (send bytes s).rxQueue = s.rxQueue := rfl
@[simp] theorem send_regAnswers (bytes : List Byte) (s : State) : (send bytes s).regAnswers = s.regAnswers := rfl
@[simp] theorem send_regDraws (bytes : List Byte) (s : State) : (send bytes s).regDraws = s.regDraws := rfl
@[simp] theorem send_initAnswers (bytes : List Byte) (s : State) : (send bytes s).initAnswers = s.initAnswers := rfl
@[simp] theorem send_initDraws (bytes : List Byte) (s : State) : (send bytes s).initDraws = s.initDraws := rfl
@[simp] theorem send_waitEnds (bytes : List Byte) (s : State) : (send bytes s).waitEnds = s.waitEnds := rfl
@[simp] theorem send_waitDraws (bytes : List Byte) (s : State) : (send bytes s).waitDraws = s.waitDraws := rfl
@[simp] theorem send_script (bytes : List Byte) (s : State) : (send bytes s).script = s.script := rfl
@[simp] theorem send_trace (bytes : List Byte) (s : State) : (send bytes s).trace = .send bytes :: s.trace := rfl
@[simp] theorem send_txTaken (bytes : List Byte) (s : State) : (send bytes s).txTaken = s.txTaken := rfl
@[simp] theorem send_txCarry (bytes : List Byte) (s : State) : (send bytes s).txCarry = s.txCarry := rfl
@[simp] theorem send_txRooms (bytes : List Byte) (s : State) : (send bytes s).txRooms = s.txRooms := rfl
@[simp] theorem send_txSends (bytes : List Byte) (s : State) : (send bytes s).txSends = s.txSends := rfl
@[simp] theorem send_lastWrite (bytes : List Byte) (s : State) : (send bytes s).lastWrite = s.lastWrite := rfl

/-! ### logCause -/

@[simp] theorem logCause_params (c : Cause) (s : State) : (logCause c s).params = s.params := rfl
@[simp] theorem logCause_phase (c : Cause) (s : State) : (logCause c s).phase = s.phase := rfl
@[simp] theorem logCause_pc (c : Cause) (s : State) : (logCause c s).pc = s.pc := rfl
@[simp] theorem logCause_exitCode (c : Cause) (s : State) : (logCause c s).exitCode = s.exitCode := rfl
@[simp] theorem logCause_shutdownPending (c : Cause) (s : State) : (logCause c s).shutdownPending = s.shutdownPending := rfl
@[simp] theorem logCause_transportUp (c : Cause) (s : State) : (logCause c s).transportUp = s.transportUp := rfl
@[simp] theorem logCause_pinDbg (c : Cause) (s : State) : (logCause c s).pinDbg = s.pinDbg := rfl
@[simp] theorem logCause_pinRst (c : Cause) (s : State) : (logCause c s).pinRst = s.pinRst := rfl
@[simp] theorem logCause_pinCs (c : Cause) (s : State) : (logCause c s).pinCs = s.pinCs := rfl
@[simp] theorem logCause_cfgValid (c : Cause) (s : State) : (logCause c s).cfgValid = s.cfgValid := rfl
@[simp] theorem logCause_cfgValue (c : Cause) (s : State) : (logCause c s).cfgValue = s.cfgValue := rfl
@[simp] theorem logCause_rxBuf (c : Cause) (s : State) : (logCause c s).rxBuf = s.rxBuf := rfl
@[simp] theorem logCause_rxCnt (c : Cause) (s : State) : (logCause c s).rxCnt = s.rxCnt := rfl
@[simp] theorem logCause_rxClosed (c : Cause) (s : State) : (logCause c s).rxClosed = s.rxClosed := rfl
@[simp] theorem logCause_wrBuf (c : Cause) (s : State) : (logCause c s).wrBuf = s.wrBuf := rfl
@[simp] theorem logCause_wrCnt (c : Cause) (s : State) : (logCause c s).wrCnt = s.wrCnt := rfl
@[simp] theorem logCause_rdBuf (c : Cause) (s : State) : (logCause c s).rdBuf = s.rdBuf := rfl
@[simp] theorem logCause_t (c : Cause) (s : State) : (logCause c s).t = s.t := rfl
@[simp] theorem logCause_sLast (c : Cause) (s : State) : (logCause c s).sLast = s.sLast := rfl
@[simp] theorem logCause_stActive (c : Cause) (s : State) : (logCause c s).stActive = s.stActive := rfl
@[simp] theorem logCause_stCur (c : Cause) (s : State) : (logCause c s).stCur = s.stCur := rfl
@[simp] theorem logCause_stEnd (c : Cause) (s : State) : (logCause c s).stEnd = s.stEnd := rfl
@[simp] theorem logCause_stMedium (c : Cause) (s : State) : (logCause c s).stMedium = s.stMedium := rfl
@[simp] theorem logCause_curOp (c : Cause) (s : State) : (logCause c s).curOp = s.curOp := rfl
@[simp] theorem logCause_curLba (c : Cause) (s : State) : (logCause c s).curLba = s.curLba := rfl
@[simp] theorem logCause_err (c : Cause) (s : State) : (logCause c s).err = s.err := rfl
@[simp] theorem logCause_tmp (c : Cause) (s : State) : (logCause c s).tmp = s.tmp := rfl
@[simp] theorem logCause_rxQueue (c : Cause) (s : State) : (logCause c s).rxQueue = s.rxQueue := rfl
@[simp] theorem logCause_regAnswers (c : Cause) (s : State) : (logCause c s).regAnswers = s.regAnswers := rfl
@[simp] theorem logCause_regDraws (c : Cause) (s : State) : (logCause c s).regDraws = s.regDraws := rfl
@[simp] theorem logCause_initAnswers (c : Cause) (s : State) : (logCause c s).initAnswers = s.initAnswers := rfl
@[simp] theorem logCause_initDraws (c : Cause) (s : State) : (logCause c s).initDraws = s.initDraws := rfl
@[simp] theorem logCause_waitEnds (c : Cause) (s : State) : (logCause c s).waitEnds = s.waitEnds := rfl
@[simp] theorem logCause_waitDraws (c : Cause) (s : State) : (logCause c s).waitDraws = s.waitDraws := rfl
@[simp] theorem logCause_script (c : Cause) (s : State) : (logCause c s).script = s.script := rfl
@[simp] theorem logCause_trace (c : Cause) (s : State) : (logCause c s).trace = .log c :: s.trace := rfl
@[simp] theorem logCause_txTaken (c : Cause) (s : State) : (logCause c s).txTaken = s.txTaken := rfl
@[simp] theorem logCause_txCarry (c : Cause) (s : State) : (logCause c s).txCarry = s.txCarry := rfl
@[simp] theorem logCause_txRooms (c : Cause) (s : State) : (logCause c s).txRooms = s.txRooms := rfl
@[simp] theorem logCause_txSends (c : Cause) (s : State) : (logCause c s).txSends = s.txSends := rfl
@[simp] theorem logCause_lastWrite (c : Cause) (s : State) : (logCause c s).lastWrite = s.lastWrite := rfl

/-! ### beginCommand -/

@[simp] theorem beginCommand_params (i : Instr) (s : State) : (beginCommand i s).params = s.params := rfl
@[simp] theorem beginCommand_phase (i : Instr) (s : State) : (beginCommand i s).phase = s.phase := rfl
@[simp] theorem beginCommand_pc (i : Instr) (s : State) : (beginCommand i s).pc = s.pc := rfl
@[simp] theorem beginCommand_exitCode (i : Instr) (s : State) : (beginCommand i s).exitCode = s.exitCode := rfl
@[simp] theorem beginCommand_shutdownPending (i : Instr) (s : State) : (beginCommand i s).shutdownPending = s.shutdownPending := rfl
@[simp] theorem beginCommand_transportUp (i : Instr) (s : State) : (beginCommand i s).transportUp = s.transportUp := rfl
@[simp] theorem beginCommand_pinDbg (i : Instr) (s : State) : (beginCommand i s).pinDbg = s.pinDbg := rfl
@[simp] theorem beginCommand_pinRst (i : Instr) (s : State) : (beginCommand i s).pinRst = s.pinRst := rfl
@[simp] theorem beginCommand_pinCs (i : Instr) (s : State) : (beginCommand i s).pinCs = s.pinCs := rfl
@[simp] theorem beginCommand_cfgValid (i : Instr) (s : State) : (beginCommand i s).cfgValid = s.cfgValid := rfl
@[simp] theorem beginCommand_cfgValue (i : Instr) (s : State) : (beginCommand i s).cfgValue = s.cfgValue := rfl
@[simp] theorem beginCommand_rxBuf (i : Instr) (s : State) : (beginCommand i s).rxBuf = s.rxBuf := rfl
@[simp] theorem beginCommand_rxCnt (i : Instr) (s : State) : (beginCommand i s).rxCnt = s.rxCnt := rfl
@[simp] theorem beginCommand_rxClosed (i : Instr) (s : State) : (beginCommand i s).rxClosed = s.rxClosed := rfl
@[simp] theorem beginCommand_wrBuf (i : Instr) (s : State) : (beginCommand i s).wrBuf = s.wrBuf := rfl
@[simp] theorem beginCommand_wrCnt (i : Instr) (s : State) : (beginCommand i s).wrCnt = s.wrCnt := rfl
@[simp] theorem beginCommand_rdBuf (i : Instr) (s : State) : (beginCommand i s).rdBuf = s.rdBuf := rfl
@[simp] theorem beginCommand_t (i : Instr) (s : State) : (beginCommand i s).t = s.t := rfl
@[simp] theorem beginCommand_sLast (i : Instr) (s : State) : (beginCommand i s).sLast = s.sLast := rfl
@[simp] theorem beginCommand_stActive (i : Instr) (s : State) : (beginCommand i s).stActive = s.stActive := rfl
@[simp] theorem beginCommand_stCur (i : Instr) (s : State) : (beginCommand i s).stCur = s.stCur := rfl
@[simp] theorem beginCommand_stEnd (i : Instr) (s : State) : (beginCommand i s).stEnd = s.stEnd := rfl
@[simp] theorem beginCommand_stMedium (i : Instr) (s : State) : (beginCommand i s).stMedium = s.stMedium := rfl
@[simp] theorem beginCommand_curOp (i : Instr) (s : State) : (beginCommand i s).curOp = opcodeOf s.params.ops i := rfl
@[simp] theorem beginCommand_curLba (i : Instr) (s : State) : (beginCommand i s).curLba = operandOf i := rfl
@[simp] theorem beginCommand_err (i : Instr) (s : State) : (beginCommand i s).err = s.err := rfl
@[simp] theorem beginCommand_tmp (i : Instr) (s : State) : (beginCommand i s).tmp = s.tmp := rfl
@[simp] theorem beginCommand_rxQueue (i : Instr) (s : State) : (beginCommand i s).rxQueue = s.rxQueue := rfl
@[simp] theorem beginCommand_regAnswers (i : Instr) (s : State) : (beginCommand i s).regAnswers = s.regAnswers := rfl
@[simp] theorem beginCommand_regDraws (i : Instr) (s : State) : (beginCommand i s).regDraws = s.regDraws := rfl
@[simp] theorem beginCommand_initAnswers (i : Instr) (s : State) : (beginCommand i s).initAnswers = s.initAnswers := rfl
@[simp] theorem beginCommand_initDraws (i : Instr) (s : State) : (beginCommand i s).initDraws = s.initDraws := rfl
@[simp] theorem beginCommand_waitEnds (i : Instr) (s : State) : (beginCommand i s).waitEnds = s.waitEnds := rfl
@[simp] theorem beginCommand_waitDraws (i : Instr) (s : State) : (beginCommand i s).waitDraws = s.waitDraws := rfl
@[simp] theorem beginCommand_script (i : Instr) (s : State) : (beginCommand i s).script = s.script := rfl
@[simp] theorem beginCommand_trace (i : Instr) (s : State) : (beginCommand i s).trace = s.trace := rfl
@[simp] theorem beginCommand_txTaken (i : Instr) (s : State) : (beginCommand i s).txTaken = s.txTaken := rfl
@[simp] theorem beginCommand_txCarry (i : Instr) (s : State) : (beginCommand i s).txCarry = s.txCarry := rfl
@[simp] theorem beginCommand_txRooms (i : Instr) (s : State) : (beginCommand i s).txRooms = s.txRooms := rfl
@[simp] theorem beginCommand_txSends (i : Instr) (s : State) : (beginCommand i s).txSends = s.txSends := rfl
@[simp] theorem beginCommand_lastWrite (i : Instr) (s : State) : (beginCommand i s).lastWrite = s.lastWrite := rfl

/-! ### startWait -/

@[simp] theorem startWait_params (s : State) : (startWait s).params = s.params := rfl
@[simp] theorem startWait_phase (s : State) : (startWait s).phase = s.phase := rfl
@[simp] theorem startWait_pc (s : State) : (startWait s).pc = s.pc := rfl
@[simp] theorem startWait_exitCode (s : State) : (startWait s).exitCode = s.exitCode := rfl
@[simp] theorem startWait_shutdownPending (s : State) : (startWait s).shutdownPending = s.shutdownPending := rfl
@[simp] theorem startWait_transportUp (s : State) : (startWait s).transportUp = s.transportUp := rfl
@[simp] theorem startWait_pinDbg (s : State) : (startWait s).pinDbg = s.pinDbg := rfl
@[simp] theorem startWait_pinRst (s : State) : (startWait s).pinRst = s.pinRst := rfl
@[simp] theorem startWait_pinCs (s : State) : (startWait s).pinCs = s.pinCs := rfl
@[simp] theorem startWait_cfgValid (s : State) : (startWait s).cfgValid = s.cfgValid := rfl
@[simp] theorem startWait_cfgValue (s : State) : (startWait s).cfgValue = s.cfgValue := rfl
@[simp] theorem startWait_rxBuf (s : State) : (startWait s).rxBuf = s.rxBuf := rfl
@[simp] theorem startWait_rxCnt (s : State) : (startWait s).rxCnt = s.rxCnt := rfl
@[simp] theorem startWait_rxClosed (s : State) : (startWait s).rxClosed = s.rxClosed := rfl
@[simp] theorem startWait_wrBuf (s : State) : (startWait s).wrBuf = s.wrBuf := rfl
@[simp] theorem startWait_wrCnt (s : State) : (startWait s).wrCnt = s.wrCnt := rfl
@[simp] theorem startWait_rdBuf (s : State) : (startWait s).rdBuf = s.rdBuf := rfl
@[simp] theorem startWait_t (s : State) : (startWait s).t = s.params.waitBudget := rfl
@[simp] theorem startWait_sLast (s : State) : (startWait s).sLast = s.sLast := rfl
@[simp] theorem startWait_stActive (s : State) : (startWait s).stActive = s.stActive := rfl
@[simp] theorem startWait_stCur (s : State) : (startWait s).stCur = s.stCur := rfl
@[simp] theorem startWait_stEnd (s : State) : (startWait s).stEnd = s.stEnd := rfl
@[simp] theorem startWait_stMedium (s : State) : (startWait s).stMedium = s.stMedium := rfl
@[simp] theorem startWait_curOp (s : State) : (startWait s).curOp = s.curOp := rfl
@[simp] theorem startWait_curLba (s : State) : (startWait s).curLba = s.curLba := rfl
@[simp] theorem startWait_err (s : State) : (startWait s).err = s.err := rfl
@[simp] theorem startWait_tmp (s : State) : (startWait s).tmp = s.tmp := rfl
@[simp] theorem startWait_rxQueue (s : State) : (startWait s).rxQueue = s.rxQueue := rfl
@[simp] theorem startWait_regAnswers (s : State) : (startWait s).regAnswers = s.regAnswers := rfl
@[simp] theorem startWait_regDraws (s : State) : (startWait s).regDraws = s.regDraws := rfl
@[simp] theorem startWait_initAnswers (s : State) : (startWait s).initAnswers = s.initAnswers := rfl
@[simp] theorem startWait_initDraws (s : State) : (startWait s).initDraws = s.initDraws := rfl
@[simp] theorem startWait_waitEnds (s : State) : (startWait s).waitEnds = s.waitEnds := rfl
@[simp] theorem startWait_waitDraws (s : State) : (startWait s).waitDraws = s.waitDraws := rfl
@[simp] theorem startWait_script (s : State) : (startWait s).script = s.script := rfl
@[simp] theorem startWait_trace (s : State) : (startWait s).trace = s.trace := rfl
@[simp] theorem startWait_txTaken (s : State) : (startWait s).txTaken = s.txTaken := rfl
@[simp] theorem startWait_txCarry (s : State) : (startWait s).txCarry = s.txCarry := rfl
@[simp] theorem startWait_txRooms (s : State) : (startWait s).txRooms = s.txRooms := rfl
@[simp] theorem startWait_txSends (s : State) : (startWait s).txSends = s.txSends := rfl
@[simp] theorem startWait_lastWrite (s : State) : (startWait s).lastWrite = s.lastWrite := rfl

/-! ### countDown -/

@[simp] theorem countDown_params (s : State) : (countDown s).params = s.params := rfl
@[simp] theorem countDown_phase (s : State) : (countDown s).phase = s.phase := rfl
@[simp] theorem countDown_pc (s : State) : (countDown s).pc = s.pc := rfl
@[simp] theorem countDown_exitCode (s : State) : (countDown s).exitCode = s.exitCode := rfl
@[simp] theorem countDown_shutdownPending (s : State) : (countDown s).shutdownPending = s.shutdownPending := rfl
@[simp] theorem countDown_transportUp (s : State) : (countDown s).transportUp = s.transportUp := rfl
@[simp] theorem countDown_pinDbg (s : State) : (countDown s).pinDbg = s.pinDbg := rfl
@[simp] theorem countDown_pinRst (s : State) : (countDown s).pinRst = s.pinRst := rfl
@[simp] theorem countDown_pinCs (s : State) : (countDown s).pinCs = s.pinCs := rfl
@[simp] theorem countDown_cfgValid (s : State) : (countDown s).cfgValid = s.cfgValid := rfl
@[simp] theorem countDown_cfgValue (s : State) : (countDown s).cfgValue = s.cfgValue := rfl
@[simp] theorem countDown_rxBuf (s : State) : (countDown s).rxBuf = s.rxBuf := rfl
@[simp] theorem countDown_rxCnt (s : State) : (countDown s).rxCnt = s.rxCnt := rfl
@[simp] theorem countDown_rxClosed (s : State) : (countDown s).rxClosed = s.rxClosed := rfl
@[simp] theorem countDown_wrBuf (s : State) : (countDown s).wrBuf = s.wrBuf := rfl
@[simp] theorem countDown_wrCnt (s : State) : (countDown s).wrCnt = s.wrCnt := rfl
@[simp] theorem countDown_rdBuf (s : State) : (countDown s).rdBuf = s.rdBuf := rfl
@[simp] theorem countDown_t (s : State) : (countDown s).t = s.t - 1#16 := rfl
@[simp] theorem countDown_sLast (s : State) : (countDown s).sLast = s.sLast := rfl
@[simp] theorem countDown_stActive (s : State) : (countDown s).stActive = s.stActive := rfl
@[simp] theorem countDown_stCur (s : State) : (countDown s).stCur = s.stCur := rfl
@[simp] theorem countDown_stEnd (s : State) : (countDown s).stEnd = s.stEnd := rfl
@[simp] theorem countDown_stMedium (s : State) : (countDown s).stMedium = s.stMedium := rfl
@[simp] theorem countDown_curOp (s : State) : (countDown s).curOp = s.curOp := rfl
@[simp] theorem countDown_curLba (s : State) : (countDown s).curLba = s.curLba := rfl
@[simp] theorem countDown_err (s : State) : (countDown s).err = s.err := rfl
@[simp] theorem countDown_tmp (s : State) : (countDown s).tmp = s.tmp := rfl
@[simp] theorem countDown_rxQueue (s : State) : (countDown s).rxQueue = s.rxQueue := rfl
@[simp] theorem countDown_regAnswers (s : State) : (countDown s).regAnswers = s.regAnswers := rfl
@[simp] theorem countDown_regDraws (s : State) : (countDown s).regDraws = s.regDraws := rfl
@[simp] theorem countDown_initAnswers (s : State) : (countDown s).initAnswers = s.initAnswers := rfl
@[simp] theorem countDown_initDraws (s : State) : (countDown s).initDraws = s.initDraws := rfl
@[simp] theorem countDown_waitEnds (s : State) : (countDown s).waitEnds = s.waitEnds := rfl
@[simp] theorem countDown_waitDraws (s : State) : (countDown s).waitDraws = s.waitDraws := rfl
@[simp] theorem countDown_script (s : State) : (countDown s).script = s.script := rfl
@[simp] theorem countDown_trace (s : State) : (countDown s).trace = s.trace := rfl
@[simp] theorem countDown_txTaken (s : State) : (countDown s).txTaken = s.txTaken := rfl
@[simp] theorem countDown_txCarry (s : State) : (countDown s).txCarry = s.txCarry := rfl
@[simp] theorem countDown_txRooms (s : State) : (countDown s).txRooms = s.txRooms := rfl
@[simp] theorem countDown_txSends (s : State) : (countDown s).txSends = s.txSends := rfl
@[simp] theorem countDown_lastWrite (s : State) : (countDown s).lastWrite = s.lastWrite := rfl

/-! ### pollStatus -/

@[simp] theorem pollStatus_params (s : State) : (pollStatus s).params = s.params := rfl
@[simp] theorem pollStatus_phase (s : State) : (pollStatus s).phase = s.phase := rfl
@[simp] theorem pollStatus_pc (s : State) : (pollStatus s).pc = s.pc := rfl
@[simp] theorem pollStatus_exitCode (s : State) : (pollStatus s).exitCode = s.exitCode := rfl
@[simp] theorem pollStatus_shutdownPending (s : State) : (pollStatus s).shutdownPending = s.shutdownPending := rfl
@[simp] theorem pollStatus_transportUp (s : State) : (pollStatus s).transportUp = s.transportUp := rfl
@[simp] theorem pollStatus_pinDbg (s : State) : (pollStatus s).pinDbg = s.pinDbg := rfl
@[simp] theorem pollStatus_pinRst (s : State) : (pollStatus s).pinRst = s.pinRst := rfl
@[simp] theorem pollStatus_pinCs (s : State) : (pollStatus s).pinCs = s.pinCs := rfl
@[simp] theorem pollStatus_cfgValid (s : State) : (pollStatus s).cfgValid = s.cfgValid := rfl
@[simp] theorem pollStatus_cfgValue (s : State) : (pollStatus s).cfgValue = s.cfgValue := rfl
@[simp] theorem pollStatus_rxBuf (s : State) : (pollStatus s).rxBuf = s.rxBuf := rfl
@[simp] theorem pollStatus_rxCnt (s : State) : (pollStatus s).rxCnt = s.rxCnt := rfl
@[simp] theorem pollStatus_rxClosed (s : State) : (pollStatus s).rxClosed = s.rxClosed := rfl
@[simp] theorem pollStatus_wrBuf (s : State) : (pollStatus s).wrBuf = s.wrBuf := rfl
@[simp] theorem pollStatus_wrCnt (s : State) : (pollStatus s).wrCnt = s.wrCnt := rfl
@[simp] theorem pollStatus_rdBuf (s : State) : (pollStatus s).rdBuf = s.rdBuf := rfl
@[simp] theorem pollStatus_t (s : State) : (pollStatus s).t = s.t := rfl
@[simp] theorem pollStatus_sLast (s : State) : (pollStatus s).sLast = statusOf (s.answer 0) := rfl
@[simp] theorem pollStatus_stActive (s : State) : (pollStatus s).stActive = s.stActive := rfl
@[simp] theorem pollStatus_stCur (s : State) : (pollStatus s).stCur = s.stCur := rfl
@[simp] theorem pollStatus_stEnd (s : State) : (pollStatus s).stEnd = s.stEnd := rfl
@[simp] theorem pollStatus_stMedium (s : State) : (pollStatus s).stMedium = s.stMedium := rfl
@[simp] theorem pollStatus_curOp (s : State) : (pollStatus s).curOp = s.curOp := rfl
@[simp] theorem pollStatus_curLba (s : State) : (pollStatus s).curLba = s.curLba := rfl
@[simp] theorem pollStatus_err (s : State) : (pollStatus s).err = s.err := rfl
@[simp] theorem pollStatus_tmp (s : State) : (pollStatus s).tmp = s.tmp := rfl
@[simp] theorem pollStatus_rxQueue (s : State) : (pollStatus s).rxQueue = s.rxQueue := rfl
@[simp] theorem pollStatus_initAnswers (s : State) : (pollStatus s).initAnswers = s.initAnswers := rfl
@[simp] theorem pollStatus_initDraws (s : State) : (pollStatus s).initDraws = s.initDraws := rfl
@[simp] theorem pollStatus_waitEnds (s : State) : (pollStatus s).waitEnds = s.waitEnds := rfl
@[simp] theorem pollStatus_waitDraws (s : State) : (pollStatus s).waitDraws = s.waitDraws := rfl
@[simp] theorem pollStatus_script (s : State) : (pollStatus s).script = s.script := rfl
@[simp] theorem pollStatus_trace (s : State) : (pollStatus s).trace = .regRead 0x04#8 (s.answer 0) :: s.trace := rfl
@[simp] theorem pollStatus_txTaken (s : State) : (pollStatus s).txTaken = s.txTaken := rfl
@[simp] theorem pollStatus_txCarry (s : State) : (pollStatus s).txCarry = s.txCarry := rfl
@[simp] theorem pollStatus_txRooms (s : State) : (pollStatus s).txRooms = s.txRooms := rfl
@[simp] theorem pollStatus_txSends (s : State) : (pollStatus s).txSends = s.txSends := rfl
@[simp] theorem pollStatus_lastWrite (s : State) : (pollStatus s).lastWrite = s.lastWrite := rfl

/-! ### frameByte -/

@[simp] theorem frameByte_params (b : Byte) (q : List Byte) (s : State) : (frameByte b q s).params = s.params := rfl
@[simp] theorem frameByte_phase (b : Byte) (q : List Byte) (s : State) : (frameByte b q s).phase = s.phase := rfl
@[simp] theorem frameByte_pc (b : Byte) (q : List Byte) (s : State) : (frameByte b q s).pc = s.pc := rfl
@[simp] theorem frameByte_exitCode (b : Byte) (q : List Byte) (s : State) : (frameByte b q s).exitCode = s.exitCode := rfl
@[simp] theorem frameByte_shutdownPending (b : Byte) (q : List Byte) (s : State) : (frameByte b q s).shutdownPending = s.shutdownPending := rfl
@[simp] theorem frameByte_transportUp (b : Byte) (q : List Byte) (s : State) : (frameByte b q s).transportUp = s.transportUp := rfl
@[simp] theorem frameByte_pinDbg (b : Byte) (q : List Byte) (s : State) : (frameByte b q s).pinDbg = s.pinDbg := rfl
@[simp] theorem frameByte_pinRst (b : Byte) (q : List Byte) (s : State) : (frameByte b q s).pinRst = s.pinRst := rfl
@[simp] theorem frameByte_pinCs (b : Byte) (q : List Byte) (s : State) : (frameByte b q s).pinCs = s.pinCs := rfl
@[simp] theorem frameByte_cfgValid (b : Byte) (q : List Byte) (s : State) : (frameByte b q s).cfgValid = s.cfgValid := rfl
@[simp] theorem frameByte_cfgValue (b : Byte) (q : List Byte) (s : State) : (frameByte b q s).cfgValue = s.cfgValue := rfl
@[simp] theorem frameByte_rxBuf (b : Byte) (q : List Byte) (s : State) : (frameByte b q s).rxBuf = s.rxBuf.setIfInBounds s.rxCnt b := rfl
@[simp] theorem frameByte_rxCnt (b : Byte) (q : List Byte) (s : State) : (frameByte b q s).rxCnt = s.rxCnt + 1 := rfl
@[simp] theorem frameByte_rxClosed (b : Byte) (q : List Byte) (s : State) : (frameByte b q s).rxClosed = s.rxClosed := rfl
@[simp] theorem frameByte_wrBuf (b : Byte) (q : List Byte) (s : State) : (frameByte b q s).wrBuf = s.wrBuf := rfl
@[simp] theorem frameByte_wrCnt (b : Byte) (q : List Byte) (s : State) : (frameByte b q s).wrCnt = s.wrCnt := rfl
@[simp] theorem frameByte_rdBuf (b : Byte) (q : List Byte) (s : State) : (frameByte b q s).rdBuf = s.rdBuf := rfl
@[simp] theorem frameByte_t (b : Byte) (q : List Byte) (s : State) : (frameByte b q s).t = s.t := rfl
@[simp] theorem frameByte_sLast (b : Byte) (q : List Byte) (s : State) : (frameByte b q s).sLast = s.sLast := rfl
@[simp] theorem frameByte_stActive (b : Byte) (q : List Byte) (s : State) : (frameByte b q s).stActive = s.stActive := rfl
@[simp] theorem frameByte_stCur (b : Byte) (q : List Byte) (s : State) : (frameByte b q s).stCur = s.stCur := rfl
@[simp] theorem frameByte_stEnd (b : Byte) (q : List Byte) (s : State) : (frameByte b q s).stEnd = s.stEnd := rfl
@[simp] theorem frameByte_stMedium (b : Byte) (q : List Byte) (s : State) : (frameByte b q s).stMedium = s.stMedium := rfl
@[simp] theorem frameByte_curOp (b : Byte) (q : List Byte) (s : State) : (frameByte b q s).curOp = s.curOp := rfl
@[simp] theorem frameByte_curLba (b : Byte) (q : List Byte) (s : State) : (frameByte b q s).curLba = s.curLba := rfl
@[simp] theorem frameByte_err (b : Byte) (q : List Byte) (s : State) : (frameByte b q s).err = s.err := rfl
@[simp] theorem frameByte_tmp (b : Byte) (q : List Byte) (s : State) : (frameByte b q s).tmp = s.tmp := rfl
@[simp] theorem frameByte_rxQueue (b : Byte) (q : List Byte) (s : State) : (frameByte b q s).rxQueue = q := rfl
@[simp] theorem frameByte_regAnswers (b : Byte) (q : List Byte) (s : State) : (frameByte b q s).regAnswers = s.regAnswers := rfl
@[simp] theorem frameByte_regDraws (b : Byte) (q : List Byte) (s : State) : (frameByte b q s).regDraws = s.regDraws := rfl
@[simp] theorem frameByte_initAnswers (b : Byte) (q : List Byte) (s : State) : (frameByte b q s).initAnswers = s.initAnswers := rfl
@[simp] theorem frameByte_initDraws (b : Byte) (q : List Byte) (s : State) : (frameByte b q s).initDraws = s.initDraws := rfl
@[simp] theorem frameByte_waitEnds (b : Byte) (q : List Byte) (s : State) : (frameByte b q s).waitEnds = s.waitEnds := rfl
@[simp] theorem frameByte_waitDraws (b : Byte) (q : List Byte) (s : State) : (frameByte b q s).waitDraws = s.waitDraws := rfl
@[simp] theorem frameByte_script (b : Byte) (q : List Byte) (s : State) : (frameByte b q s).script = s.script := rfl
@[simp] theorem frameByte_trace (b : Byte) (q : List Byte) (s : State) : (frameByte b q s).trace = .recv b :: s.trace := rfl
@[simp] theorem frameByte_txTaken (b : Byte) (q : List Byte) (s : State) : (frameByte b q s).txTaken = s.txTaken := rfl
@[simp] theorem frameByte_txCarry (b : Byte) (q : List Byte) (s : State) : (frameByte b q s).txCarry = s.txCarry := rfl
@[simp] theorem frameByte_txRooms (b : Byte) (q : List Byte) (s : State) : (frameByte b q s).txRooms = s.txRooms := rfl
@[simp] theorem frameByte_txSends (b : Byte) (q : List Byte) (s : State) : (frameByte b q s).txSends = s.txSends := rfl
@[simp] theorem frameByte_lastWrite (b : Byte) (q : List Byte) (s : State) : (frameByte b q s).lastWrite = s.lastWrite := rfl

/-! ### payloadByte -/

@[simp] theorem payloadByte_params (b : Byte) (q : List Byte) (s : State) : (payloadByte b q s).params = s.params := rfl
@[simp] theorem payloadByte_phase (b : Byte) (q : List Byte) (s : State) : (payloadByte b q s).phase = s.phase := rfl
@[simp] theorem payloadByte_pc (b : Byte) (q : List Byte) (s : State) : (payloadByte b q s).pc = s.pc := rfl
@[simp] theorem payloadByte_exitCode (b : Byte) (q : List Byte) (s : State) : (payloadByte b q s).exitCode = s.exitCode := rfl
@[simp] theorem payloadByte_shutdownPending (b : Byte) (q : List Byte) (s : State) : (payloadByte b q s).shutdownPending = s.shutdownPending := rfl
@[simp] theorem payloadByte_transportUp (b : Byte) (q : List Byte) (s : State) : (payloadByte b q s).transportUp = s.transportUp := rfl
@[simp] theorem payloadByte_pinDbg (b : Byte) (q : List Byte) (s : State) : (payloadByte b q s).pinDbg = s.pinDbg := rfl
@[simp] theorem payloadByte_pinRst (b : Byte) (q : List Byte) (s : State) : (payloadByte b q s).pinRst = s.pinRst := rfl
@[simp] theorem payloadByte_pinCs (b : Byte) (q : List Byte) (s : State) : (payloadByte b q s).pinCs = s.pinCs := rfl
@[simp] theorem payloadByte_cfgValid (b : Byte) (q : List Byte) (s : State) : (payloadByte b q s).cfgValid = s.cfgValid := rfl
@[simp] theorem payloadByte_cfgValue (b : Byte) (q : List Byte) (s : State) : (payloadByte b q s).cfgValue = s.cfgValue := rfl
@[simp] theorem payloadByte_rxBuf (b : Byte) (q : List Byte) (s : State) : (payloadByte b q s).rxBuf = s.rxBuf := rfl
@[simp] theorem payloadByte_rxCnt (b : Byte) (q : List Byte) (s : State) : (payloadByte b q s).rxCnt = s.rxCnt := rfl
@[simp] theorem payloadByte_rxClosed (b : Byte) (q : List Byte) (s : State) : (payloadByte b q s).rxClosed = s.rxClosed := rfl
@[simp] theorem payloadByte_wrBuf (b : Byte) (q : List Byte) (s : State) : (payloadByte b q s).wrBuf = s.wrBuf.setIfInBounds s.wrCnt b := rfl
@[simp] theorem payloadByte_wrCnt (b : Byte) (q : List Byte) (s : State) : (payloadByte b q s).wrCnt = s.wrCnt + 1 := rfl
@[simp] theorem payloadByte_rdBuf (b : Byte) (q : List Byte) (s : State) : (payloadByte b q s).rdBuf = s.rdBuf := rfl
@[simp] theorem payloadByte_t (b : Byte) (q : List Byte) (s : State) : (payloadByte b q s).t = s.t := rfl
@[simp] theorem payloadByte_sLast (b : Byte) (q : List Byte) (s : State) : (payloadByte b q s).sLast = s.sLast := rfl
@[simp] theorem payloadByte_stActive (b : Byte) (q : List Byte) (s : State) : (payloadByte b q s).stActive = s.stActive := rfl
@[simp] theorem payloadByte_stCur (b : Byte) (q : List Byte) (s : State) : (payloadByte b q s).stCur = s.stCur := rfl
@[simp] theorem payloadByte_stEnd (b : Byte) (q : List Byte) (s : State) : (payloadByte b q s).stEnd = s.stEnd := rfl
@[simp] theorem payloadByte_stMedium (b : Byte) (q : List Byte) (s : State) : (payloadByte b q s).stMedium = s.stMedium := rfl
@[simp] theorem payloadByte_curOp (b : Byte) (q : List Byte) (s : State) : (payloadByte b q s).curOp = s.curOp := rfl
@[simp] theorem payloadByte_curLba (b : Byte) (q : List Byte) (s : State) : (payloadByte b q s).curLba = s.curLba := rfl
@[simp] theorem payloadByte_err (b : Byte) (q : List Byte) (s : State) : (payloadByte b q s).err = s.err := rfl
@[simp] theorem payloadByte_tmp (b : Byte) (q : List Byte) (s : State) : (payloadByte b q s).tmp = s.tmp := rfl
@[simp] theorem payloadByte_rxQueue (b : Byte) (q : List Byte) (s : State) : (payloadByte b q s).rxQueue = q := rfl
@[simp] theorem payloadByte_regAnswers (b : Byte) (q : List Byte) (s : State) : (payloadByte b q s).regAnswers = s.regAnswers := rfl
@[simp] theorem payloadByte_regDraws (b : Byte) (q : List Byte) (s : State) : (payloadByte b q s).regDraws = s.regDraws := rfl
@[simp] theorem payloadByte_initAnswers (b : Byte) (q : List Byte) (s : State) : (payloadByte b q s).initAnswers = s.initAnswers := rfl
@[simp] theorem payloadByte_initDraws (b : Byte) (q : List Byte) (s : State) : (payloadByte b q s).initDraws = s.initDraws := rfl
@[simp] theorem payloadByte_waitEnds (b : Byte) (q : List Byte) (s : State) : (payloadByte b q s).waitEnds = s.waitEnds := rfl
@[simp] theorem payloadByte_waitDraws (b : Byte) (q : List Byte) (s : State) : (payloadByte b q s).waitDraws = s.waitDraws := rfl
@[simp] theorem payloadByte_script (b : Byte) (q : List Byte) (s : State) : (payloadByte b q s).script = s.script := rfl
@[simp] theorem payloadByte_trace (b : Byte) (q : List Byte) (s : State) : (payloadByte b q s).trace = .recv b :: s.trace := rfl
@[simp] theorem payloadByte_txTaken (b : Byte) (q : List Byte) (s : State) : (payloadByte b q s).txTaken = s.txTaken := rfl
@[simp] theorem payloadByte_txCarry (b : Byte) (q : List Byte) (s : State) : (payloadByte b q s).txCarry = s.txCarry := rfl
@[simp] theorem payloadByte_txRooms (b : Byte) (q : List Byte) (s : State) : (payloadByte b q s).txRooms = s.txRooms := rfl
@[simp] theorem payloadByte_txSends (b : Byte) (q : List Byte) (s : State) : (payloadByte b q s).txSends = s.txSends := rfl
@[simp] theorem payloadByte_lastWrite (b : Byte) (q : List Byte) (s : State) : (payloadByte b q s).lastWrite = s.lastWrite := rfl

/-! ### handOver -/

@[simp] theorem handOver_params (s : State) : (handOver s).params = s.params := rfl
@[simp] theorem handOver_phase (s : State) : (handOver s).phase = s.phase := rfl
@[simp] theorem handOver_pc (s : State) : (handOver s).pc = s.pc := rfl
@[simp] theorem handOver_exitCode (s : State) : (handOver s).exitCode = s.exitCode := rfl
@[simp] theorem handOver_shutdownPending (s : State) : (handOver s).shutdownPending = s.shutdownPending := rfl
@[simp] theorem handOver_transportUp (s : State) : (handOver s).transportUp = s.transportUp := rfl
@[simp] theorem handOver_pinDbg (s : State) : (handOver s).pinDbg = s.pinDbg := rfl
@[simp] theorem handOver_pinRst (s : State) : (handOver s).pinRst = s.pinRst := rfl
@[simp] theorem handOver_pinCs (s : State) : (handOver s).pinCs = s.pinCs := rfl
@[simp] theorem handOver_cfgValid (s : State) : (handOver s).cfgValid = s.cfgValid := rfl
@[simp] theorem handOver_cfgValue (s : State) : (handOver s).cfgValue = s.cfgValue := rfl
@[simp] theorem handOver_rxBuf (s : State) : (handOver s).rxBuf = s.rxBuf := rfl
@[simp] theorem handOver_rxCnt (s : State) : (handOver s).rxCnt = 0 := rfl
@[simp] theorem handOver_rxClosed (s : State) : (handOver s).rxClosed = s.rxClosed := rfl
@[simp] theorem handOver_wrBuf (s : State) : (handOver s).wrBuf = s.wrBuf := rfl
@[simp] theorem handOver_wrCnt (s : State) : (handOver s).wrCnt = s.wrCnt := rfl
@[simp] theorem handOver_rdBuf (s : State) : (handOver s).rdBuf = s.rdBuf := rfl
@[simp] theorem handOver_t (s : State) : (handOver s).t = s.t := rfl
@[simp] theorem handOver_sLast (s : State) : (handOver s).sLast = s.sLast := rfl
@[simp] theorem handOver_stActive (s : State) : (handOver s).stActive = s.stActive := rfl
@[simp] theorem handOver_stCur (s : State) : (handOver s).stCur = s.stCur := rfl
@[simp] theorem handOver_stEnd (s : State) : (handOver s).stEnd = s.stEnd := rfl
@[simp] theorem handOver_stMedium (s : State) : (handOver s).stMedium = s.stMedium := rfl
@[simp] theorem handOver_curOp (s : State) : (handOver s).curOp = s.curOp := rfl
@[simp] theorem handOver_curLba (s : State) : (handOver s).curLba = s.curLba := rfl
@[simp] theorem handOver_err (s : State) : (handOver s).err = s.err := rfl
@[simp] theorem handOver_tmp (s : State) : (handOver s).tmp = s.tmp := rfl
@[simp] theorem handOver_rxQueue (s : State) : (handOver s).rxQueue = s.rxQueue := rfl
@[simp] theorem handOver_regAnswers (s : State) : (handOver s).regAnswers = s.regAnswers := rfl
@[simp] theorem handOver_regDraws (s : State) : (handOver s).regDraws = s.regDraws := rfl
@[simp] theorem handOver_initAnswers (s : State) : (handOver s).initAnswers = s.initAnswers := rfl
@[simp] theorem handOver_initDraws (s : State) : (handOver s).initDraws = s.initDraws := rfl
@[simp] theorem handOver_waitEnds (s : State) : (handOver s).waitEnds = s.waitEnds := rfl
@[simp] theorem handOver_waitDraws (s : State) : (handOver s).waitDraws = s.waitDraws := rfl
@[simp] theorem handOver_script (s : State) : (handOver s).script = s.script := rfl
@[simp] theorem handOver_trace (s : State) : (handOver s).trace = s.trace := rfl
@[simp] theorem handOver_txTaken (s : State) : (handOver s).txTaken = s.txTaken := rfl
@[simp] theorem handOver_txCarry (s : State) : (handOver s).txCarry = s.txCarry := rfl
@[simp] theorem handOver_txRooms (s : State) : (handOver s).txRooms = s.txRooms := rfl
@[simp] theorem handOver_txSends (s : State) : (handOver s).txSends = s.txSends := rfl
@[simp] theorem handOver_lastWrite (s : State) : (handOver s).lastWrite = s.lastWrite := rfl

/-! ### setPins -/

/-- A line change writes the lines and the trace, nothing else (43 R243). -/
theorem setPins_eq (cs : List (Line × PinLevel)) (s : State) :
    ∃ d r c, setPins cs s = { s with pinDbg := d, pinRst := r, pinCs := c, trace := .pins cs :: s.trace } := by
  have h : ∀ (cs : List (Line × PinLevel)) (u : State),
      ∃ d r c, cs.foldl setLine u = { u with pinDbg := d, pinRst := r, pinCs := c } := by
    intro cs
    induction cs with
    | nil => intro u; exact ⟨u.pinDbg, u.pinRst, u.pinCs, rfl⟩
    | cons x cs ih =>
      intro u
      obtain ⟨d, r, c, hx⟩ := ih (setLine u x)
      obtain ⟨l, v⟩ := x
      cases l <;> exact ⟨d, r, c, hx⟩
  obtain ⟨d, r, c, hc⟩ := h cs s
  exact ⟨d, r, c, by simp only [setPins, hc, emit]⟩

@[simp] theorem setPins_params (cs : List (Line × PinLevel)) (s : State) : (setPins cs s).params = s.params := by
  obtain ⟨d, r, c, h⟩ := setPins_eq cs s; rw [h]
@[simp] theorem setPins_phase (cs : List (Line × PinLevel)) (s : State) : (setPins cs s).phase = s.phase := by
  obtain ⟨d, r, c, h⟩ := setPins_eq cs s; rw [h]
@[simp] theorem setPins_pc (cs : List (Line × PinLevel)) (s : State) : (setPins cs s).pc = s.pc := by
  obtain ⟨d, r, c, h⟩ := setPins_eq cs s; rw [h]
@[simp] theorem setPins_exitCode (cs : List (Line × PinLevel)) (s : State) : (setPins cs s).exitCode = s.exitCode := by
  obtain ⟨d, r, c, h⟩ := setPins_eq cs s; rw [h]
@[simp] theorem setPins_shutdownPending (cs : List (Line × PinLevel)) (s : State) : (setPins cs s).shutdownPending = s.shutdownPending := by
  obtain ⟨d, r, c, h⟩ := setPins_eq cs s; rw [h]
@[simp] theorem setPins_transportUp (cs : List (Line × PinLevel)) (s : State) : (setPins cs s).transportUp = s.transportUp := by
  obtain ⟨d, r, c, h⟩ := setPins_eq cs s; rw [h]
@[simp] theorem setPins_cfgValid (cs : List (Line × PinLevel)) (s : State) : (setPins cs s).cfgValid = s.cfgValid := by
  obtain ⟨d, r, c, h⟩ := setPins_eq cs s; rw [h]
@[simp] theorem setPins_cfgValue (cs : List (Line × PinLevel)) (s : State) : (setPins cs s).cfgValue = s.cfgValue := by
  obtain ⟨d, r, c, h⟩ := setPins_eq cs s; rw [h]
@[simp] theorem setPins_rxBuf (cs : List (Line × PinLevel)) (s : State) : (setPins cs s).rxBuf = s.rxBuf := by
  obtain ⟨d, r, c, h⟩ := setPins_eq cs s; rw [h]
@[simp] theorem setPins_rxCnt (cs : List (Line × PinLevel)) (s : State) : (setPins cs s).rxCnt = s.rxCnt := by
  obtain ⟨d, r, c, h⟩ := setPins_eq cs s; rw [h]
@[simp] theorem setPins_rxClosed (cs : List (Line × PinLevel)) (s : State) : (setPins cs s).rxClosed = s.rxClosed := by
  obtain ⟨d, r, c, h⟩ := setPins_eq cs s; rw [h]
@[simp] theorem setPins_wrBuf (cs : List (Line × PinLevel)) (s : State) : (setPins cs s).wrBuf = s.wrBuf := by
  obtain ⟨d, r, c, h⟩ := setPins_eq cs s; rw [h]
@[simp] theorem setPins_wrCnt (cs : List (Line × PinLevel)) (s : State) : (setPins cs s).wrCnt = s.wrCnt := by
  obtain ⟨d, r, c, h⟩ := setPins_eq cs s; rw [h]
@[simp] theorem setPins_rdBuf (cs : List (Line × PinLevel)) (s : State) : (setPins cs s).rdBuf = s.rdBuf := by
  obtain ⟨d, r, c, h⟩ := setPins_eq cs s; rw [h]
@[simp] theorem setPins_t (cs : List (Line × PinLevel)) (s : State) : (setPins cs s).t = s.t := by
  obtain ⟨d, r, c, h⟩ := setPins_eq cs s; rw [h]
@[simp] theorem setPins_sLast (cs : List (Line × PinLevel)) (s : State) : (setPins cs s).sLast = s.sLast := by
  obtain ⟨d, r, c, h⟩ := setPins_eq cs s; rw [h]
@[simp] theorem setPins_stActive (cs : List (Line × PinLevel)) (s : State) : (setPins cs s).stActive = s.stActive := by
  obtain ⟨d, r, c, h⟩ := setPins_eq cs s; rw [h]
@[simp] theorem setPins_stCur (cs : List (Line × PinLevel)) (s : State) : (setPins cs s).stCur = s.stCur := by
  obtain ⟨d, r, c, h⟩ := setPins_eq cs s; rw [h]
@[simp] theorem setPins_stEnd (cs : List (Line × PinLevel)) (s : State) : (setPins cs s).stEnd = s.stEnd := by
  obtain ⟨d, r, c, h⟩ := setPins_eq cs s; rw [h]
@[simp] theorem setPins_stMedium (cs : List (Line × PinLevel)) (s : State) : (setPins cs s).stMedium = s.stMedium := by
  obtain ⟨d, r, c, h⟩ := setPins_eq cs s; rw [h]
@[simp] theorem setPins_curOp (cs : List (Line × PinLevel)) (s : State) : (setPins cs s).curOp = s.curOp := by
  obtain ⟨d, r, c, h⟩ := setPins_eq cs s; rw [h]
@[simp] theorem setPins_curLba (cs : List (Line × PinLevel)) (s : State) : (setPins cs s).curLba = s.curLba := by
  obtain ⟨d, r, c, h⟩ := setPins_eq cs s; rw [h]
@[simp] theorem setPins_err (cs : List (Line × PinLevel)) (s : State) : (setPins cs s).err = s.err := by
  obtain ⟨d, r, c, h⟩ := setPins_eq cs s; rw [h]
@[simp] theorem setPins_tmp (cs : List (Line × PinLevel)) (s : State) : (setPins cs s).tmp = s.tmp := by
  obtain ⟨d, r, c, h⟩ := setPins_eq cs s; rw [h]
@[simp] theorem setPins_rxQueue (cs : List (Line × PinLevel)) (s : State) : (setPins cs s).rxQueue = s.rxQueue := by
  obtain ⟨d, r, c, h⟩ := setPins_eq cs s; rw [h]
@[simp] theorem setPins_regAnswers (cs : List (Line × PinLevel)) (s : State) : (setPins cs s).regAnswers = s.regAnswers := by
  obtain ⟨d, r, c, h⟩ := setPins_eq cs s; rw [h]
@[simp] theorem setPins_regDraws (cs : List (Line × PinLevel)) (s : State) : (setPins cs s).regDraws = s.regDraws := by
  obtain ⟨d, r, c, h⟩ := setPins_eq cs s; rw [h]
@[simp] theorem setPins_initAnswers (cs : List (Line × PinLevel)) (s : State) : (setPins cs s).initAnswers = s.initAnswers := by
  obtain ⟨d, r, c, h⟩ := setPins_eq cs s; rw [h]
@[simp] theorem setPins_initDraws (cs : List (Line × PinLevel)) (s : State) : (setPins cs s).initDraws = s.initDraws := by
  obtain ⟨d, r, c, h⟩ := setPins_eq cs s; rw [h]
@[simp] theorem setPins_waitEnds (cs : List (Line × PinLevel)) (s : State) : (setPins cs s).waitEnds = s.waitEnds := by
  obtain ⟨d, r, c, h⟩ := setPins_eq cs s; rw [h]
@[simp] theorem setPins_waitDraws (cs : List (Line × PinLevel)) (s : State) : (setPins cs s).waitDraws = s.waitDraws := by
  obtain ⟨d, r, c, h⟩ := setPins_eq cs s; rw [h]
@[simp] theorem setPins_script (cs : List (Line × PinLevel)) (s : State) : (setPins cs s).script = s.script := by
  obtain ⟨d, r, c, h⟩ := setPins_eq cs s; rw [h]
@[simp] theorem setPins_trace (cs : List (Line × PinLevel)) (s : State) : (setPins cs s).trace = Event.pins cs :: s.trace := by
  obtain ⟨d, r, c, h⟩ := setPins_eq cs s; rw [h]
@[simp] theorem setPins_txTaken (cs : List (Line × PinLevel)) (s : State) : (setPins cs s).txTaken = s.txTaken := by
  obtain ⟨d, r, c, h⟩ := setPins_eq cs s; rw [h]
@[simp] theorem setPins_txCarry (cs : List (Line × PinLevel)) (s : State) : (setPins cs s).txCarry = s.txCarry := by
  obtain ⟨d, r, c, h⟩ := setPins_eq cs s; rw [h]
@[simp] theorem setPins_txRooms (cs : List (Line × PinLevel)) (s : State) : (setPins cs s).txRooms = s.txRooms := by
  obtain ⟨d, r, c, h⟩ := setPins_eq cs s; rw [h]
@[simp] theorem setPins_txSends (cs : List (Line × PinLevel)) (s : State) : (setPins cs s).txSends = s.txSends := by
  obtain ⟨d, r, c, h⟩ := setPins_eq cs s; rw [h]
@[simp] theorem setPins_lastWrite (cs : List (Line × PinLevel)) (s : State) : (setPins cs s).lastWrite = s.lastWrite := by
  obtain ⟨d, r, c, h⟩ := setPins_eq cs s; rw [h]

/-! ### settle -/

@[simp] theorem settle_params (s : State) : (settle s).params = s.params := rfl
@[simp] theorem settle_phase (s : State) : (settle s).phase = s.phase := rfl
@[simp] theorem settle_pc (s : State) : (settle s).pc = s.pc := rfl
@[simp] theorem settle_exitCode (s : State) : (settle s).exitCode = s.exitCode := rfl
@[simp] theorem settle_shutdownPending (s : State) : (settle s).shutdownPending = s.shutdownPending := rfl
@[simp] theorem settle_transportUp (s : State) : (settle s).transportUp = s.transportUp := rfl
@[simp] theorem settle_pinDbg (s : State) : (settle s).pinDbg = s.pinDbg := rfl
@[simp] theorem settle_pinRst (s : State) : (settle s).pinRst = s.pinRst := rfl
@[simp] theorem settle_pinCs (s : State) : (settle s).pinCs = s.pinCs := rfl
@[simp] theorem settle_cfgValid (s : State) : (settle s).cfgValid = s.cfgValid := rfl
@[simp] theorem settle_cfgValue (s : State) : (settle s).cfgValue = s.cfgValue := rfl
@[simp] theorem settle_rxBuf (s : State) : (settle s).rxBuf = s.rxBuf := rfl
@[simp] theorem settle_rxCnt (s : State) : (settle s).rxCnt = s.rxCnt := rfl
@[simp] theorem settle_rxClosed (s : State) : (settle s).rxClosed = s.rxClosed := rfl
@[simp] theorem settle_wrBuf (s : State) : (settle s).wrBuf = s.wrBuf := rfl
@[simp] theorem settle_wrCnt (s : State) : (settle s).wrCnt = s.wrCnt := rfl
@[simp] theorem settle_rdBuf (s : State) : (settle s).rdBuf = s.rdBuf := rfl
@[simp] theorem settle_t (s : State) : (settle s).t = s.t := rfl
@[simp] theorem settle_sLast (s : State) : (settle s).sLast = s.sLast := rfl
@[simp] theorem settle_stActive (s : State) : (settle s).stActive = s.stActive := rfl
@[simp] theorem settle_stCur (s : State) : (settle s).stCur = s.stCur := rfl
@[simp] theorem settle_stEnd (s : State) : (settle s).stEnd = s.stEnd := rfl
@[simp] theorem settle_stMedium (s : State) : (settle s).stMedium = s.stMedium := rfl
@[simp] theorem settle_curOp (s : State) : (settle s).curOp = s.curOp := rfl
@[simp] theorem settle_curLba (s : State) : (settle s).curLba = s.curLba := rfl
@[simp] theorem settle_err (s : State) : (settle s).err = s.err := rfl
@[simp] theorem settle_tmp (s : State) : (settle s).tmp = s.tmp := rfl
@[simp] theorem settle_rxQueue (s : State) : (settle s).rxQueue = s.rxQueue := rfl
@[simp] theorem settle_regAnswers (s : State) : (settle s).regAnswers = s.regAnswers := rfl
@[simp] theorem settle_regDraws (s : State) : (settle s).regDraws = s.regDraws := rfl
@[simp] theorem settle_initAnswers (s : State) : (settle s).initAnswers = s.initAnswers := rfl
@[simp] theorem settle_initDraws (s : State) : (settle s).initDraws = s.initDraws := rfl
@[simp] theorem settle_waitEnds (s : State) : (settle s).waitEnds = s.waitEnds := rfl
@[simp] theorem settle_waitDraws (s : State) : (settle s).waitDraws = s.waitDraws := rfl
@[simp] theorem settle_script (s : State) : (settle s).script = s.script := rfl
@[simp] theorem settle_trace (s : State) : (settle s).trace = Event.settle s.params.settleMinMs :: s.trace := rfl
@[simp] theorem settle_txTaken (s : State) : (settle s).txTaken = s.txTaken := rfl
@[simp] theorem settle_txCarry (s : State) : (settle s).txCarry = s.txCarry := rfl
@[simp] theorem settle_txRooms (s : State) : (settle s).txRooms = s.txRooms := rfl
@[simp] theorem settle_txSends (s : State) : (settle s).txSends = s.txSends := rfl
@[simp] theorem settle_lastWrite (s : State) : (settle s).lastWrite = s.lastWrite := rfl

/-! ### transportDown -/

@[simp] theorem transportDown_params (s : State) : (transportDown s).params = s.params := rfl
@[simp] theorem transportDown_phase (s : State) : (transportDown s).phase = s.phase := rfl
@[simp] theorem transportDown_pc (s : State) : (transportDown s).pc = s.pc := rfl
@[simp] theorem transportDown_exitCode (s : State) : (transportDown s).exitCode = s.exitCode := rfl
@[simp] theorem transportDown_shutdownPending (s : State) : (transportDown s).shutdownPending = s.shutdownPending := rfl
@[simp] theorem transportDown_transportUp (s : State) : (transportDown s).transportUp = false := rfl
@[simp] theorem transportDown_pinDbg (s : State) : (transportDown s).pinDbg = s.pinDbg := rfl
@[simp] theorem transportDown_pinRst (s : State) : (transportDown s).pinRst = s.pinRst := rfl
@[simp] theorem transportDown_pinCs (s : State) : (transportDown s).pinCs = s.pinCs := rfl
@[simp] theorem transportDown_cfgValid (s : State) : (transportDown s).cfgValid = s.cfgValid := rfl
@[simp] theorem transportDown_cfgValue (s : State) : (transportDown s).cfgValue = s.cfgValue := rfl
@[simp] theorem transportDown_rxBuf (s : State) : (transportDown s).rxBuf = s.rxBuf := rfl
@[simp] theorem transportDown_rxCnt (s : State) : (transportDown s).rxCnt = s.rxCnt := rfl
@[simp] theorem transportDown_rxClosed (s : State) : (transportDown s).rxClosed = s.rxClosed := rfl
@[simp] theorem transportDown_wrBuf (s : State) : (transportDown s).wrBuf = s.wrBuf := rfl
@[simp] theorem transportDown_wrCnt (s : State) : (transportDown s).wrCnt = s.wrCnt := rfl
@[simp] theorem transportDown_rdBuf (s : State) : (transportDown s).rdBuf = s.rdBuf := rfl
@[simp] theorem transportDown_t (s : State) : (transportDown s).t = s.t := rfl
@[simp] theorem transportDown_sLast (s : State) : (transportDown s).sLast = s.sLast := rfl
@[simp] theorem transportDown_stActive (s : State) : (transportDown s).stActive = s.stActive := rfl
@[simp] theorem transportDown_stCur (s : State) : (transportDown s).stCur = s.stCur := rfl
@[simp] theorem transportDown_stEnd (s : State) : (transportDown s).stEnd = s.stEnd := rfl
@[simp] theorem transportDown_stMedium (s : State) : (transportDown s).stMedium = s.stMedium := rfl
@[simp] theorem transportDown_curOp (s : State) : (transportDown s).curOp = s.curOp := rfl
@[simp] theorem transportDown_curLba (s : State) : (transportDown s).curLba = s.curLba := rfl
@[simp] theorem transportDown_err (s : State) : (transportDown s).err = s.err := rfl
@[simp] theorem transportDown_tmp (s : State) : (transportDown s).tmp = s.tmp := rfl
@[simp] theorem transportDown_rxQueue (s : State) : (transportDown s).rxQueue = s.rxQueue := rfl
@[simp] theorem transportDown_regAnswers (s : State) : (transportDown s).regAnswers = s.regAnswers := rfl
@[simp] theorem transportDown_regDraws (s : State) : (transportDown s).regDraws = s.regDraws := rfl
@[simp] theorem transportDown_initAnswers (s : State) : (transportDown s).initAnswers = s.initAnswers := rfl
@[simp] theorem transportDown_initDraws (s : State) : (transportDown s).initDraws = s.initDraws := rfl
@[simp] theorem transportDown_waitEnds (s : State) : (transportDown s).waitEnds = s.waitEnds := rfl
@[simp] theorem transportDown_waitDraws (s : State) : (transportDown s).waitDraws = s.waitDraws := rfl
@[simp] theorem transportDown_script (s : State) : (transportDown s).script = s.script := rfl
@[simp] theorem transportDown_trace (s : State) : (transportDown s).trace = Event.transportDown :: s.trace := rfl
@[simp] theorem transportDown_txTaken (s : State) : (transportDown s).txTaken = s.txTaken := rfl
@[simp] theorem transportDown_txCarry (s : State) : (transportDown s).txCarry = s.txCarry := rfl
@[simp] theorem transportDown_txRooms (s : State) : (transportDown s).txRooms = s.txRooms := rfl
@[simp] theorem transportDown_txSends (s : State) : (transportDown s).txSends = s.txSends := rfl
@[simp] theorem transportDown_lastWrite (s : State) : (transportDown s).lastWrite = s.lastWrite := rfl

/-! ### afterTransportUp -/

@[simp] theorem afterTransportUp_params (s : State) : (afterTransportUp s).params = s.params := rfl
@[simp] theorem afterTransportUp_phase (s : State) : (afterTransportUp s).phase = s.phase := rfl
@[simp] theorem afterTransportUp_pc (s : State) : (afterTransportUp s).pc = s.pc := rfl
@[simp] theorem afterTransportUp_exitCode (s : State) : (afterTransportUp s).exitCode = s.exitCode := rfl
@[simp] theorem afterTransportUp_shutdownPending (s : State) : (afterTransportUp s).shutdownPending = s.shutdownPending := rfl
@[simp] theorem afterTransportUp_transportUp (s : State) : (afterTransportUp s).transportUp = (s.transportUp || transportUpOk s) := rfl
@[simp] theorem afterTransportUp_pinDbg (s : State) : (afterTransportUp s).pinDbg = s.pinDbg := rfl
@[simp] theorem afterTransportUp_pinRst (s : State) : (afterTransportUp s).pinRst = s.pinRst := rfl
@[simp] theorem afterTransportUp_pinCs (s : State) : (afterTransportUp s).pinCs = s.pinCs := rfl
@[simp] theorem afterTransportUp_cfgValid (s : State) : (afterTransportUp s).cfgValid = s.cfgValid := rfl
@[simp] theorem afterTransportUp_cfgValue (s : State) : (afterTransportUp s).cfgValue = s.cfgValue := rfl
@[simp] theorem afterTransportUp_rxBuf (s : State) : (afterTransportUp s).rxBuf = s.rxBuf := rfl
@[simp] theorem afterTransportUp_rxCnt (s : State) : (afterTransportUp s).rxCnt = s.rxCnt := rfl
@[simp] theorem afterTransportUp_rxClosed (s : State) : (afterTransportUp s).rxClosed = s.rxClosed := rfl
@[simp] theorem afterTransportUp_wrBuf (s : State) : (afterTransportUp s).wrBuf = s.wrBuf := rfl
@[simp] theorem afterTransportUp_wrCnt (s : State) : (afterTransportUp s).wrCnt = s.wrCnt := rfl
@[simp] theorem afterTransportUp_rdBuf (s : State) : (afterTransportUp s).rdBuf = s.rdBuf := rfl
@[simp] theorem afterTransportUp_t (s : State) : (afterTransportUp s).t = s.t := rfl
@[simp] theorem afterTransportUp_sLast (s : State) : (afterTransportUp s).sLast = s.sLast := rfl
@[simp] theorem afterTransportUp_stActive (s : State) : (afterTransportUp s).stActive = s.stActive := rfl
@[simp] theorem afterTransportUp_stCur (s : State) : (afterTransportUp s).stCur = s.stCur := rfl
@[simp] theorem afterTransportUp_stEnd (s : State) : (afterTransportUp s).stEnd = s.stEnd := rfl
@[simp] theorem afterTransportUp_stMedium (s : State) : (afterTransportUp s).stMedium = s.stMedium := rfl
@[simp] theorem afterTransportUp_curOp (s : State) : (afterTransportUp s).curOp = s.curOp := rfl
@[simp] theorem afterTransportUp_curLba (s : State) : (afterTransportUp s).curLba = s.curLba := rfl
@[simp] theorem afterTransportUp_err (s : State) : (afterTransportUp s).err = s.err := rfl
@[simp] theorem afterTransportUp_tmp (s : State) : (afterTransportUp s).tmp = s.tmp := rfl
@[simp] theorem afterTransportUp_rxQueue (s : State) : (afterTransportUp s).rxQueue = s.rxQueue := rfl
@[simp] theorem afterTransportUp_regAnswers (s : State) : (afterTransportUp s).regAnswers = s.regAnswers := rfl
@[simp] theorem afterTransportUp_regDraws (s : State) : (afterTransportUp s).regDraws = s.regDraws := rfl
@[simp] theorem afterTransportUp_initAnswers (s : State) : (afterTransportUp s).initAnswers = s.initAnswers.tail := rfl
@[simp] theorem afterTransportUp_initDraws (s : State) : (afterTransportUp s).initDraws = (if s.initAnswers.isEmpty then s.initDraws + 1 else s.initDraws) := rfl
@[simp] theorem afterTransportUp_waitEnds (s : State) : (afterTransportUp s).waitEnds = s.waitEnds := rfl
@[simp] theorem afterTransportUp_waitDraws (s : State) : (afterTransportUp s).waitDraws = s.waitDraws := rfl
@[simp] theorem afterTransportUp_script (s : State) : (afterTransportUp s).script = s.script := rfl
@[simp] theorem afterTransportUp_trace (s : State) : (afterTransportUp s).trace = Event.transportUp (transportUpOk s) :: s.trace := rfl
@[simp] theorem afterTransportUp_txTaken (s : State) : (afterTransportUp s).txTaken = s.txTaken := rfl
@[simp] theorem afterTransportUp_txCarry (s : State) : (afterTransportUp s).txCarry = s.txCarry := rfl
@[simp] theorem afterTransportUp_txRooms (s : State) : (afterTransportUp s).txRooms = s.txRooms := rfl
@[simp] theorem afterTransportUp_txSends (s : State) : (afterTransportUp s).txSends = s.txSends := rfl
@[simp] theorem afterTransportUp_lastWrite (s : State) : (afterTransportUp s).lastWrite = s.lastWrite := rfl

end Sys2Proof.Machine
end

