-- ==== Sys2Proof/Laws/Outputs.lean ====
section
/-! SUPPORT. The views of the trace, the draws of the transport oracle, and the record of the remote window. -/

namespace Sys2Proof.Machine

open Sys2Proof

/-! ### Views of the trace -/

theorem history_cons {s : State} {e : Event} {es : List Event} (h : s.trace = e :: es) :
    s.history = es.reverse ++ [e] := by
  simp [State.history, h]

@[simp] theorem history_emit (e : Event) (s : State) : (emit e s).history = s.history ++ [e] := by
  simp [State.history]

/-- The transmit stream of a longer history. -/
theorem tx_append {s t : State} {es : List Event} (h : t.history = s.history ++ es) :
    t.tx = s.tx ++ es.flatMap eventBytes := by
  simp [State.tx, h]

/-- The register trace of a longer history. -/
theorem regTrace_append {s t : State} {es : List Event} (h : t.history = s.history ++ es) :
    t.regTrace = s.regTrace ++ es.filter isTransaction := by
  simp [State.regTrace, h]

/-- The line trace of a longer history. -/
theorem lineTrace_append {s t : State} {es : List Event} (h : t.history = s.history ++ es) :
    t.lineTrace = s.lineTrace ++ es.filter isLineEvent := by
  simp [State.lineTrace, h]

/-- The observation of a longer history. -/
theorem visible_append {s t : State} {es : List Event} (h : t.history = s.history ++ es) :
    t.visible = s.visible ++ es.filter fun e => !isLog e := by
  simp [State.visible, h]

/-- The transmit stream is part of the observation. -/
theorem tx_eq_visible (s : State) : s.tx = s.visible.flatMap eventBytes := by
  unfold State.tx State.visible
  induction s.history with
  | nil => rfl
  | cons e es ih => cases e <;> simp_all [eventBytes, isLog, List.filter]

/-- The register trace is part of the observation. -/
theorem regTrace_eq_visible (s : State) : s.regTrace = s.visible.filter isTransaction := by
  unfold State.regTrace State.visible
  induction s.history with
  | nil => rfl
  | cons e es ih => cases e <;> simp_all [isTransaction, isLog, List.filter]

/-- The line trace is part of the observation. -/
theorem lineTrace_eq_visible (s : State) : s.lineTrace = s.visible.filter isLineEvent := by
  unfold State.lineTrace State.visible
  induction s.history with
  | nil => rfl
  | cons e es ih => cases e <;> simp_all [isLineEvent, isLog, List.filter]

theorem tx_of_visible {s t : State} {es : List Event} (h : t.visible = s.visible ++ es) :
    t.tx = s.tx ++ es.flatMap eventBytes := by
  simp [tx_eq_visible, h]

theorem regTrace_of_visible {s t : State} {es : List Event} (h : t.visible = s.visible ++ es) :
    t.regTrace = s.regTrace ++ es.filter isTransaction := by
  simp [regTrace_eq_visible, h]

theorem lineTrace_of_visible {s t : State} {es : List Event} (h : t.visible = s.visible ++ es) :
    t.lineTrace = s.lineTrace ++ es.filter isLineEvent := by
  simp [lineTrace_eq_visible, h]

/-! ### The serial link to the host -/

/-- The bytes on the link of a longer history. -/
theorem sent_append {s t : State} {es : List Event} (h : t.history = s.history ++ es) (hc : t.txCarry = s.txCarry) :
    t.sent = s.sent ++ es.flatMap eventBytes := by
  simp [State.sent, tx_append h, hc]

/-- Bytes sent join those in flight behind them; none is dropped (60 R265). -/
theorem inFlight_append {s t : State} {bytes : List Byte} (h : t.sent = s.sent ++ bytes) (ht : t.txTaken = s.txTaken)
    (hs : s.txTaken ≤ s.sent.length) : t.inFlight = s.inFlight ++ bytes := by
  rw [State.inFlight, h, ht, List.drop_append_of_le_length hs, State.inFlight]

/-- Taking bytes off the link takes the oldest in flight. -/
theorem inFlight_hostTake (n : Nat) (s : State) : (hostTake n s).inFlight = s.inFlight.drop n := by
  have h : (hostTake n s).inFlight = s.sent.drop (min (s.txTaken + n) s.sent.length) := rfl
  rw [h, State.inFlight, List.drop_drop]
  by_cases hn : s.txTaken + n ≤ s.sent.length
  · rw [Nat.min_eq_left hn]
  · rw [Nat.min_eq_right (by omega), List.drop_length, List.drop_eq_nil_of_le (by omega)]

/-- A reset leaves the bytes in flight where they are (70 R290). -/
theorem inFlight_reset (s : State) : (resetEngine s).inFlight = s.inFlight := by
  have h : (resetEngine s).inFlight = (s.inFlight ++ []).drop 0 := rfl
  simp [h]

/-- Right after a reset no send makes the engine wait. -/
theorem held_reset (s : State) : (resetEngine s).held = false := rfl

/-- An update that touches no event, no taken byte and no pc leaves the engine held back or not as it was. -/
theorem waitsForHost_congr {s t : State} (h : t.trace = s.trace) (hc : t.txCarry = s.txCarry) (ht : t.txTaken = s.txTaken)
    (hr : t.txRooms = s.txRooms) (hn : t.txSends = s.txSends) : t.waitsForHost = s.waitsForHost := by
  simp [State.waitsForHost, State.sends, State.room, State.inFlight, State.sent, State.tx, State.history, h, hc, ht, hr, hn]

/-- Taking a byte of the receive stream neither starts nor ends a wait for the host. -/
theorem waitsForHost_takeByte (s : State) (b : Byte) (rest : List Byte) :
    (takeByte s b rest).waitsForHost = s.waitsForHost := by
  simp [takeByte, emit, State.waitsForHost, State.sends, State.room, State.inFlight, State.sent, State.tx, State.history,
    isSend, eventBytes]

/-! ### Draws -/

/-- Passing an answer moves every later one up by one place. -/
@[simp] theorem answer_dropAnswer (s : State) (k : Nat) : (dropAnswer s).answer k = s.answer (k + 1) := by
  unfold State.answer dropAnswer
  cases h : s.regAnswers with
  | nil => simp; congr 1; omega
  | cons a as => simp

/-- Answers depend on the list and the counter alone. -/
theorem answer_congr {s t : State} (h₁ : t.regAnswers = s.regAnswers) (h₂ : t.regDraws = s.regDraws) (k : Nat) :
    t.answer k = s.answer k := by
  simp [State.answer, h₁, h₂]

/-! ### The record of the remote window -/

theorem windowWfFrom_mono {m : List (Nat × Word)} {lo lo' : Nat} (h : windowWfFrom lo m = true) (hle : lo' ≤ lo) :
    windowWfFrom lo' m = true := by
  cases m with
  | nil => rfl
  | cons p rest =>
    obtain ⟨b, w⟩ := p
    simp only [windowWfFrom, Bool.and_eq_true, decide_eq_true_eq] at h ⊢
    exact ⟨by omega, h.2⟩

theorem windowWfFrom_write {m : List (Nat × Word)} {lo a : Nat} (v : Word) (h : windowWfFrom lo m = true) (ha : lo ≤ a) :
    windowWfFrom lo (windowWrite m a v) = true := by
  induction m generalizing lo with
  | nil => simp [windowWrite, windowWfFrom, ha]
  | cons p rest ih =>
    obtain ⟨b, w⟩ := p
    simp only [windowWfFrom, Bool.and_eq_true, decide_eq_true_eq] at h
    obtain ⟨hb, hrest⟩ := h
    unfold windowWrite
    split_ifs with h₁ h₂
    · simp only [windowWfFrom, Bool.and_eq_true, decide_eq_true_eq]
      exact ⟨ha, by omega, hrest⟩
    · subst h₂
      simp only [windowWfFrom, Bool.and_eq_true, decide_eq_true_eq]
      exact ⟨ha, hrest⟩
    · simp only [windowWfFrom, Bool.and_eq_true, decide_eq_true_eq]
      exact ⟨hb, ih hrest (by omega)⟩

/-- A register write keeps the canonical form. -/
theorem windowWrite_wf {m : List (Nat × Word)} (h : windowWf m = true) (a : Nat) (v : Word) :
    windowWf (windowWrite m a v) = true :=
  windowWfFrom_write v h (Nat.zero_le a)

/-- Read after write at the same address. -/
theorem windowRead_write_self (m : List (Nat × Word)) (a : Nat) (v : Word) :
    windowRead (windowWrite m a v) a = some v := by
  induction m with
  | nil => simp [windowWrite, windowRead]
  | cons p rest ih =>
    obtain ⟨b, w⟩ := p
    unfold windowWrite
    split_ifs with h₁ h₂
    · simp [windowRead]
    · simp [windowRead]
    · simp [windowRead, h₂, ih]

/-- A write leaves every other address alone. -/
theorem windowRead_write_other (m : List (Nat × Word)) {a c : Nat} (v : Word) (h : c ≠ a) :
    windowRead (windowWrite m a v) c = windowRead m c := by
  induction m with
  | nil => simp [windowWrite, windowRead, h]
  | cons p rest ih =>
    obtain ⟨b, w⟩ := p
    unfold windowWrite
    split_ifs with h₁ h₂
    · simp [windowRead, h]
    · subst h₂; simp [windowRead, h]
    · simp [windowRead, ih]

/-- The canonical form of the window at reset. -/
theorem reset_window : windowWf State.reset.lastWrite = true := rfl

/-- Different registers have different addresses. -/
theorem regAddr_injective {r r' : Reg} (h : regAddr r = regAddr r') : r = r' := by
  cases r <;> cases r' <;> simp_all [regAddr]

end Sys2Proof.Machine
end

