-- ==== Sys2Proof/Laws/Effect.lean ====
section
/-! SUPPORT. What a sequence of register transactions does, said once: the events it adds, the answers it takes, and what it
leaves alone. Every operation of the NAND engine has its effect in this form. -/

namespace Sys2Proof.Machine

open Sys2Proof

/-- From `s` to `t` the engine adds the events `es`, and takes `n` answers of the transport oracle. -/
structure Effect (s t : State) (n : Nat) (es : List Event) : Prop where
  history : t.history = s.history ++ es
  answers : ∀ k, t.answer k = s.answer (n + k)

theorem Effect.refl (s : State) : Effect s s 0 [] := ⟨by simp, by simp⟩

theorem Effect.trans {s t u : State} {n m : Nat} {es fs : List Event} (h : Effect s t n es) (h' : Effect t u m fs) :
    Effect s u (n + m) (es ++ fs) :=
  ⟨by rw [h'.history, h.history, List.append_assoc], fun k => by rw [h'.answers, h.answers, Nat.add_assoc]⟩

theorem Effect.tx {s t : State} {n : Nat} {es : List Event} (h : Effect s t n es) :
    t.tx = s.tx ++ es.flatMap eventBytes := tx_append h.history

theorem Effect.regTrace {s t : State} {n : Nat} {es : List Event} (h : Effect s t n es) :
    t.regTrace = s.regTrace ++ es.filter isTransaction := regTrace_append h.history

theorem Effect.lineTrace {s t : State} {n : Nat} {es : List Event} (h : Effect s t n es) :
    t.lineTrace = s.lineTrace ++ es.filter isLineEvent := lineTrace_append h.history

/-- An update that adds no event and takes no answer. -/
theorem Effect.of_eq {s t : State} (h₁ : t.trace = s.trace) (h₂ : t.regAnswers = s.regAnswers)
    (h₃ : t.regDraws = s.regDraws) : Effect s t 0 [] :=
  ⟨by simp [State.history, h₁], fun k => by simpa using answer_congr h₂ h₃ k⟩

/-- An update that adds one event and takes no answer. -/
theorem Effect.of_event {s t : State} {e : Event} (h₁ : t.trace = e :: s.trace) (h₂ : t.regAnswers = s.regAnswers)
    (h₃ : t.regDraws = s.regDraws) : Effect s t 0 [e] :=
  ⟨by simp [State.history, h₁], fun k => by simpa using answer_congr h₂ h₃ k⟩

/-- A register read. -/
theorem Effect.of_read {s t : State} (r : Reg) (h₁ : t.trace = .regRead (regAddr r) (s.answer 0) :: s.trace)
    (h₂ : t.regAnswers = (dropAnswer s).regAnswers) (h₃ : t.regDraws = (dropAnswer s).regDraws) :
    Effect s t 1 [.regRead (regAddr r) (s.answer 0)] :=
  ⟨by simp [State.history, h₁], fun k => by
    rw [answer_congr h₂ h₃, answer_dropAnswer, Nat.add_comm]⟩

/-! ### What the NAND engine's transactions leave alone -/

/-- A state with everything set aside that a NAND operation may change (the configuration cache apart). -/
def scrub (s : State) : State :=
  { s with
    trace := []
    lastWrite := []
    regAnswers := []
    regDraws := 0
    t := 0#16
    sLast := 0#16
    tmp := 0#32
    rdBuf := Vector.replicate 528 0#8
    err := 0#32 }

/-! The fields that `scrub` keeps. -/

@[simp] theorem scrub_params (s : State) : (scrub s).params = s.params := rfl
@[simp] theorem scrub_phase (s : State) : (scrub s).phase = s.phase := rfl
@[simp] theorem scrub_pc (s : State) : (scrub s).pc = s.pc := rfl
@[simp] theorem scrub_exitCode (s : State) : (scrub s).exitCode = s.exitCode := rfl
@[simp] theorem scrub_shutdownPending (s : State) : (scrub s).shutdownPending = s.shutdownPending := rfl
@[simp] theorem scrub_transportUp (s : State) : (scrub s).transportUp = s.transportUp := rfl
@[simp] theorem scrub_pinDbg (s : State) : (scrub s).pinDbg = s.pinDbg := rfl
@[simp] theorem scrub_pinRst (s : State) : (scrub s).pinRst = s.pinRst := rfl
@[simp] theorem scrub_pinCs (s : State) : (scrub s).pinCs = s.pinCs := rfl
@[simp] theorem scrub_cfgValid (s : State) : (scrub s).cfgValid = s.cfgValid := rfl
@[simp] theorem scrub_cfgValue (s : State) : (scrub s).cfgValue = s.cfgValue := rfl
@[simp] theorem scrub_rxBuf (s : State) : (scrub s).rxBuf = s.rxBuf := rfl
@[simp] theorem scrub_rxCnt (s : State) : (scrub s).rxCnt = s.rxCnt := rfl
@[simp] theorem scrub_rxClosed (s : State) : (scrub s).rxClosed = s.rxClosed := rfl
@[simp] theorem scrub_wrBuf (s : State) : (scrub s).wrBuf = s.wrBuf := rfl
@[simp] theorem scrub_wrCnt (s : State) : (scrub s).wrCnt = s.wrCnt := rfl
@[simp] theorem scrub_stActive (s : State) : (scrub s).stActive = s.stActive := rfl
@[simp] theorem scrub_stCur (s : State) : (scrub s).stCur = s.stCur := rfl
@[simp] theorem scrub_stEnd (s : State) : (scrub s).stEnd = s.stEnd := rfl
@[simp] theorem scrub_stMedium (s : State) : (scrub s).stMedium = s.stMedium := rfl
@[simp] theorem scrub_curOp (s : State) : (scrub s).curOp = s.curOp := rfl
@[simp] theorem scrub_curLba (s : State) : (scrub s).curLba = s.curLba := rfl
@[simp] theorem scrub_rxQueue (s : State) : (scrub s).rxQueue = s.rxQueue := rfl
@[simp] theorem scrub_initAnswers (s : State) : (scrub s).initAnswers = s.initAnswers := rfl
@[simp] theorem scrub_initDraws (s : State) : (scrub s).initDraws = s.initDraws := rfl
@[simp] theorem scrub_waitEnds (s : State) : (scrub s).waitEnds = s.waitEnds := rfl
@[simp] theorem scrub_waitDraws (s : State) : (scrub s).waitDraws = s.waitDraws := rfl
@[simp] theorem scrub_script (s : State) : (scrub s).script = s.script := rfl
@[simp] theorem scrub_txTaken (s : State) : (scrub s).txTaken = s.txTaken := rfl
@[simp] theorem scrub_txCarry (s : State) : (scrub s).txCarry = s.txCarry := rfl
@[simp] theorem scrub_txRooms (s : State) : (scrub s).txRooms = s.txRooms := rfl
@[simp] theorem scrub_txSends (s : State) : (scrub s).txSends = s.txSends := rfl

theorem rest_params {s u : State} (h : scrub u = scrub s) : u.params = s.params := by simpa using congrArg State.params h
theorem rest_phase {s u : State} (h : scrub u = scrub s) : u.phase = s.phase := by simpa using congrArg State.phase h
theorem rest_pc {s u : State} (h : scrub u = scrub s) : u.pc = s.pc := by simpa using congrArg State.pc h
theorem rest_exitCode {s u : State} (h : scrub u = scrub s) : u.exitCode = s.exitCode := by simpa using congrArg State.exitCode h
theorem rest_shutdownPending {s u : State} (h : scrub u = scrub s) : u.shutdownPending = s.shutdownPending := by simpa using congrArg State.shutdownPending h
theorem rest_transportUp {s u : State} (h : scrub u = scrub s) : u.transportUp = s.transportUp := by simpa using congrArg State.transportUp h
theorem rest_pinDbg {s u : State} (h : scrub u = scrub s) : u.pinDbg = s.pinDbg := by simpa using congrArg State.pinDbg h
theorem rest_pinRst {s u : State} (h : scrub u = scrub s) : u.pinRst = s.pinRst := by simpa using congrArg State.pinRst h
theorem rest_pinCs {s u : State} (h : scrub u = scrub s) : u.pinCs = s.pinCs := by simpa using congrArg State.pinCs h
theorem rest_cfgValid {s u : State} (h : scrub u = scrub s) : u.cfgValid = s.cfgValid := by simpa using congrArg State.cfgValid h
theorem rest_cfgValue {s u : State} (h : scrub u = scrub s) : u.cfgValue = s.cfgValue := by simpa using congrArg State.cfgValue h
theorem rest_rxBuf {s u : State} (h : scrub u = scrub s) : u.rxBuf = s.rxBuf := by simpa using congrArg State.rxBuf h
theorem rest_rxCnt {s u : State} (h : scrub u = scrub s) : u.rxCnt = s.rxCnt := by simpa using congrArg State.rxCnt h
theorem rest_rxClosed {s u : State} (h : scrub u = scrub s) : u.rxClosed = s.rxClosed := by simpa using congrArg State.rxClosed h
theorem rest_wrBuf {s u : State} (h : scrub u = scrub s) : u.wrBuf = s.wrBuf := by simpa using congrArg State.wrBuf h
theorem rest_wrCnt {s u : State} (h : scrub u = scrub s) : u.wrCnt = s.wrCnt := by simpa using congrArg State.wrCnt h
theorem rest_stActive {s u : State} (h : scrub u = scrub s) : u.stActive = s.stActive := by simpa using congrArg State.stActive h
theorem rest_stCur {s u : State} (h : scrub u = scrub s) : u.stCur = s.stCur := by simpa using congrArg State.stCur h
theorem rest_stEnd {s u : State} (h : scrub u = scrub s) : u.stEnd = s.stEnd := by simpa using congrArg State.stEnd h
theorem rest_stMedium {s u : State} (h : scrub u = scrub s) : u.stMedium = s.stMedium := by simpa using congrArg State.stMedium h
theorem rest_curOp {s u : State} (h : scrub u = scrub s) : u.curOp = s.curOp := by simpa using congrArg State.curOp h
theorem rest_curLba {s u : State} (h : scrub u = scrub s) : u.curLba = s.curLba := by simpa using congrArg State.curLba h
theorem rest_rxQueue {s u : State} (h : scrub u = scrub s) : u.rxQueue = s.rxQueue := by simpa using congrArg State.rxQueue h
theorem rest_initAnswers {s u : State} (h : scrub u = scrub s) : u.initAnswers = s.initAnswers := by simpa using congrArg State.initAnswers h
theorem rest_initDraws {s u : State} (h : scrub u = scrub s) : u.initDraws = s.initDraws := by simpa using congrArg State.initDraws h
theorem rest_waitEnds {s u : State} (h : scrub u = scrub s) : u.waitEnds = s.waitEnds := by simpa using congrArg State.waitEnds h
theorem rest_waitDraws {s u : State} (h : scrub u = scrub s) : u.waitDraws = s.waitDraws := by simpa using congrArg State.waitDraws h
theorem rest_script {s u : State} (h : scrub u = scrub s) : u.script = s.script := by simpa using congrArg State.script h
theorem rest_txTaken {s u : State} (h : scrub u = scrub s) : u.txTaken = s.txTaken := by simpa using congrArg State.txTaken h
theorem rest_txCarry {s u : State} (h : scrub u = scrub s) : u.txCarry = s.txCarry := by simpa using congrArg State.txCarry h
theorem rest_txRooms {s u : State} (h : scrub u = scrub s) : u.txRooms = s.txRooms := by simpa using congrArg State.txRooms h
theorem rest_txSends {s u : State} (h : scrub u = scrub s) : u.txSends = s.txSends := by simpa using congrArg State.txSends h

/-- The rest of the state is as it was. -/
theorem frame_of_scrub {s t : State} (h : scrub t = scrub s) :
    { t with
      trace := s.trace
      lastWrite := s.lastWrite
      regAnswers := s.regAnswers
      regDraws := s.regDraws
      t := s.t
      sLast := s.sLast
      tmp := s.tmp
      rdBuf := s.rdBuf
      err := s.err } = s := by
  cases s; cases t
  simp only [scrub, State.mk.injEq] at h ⊢
  simp_all

/-- The straight-line steps of the NAND operations and of the replies that change no more than `scrub` sets aside. -/
def quiet : Act → Bool
  | .write _ _ => true
  | .clearRead => true
  | .clearWrite => true
  | .enableRead => true
  | .enableWrite => true
  | .fillWord _ => true
  | .drainWord _ => true
  | .errStatus => true
  | .errForm _ => true
  | .sendVersion => true
  | .sendConfig => true
  | .sendOk => true
  | .sendSector => true
  | .sendErr => true
  | .log _ => true
  | _ => false

theorem scrub_fire {a : Act} (h : quiet a = true) (s : State) : scrub (fire a s) = scrub s := by
  cases a <;> simp [quiet] at h <;> simp only [fire]
  case errStatus => split <;> simp [scrub]
  all_goals simp [scrub]

theorem scrub_perform {as : List Act} (h : ∀ a ∈ as, quiet a = true) (s : State) : scrub (perform as s) = scrub s := by
  induction as generalizing s with
  | nil => rfl
  | cons a as ih =>
    exact (ih (fun b hb => h b (List.mem_cons_of_mem _ hb)) (fire a s)).trans (scrub_fire (h a List.mem_cons_self) s)

@[simp] theorem perform_nil (s : State) : perform [] s = s := rfl

@[simp] theorem perform_cons (a : Act) (as : List Act) (s : State) : perform (a :: as) s = perform as (fire a s) := rfl

theorem perform_append (as bs : List Act) (s : State) : perform (as ++ bs) s = perform bs (perform as s) := by
  simp [perform]

end Sys2Proof.Machine
end

