-- ==== Sys2Proof/Laws/Nand.lean ====
section
/-! SUPPORT. The NAND engine's waits and sequences, each with its events in closed form. -/

namespace Sys2Proof.Machine

open Sys2Proof

/-! ### wait_ready -/

/-- A wait ends one way or the other. -/
theorem ready_or_never (a : Nat → Word) (T : Nat) : (∃ p, ReadyAt a T p) ∨ NeverReady a T := by
  by_cases h : ∃ p, p ≤ T ∧ busy (statusOf (a p)) = false
  · left
    refine ⟨Nat.find h, (Nat.find_spec h).1, fun i hi => ?_, (Nat.find_spec h).2⟩
    have := Nat.find_min h hi
    have hle := (Nat.find_spec h).1
    simp only [not_and, Bool.not_eq_false] at this
    exact this (by omega)
  · right
    intro i hi
    by_contra hb
    exact h ⟨i, hi, by simpa using hb⟩

theorem pollStatus_effect (s : State) : Effect s (pollStatus s) 1 [.regRead 0x04#8 (s.answer 0)] :=
  Effect.of_read .status rfl rfl rfl

theorem countDown_effect (s : State) : Effect s (countDown s) 0 [] :=
  Effect.of_eq rfl rfl rfl

theorem pollEvents_succ (a : Nat → Word) (n : Nat) :
    pollEvents a (n + 1) = .regRead 0x04#8 (a 0) :: pollEvents (shift 1 a) n := by
  simp only [pollEvents, shift, List.range_succ_eq_map, List.map_cons, List.map_map]
  congr 1
  refine List.map_congr_left fun i _ => ?_
  simp [Nat.add_comm]

/-- What a wait leaves alone: all but the trace, the answers taken, and its own two registers. -/
structure WaitFrame (s u : State) : Prop where
  scrub : scrub u = scrub s
  tmp : u.tmp = s.tmp
  rdBuf : u.rdBuf = s.rdBuf
  err : u.err = s.err
  lastWrite : u.lastWrite = s.lastWrite

theorem WaitFrame.poll (s : State) : WaitFrame s (pollStatus s) := by constructor <;> simp [Machine.scrub]

theorem WaitFrame.count (s : State) : WaitFrame s (countDown s) := by constructor <;> simp [Machine.scrub]

theorem WaitFrame.start (s : State) : WaitFrame s (startWait s) := by constructor <;> simp [Machine.scrub]

theorem WaitFrame.trans {s u v : State} (h : WaitFrame s u) (h' : WaitFrame u v) : WaitFrame s v :=
  ⟨h'.scrub.trans h.scrub, h'.tmp.trans h.tmp, h'.rdBuf.trans h.rdBuf, h'.err.trans h.err, h'.lastWrite.trans h.lastWrite⟩

/-- The loop of `wait_ready`, Ready on poll `p + 1` (40 R133). -/
theorem waitLoop_ready {n p : Nat} {s : State} (h : ReadyAt s.answer n p) :
    (waitLoop n s).1 = true ∧ Effect s (waitLoop n s).2 (p + 1) (pollEvents s.answer (p + 1))
      ∧ WaitFrame s (waitLoop n s).2 ∧ (waitLoop n s).2.sLast = statusOf (s.answer p) := by
  induction n generalizing s p with
  | zero =>
    obtain ⟨hp, -, hr⟩ := h
    obtain rfl : p = 0 := by omega
    refine ⟨by simp [waitLoop, hr], ?_, by simpa [waitLoop] using WaitFrame.poll s, by simp [waitLoop]⟩
    simpa [waitLoop, pollEvents] using pollStatus_effect s
  | succ n ih =>
    obtain ⟨hp, hb, hr⟩ := h
    cases p with
    | zero =>
      have : busy (pollStatus s).sLast = false := by simpa using hr
      simp only [waitLoop, this, Bool.false_eq_true, if_false]
      refine ⟨trivial, ?_, WaitFrame.poll s, by simp⟩
      simpa [pollEvents] using pollStatus_effect s
    | succ p =>
      have hbusy : busy (pollStatus s).sLast = true := by simpa using hb 0 (by omega)
      simp only [waitLoop, hbusy, if_true]
      have hans : ∀ k, (countDown (pollStatus s)).answer k = s.answer (1 + k) := fun k => by
        rw [(countDown_effect _).answers, (pollStatus_effect s).answers, Nat.zero_add]
      have h' : ReadyAt (countDown (pollStatus s)).answer n p := by
        refine ⟨by omega, fun i hi => ?_, ?_⟩
        · rw [hans]; simpa [Nat.add_comm] using hb (i + 1) (by omega)
        · rw [hans]; simpa [Nat.add_comm] using hr
      obtain ⟨h₁, h₂, h₃, h₄⟩ := ih h'
      refine ⟨h₁, ?_, ((WaitFrame.poll s).trans (WaitFrame.count _)).trans h₃, ?_⟩
      · have := ((pollStatus_effect s).trans (countDown_effect _)).trans h₂
        rw [pollEvents_succ]
        have he : pollEvents (countDown (pollStatus s)).answer (p + 1) = pollEvents (shift 1 s.answer) (p + 1) := by
          rw [show (countDown (pollStatus s)).answer = shift 1 s.answer from funext hans]
        rw [he] at this
        simpa [Nat.add_comm] using this
      · rw [h₄, hans, Nat.add_comm]

/-- The loop of `wait_ready`, NotReady after `n + 1` polls (40 R133). -/
theorem waitLoop_never {n : Nat} {s : State} (h : NeverReady s.answer n) :
    (waitLoop n s).1 = false ∧ Effect s (waitLoop n s).2 (n + 1) (pollEvents s.answer (n + 1))
      ∧ WaitFrame s (waitLoop n s).2 ∧ (waitLoop n s).2.sLast = statusOf (s.answer n) := by
  induction n generalizing s with
  | zero =>
    have hb := h 0 (Nat.le_refl 0)
    refine ⟨by simp [waitLoop, hb], ?_, by simpa [waitLoop] using WaitFrame.poll s, by simp [waitLoop]⟩
    simpa [waitLoop, pollEvents] using pollStatus_effect s
  | succ n ih =>
    have hbusy : busy (pollStatus s).sLast = true := by simpa using h 0 (by omega)
    simp only [waitLoop, hbusy, if_true]
    have hans : ∀ k, (countDown (pollStatus s)).answer k = s.answer (1 + k) := fun k => by
      rw [(countDown_effect _).answers, (pollStatus_effect s).answers, Nat.zero_add]
    have h' : NeverReady (countDown (pollStatus s)).answer n := fun i hi => by
      rw [hans]; exact h (1 + i) (by omega)
    obtain ⟨h₁, h₂, h₃, h₄⟩ := ih h'
    refine ⟨h₁, ?_, ((WaitFrame.poll s).trans (WaitFrame.count _)).trans h₃, ?_⟩
    · have := ((pollStatus_effect s).trans (countDown_effect _)).trans h₂
      rw [pollEvents_succ]
      have he : pollEvents (countDown (pollStatus s)).answer (n + 1) = pollEvents (shift 1 s.answer) (n + 1) := by
        rw [show (countDown (pollStatus s)).answer = shift 1 s.answer from funext hans]
      rw [he] at this
      simpa [Nat.add_comm] using this
    · rw [h₄, hans, Nat.add_comm]

theorem startWait_effect (s : State) : Effect s (startWait s) 0 [] := Effect.of_eq rfl rfl rfl

theorem startWait_answer (s : State) : (startWait s).answer = s.answer := rfl

/-- `wait_ready` Ready on poll `p + 1` (40 R133). -/
theorem waitReady_ready {p : Nat} {s : State} (h : ReadyAt s.answer s.params.waitBudget.toNat p) :
    ∃ u, waitReady s = (true, u) ∧ Effect s u (p + 1) (pollEvents s.answer (p + 1)) ∧ WaitFrame s u
      ∧ u.sLast = statusOf (s.answer p) := by
  obtain ⟨h₁, h₂, h₃, h₄⟩ := waitLoop_ready (s := startWait s) h
  refine ⟨_, Prod.ext h₁ rfl, ?_, (WaitFrame.start s).trans h₃, h₄⟩
  have h := (startWait_effect s).trans h₂
  simp only [Nat.zero_add, List.nil_append] at h
  exact h

/-- `wait_ready` NotReady (40 R133). -/
theorem waitReady_never {s : State} (h : NeverReady s.answer s.params.waitBudget.toNat) :
    ∃ u, waitReady s = (false, u)
      ∧ Effect s u (s.params.waitBudget.toNat + 1) (pollEvents s.answer (s.params.waitBudget.toNat + 1)) ∧ WaitFrame s u
      ∧ u.sLast = statusOf (s.answer s.params.waitBudget.toNat) := by
  obtain ⟨h₁, h₂, h₃, h₄⟩ := waitLoop_never (s := startWait s) h
  refine ⟨_, Prod.ext h₁ rfl, ?_, (WaitFrame.start s).trans h₃, h₄⟩
  have h := (startWait_effect s).trans h₂
  simp only [Nat.zero_add, List.nil_append] at h
  exact h

/-! ### Straight-line steps -/

@[simp] theorem regAddr_cfg : regAddr .cfg = 0x00#8 := rfl
@[simp] theorem regAddr_status : regAddr .status = 0x04#8 := rfl
@[simp] theorem regAddr_cmd : regAddr .cmd = 0x08#8 := rfl
@[simp] theorem regAddr_addr : regAddr .addr = 0x0C#8 := rfl
@[simp] theorem regAddr_data : regAddr .data = 0x10#8 := rfl

theorem write_effect (r : Reg) (v : Word) (s : State) : Effect s (fire (.write r v) s) 0 [.regWrite (regAddr r) v] :=
  Effect.of_event rfl rfl rfl

/-- `clear_status` (40 R132). -/
theorem clear_effect (s : State) :
    Effect s (perform [.clearRead, .clearWrite] s) 1 (clearEvents s.answer) := by
  have h₁ : Effect s (fire .clearRead s) 1 [.regRead 0x04#8 (s.answer 0)] := Effect.of_read .status rfl rfl rfl
  have h₂ : Effect (fire .clearRead s) (fire .clearWrite (fire .clearRead s)) 0 [.regWrite 0x04#8 (s.answer 0)] :=
    Effect.of_event rfl rfl rfl
  exact h₁.trans h₂

/-- `read_block` steps 1 to 3 (40 R135). -/
theorem readSetup_effect (lba : Word) (s : State) :
    Effect s (perform (readSetup lba) s) 1 (readSetupEvents s.answer lba) :=
  ((clear_effect s).trans (write_effect .addr (byteAddress lba) _)).trans (write_effect .cmd 0x03#32 _)

/-- `erase_block` steps 1 to 7 (40 R138). -/
theorem eraseSetup_effect (lba : Word) (s : State) :
    Effect s (perform (eraseSetup lba) s) 2 (eraseSetupEvents s.answer lba) := by
  have h₁ := clear_effect s
  generalize hu : perform [.clearRead, .clearWrite] s = u at h₁
  have h₂ : Effect u (fire .enableRead u) 1 [.regRead 0x00#8 (u.answer 0)] := Effect.of_read .cfg rfl rfl rfl
  have h₃ : Effect (fire .enableRead u) (fire .enableWrite (fire .enableRead u)) 0 [.regWrite 0x00#8 (u.answer 0 ||| 0x08#32)] :=
    Effect.of_event rfl rfl rfl
  have h := ((((((h₁.trans h₂).trans h₃).trans (write_effect .addr (byteAddress lba) _)).trans
    (write_effect .cmd 0xAA#32 _)).trans (write_effect .cmd 0x55#32 _)).trans (write_effect .cmd 0x05#32 _))
  rw [h₁.answers] at h
  subst hu
  exact h

theorem addr_effect (lba : Word) (s : State) : Effect s (perform (writeAddr lba) s) 0 (addrEvents lba) :=
  write_effect .addr (byteAddress lba) s

theorem commit_effect (s : State) : Effect s (perform writeCommit s) 0 commitEvents :=
  ((write_effect .cmd 0x55#32 s).trans (write_effect .cmd 0xAA#32 _)).trans (write_effect .cmd 0x04#32 _)

/-! ### The drain and the fill -/

/-- The read buffer after the first `n` words of a drain (40 R135 step 9). -/
def drained (a : Nat → Word) (buf : Vector Byte 528) (n : Nat) : Vector Byte 528 :=
  (List.range n).foldl (fun b k => setWordAt b k (a k)) buf

/-- `n` words of the drain: pulse, then read, each (40 R143). -/
theorem drain_effect (n : Nat) (s : State) :
    Effect s (perform ((List.range n).flatMap drainStep) s) n
        ((List.range n).flatMap fun k => [.regWrite 0x08#8 0x00#32, .regRead 0x10#8 (s.answer k)])
      ∧ (perform ((List.range n).flatMap drainStep) s).rdBuf = drained s.answer s.rdBuf n := by
  induction n with
  | zero => exact ⟨by simpa using Effect.refl s, rfl⟩
  | succ n ih =>
    obtain ⟨h, hb⟩ := ih
    simp only [List.range_succ, List.flatMap_append, List.flatMap_singleton, perform_append]
    generalize perform ((List.range n).flatMap drainStep) s = u at h hb
    have h₁ := write_effect .cmd 0x00#32 u
    have h₂ : Effect (fire (.write .cmd 0x00#32) u) (fire (.drainWord n) (fire (.write .cmd 0x00#32) u)) 1
        [.regRead 0x10#8 (u.answer 0)] := Effect.of_read .data rfl rfl rfl
    have h₃ := h₁.trans h₂
    rw [h.answers] at h₃
    refine ⟨by simpa [drainStep] using h.trans h₃, ?_⟩
    have : (fire (.drainWord n) (fire (.write .cmd 0x00#32) u)).rdBuf = setWordAt u.rdBuf n (u.answer 0) := rfl
    rw [drainStep, perform_cons, perform_cons, perform_nil, this, hb, h.answers, drained, drained, List.range_succ,
      List.foldl_append]
    simp

/-- `read_block` steps 5 to 9 (40 R135). -/
theorem readDrain_effect (s : State) :
    Effect s (perform readDrain s) sectorWords (drainEvents s.answer)
      ∧ (perform readDrain s).rdBuf = drained s.answer s.rdBuf sectorWords := by
  have hw := write_effect .addr 0#32 s
  obtain ⟨h, hb⟩ := drain_effect sectorWords (fire (.write .addr 0#32) s)
  rw [readDrain, perform_cons]
  have ha : (fire (.write .addr 0#32) s).answer = s.answer := funext fun k => by rw [hw.answers, Nat.zero_add]
  rw [ha] at h hb
  refine ⟨?_, hb⟩
  have h' := hw.trans h
  rw [Nat.zero_add] at h'
  exact h'

/-- `n` words of the fill: write, then pulse, each (40 R143). -/
theorem fill_effect (n : Nat) (s : State) :
    Effect s (perform ((List.range n).flatMap fillStep) s) 0
        ((List.range n).flatMap fun k => [.regWrite 0x10#8 (wordAt s.wrBuf k), .regWrite 0x08#8 0x01#32])
      ∧ (perform ((List.range n).flatMap fillStep) s).wrBuf = s.wrBuf := by
  induction n with
  | zero => exact ⟨by simpa using Effect.refl s, rfl⟩
  | succ n ih =>
    obtain ⟨h, hb⟩ := ih
    simp only [List.range_succ, List.flatMap_append, List.flatMap_singleton, perform_append]
    generalize perform ((List.range n).flatMap fillStep) s = u at h hb
    have h₁ : Effect u (fire (.fillWord n) u) 0 [.regWrite 0x10#8 (wordAt u.wrBuf n)] := Effect.of_event rfl rfl rfl
    have h₂ := h₁.trans (write_effect .cmd 0x01#32 _)
    rw [hb] at h₂
    exact ⟨by simpa [fillStep] using h.trans h₂, hb⟩

/-- `write_block` steps 6 to 10 (40 R139). -/
theorem writeFill_effect (s : State) : Effect s (perform writeFill s) 1 (fillEvents s.answer s.wrBuf) := by
  have e : perform [.clearRead, .clearWrite, .write .addr 0#32] s
      = fire (.write .addr 0#32) (perform [.clearRead, .clearWrite] s) := rfl
  have h := (clear_effect s).trans (write_effect .addr 0#32 (perform [.clearRead, .clearWrite] s))
  have hb : (fire (.write .addr 0#32) (perform [.clearRead, .clearWrite] s)).wrBuf = s.wrBuf := by
    simp [fire]
  rw [writeFill, perform_append, e]
  generalize fire (.write .addr 0#32) (perform [.clearRead, .clearWrite] s) = u at h hb
  have h' := h.trans (fill_effect sectorWords u).1
  rw [hb] at h'
  unfold fillEvents
  exact h'

/-! ### Error entry -/

/-- `fail()` (40 R134): what it adds, and the error word it forms, after a wait whose polls began `T + 1` answers ago. -/
theorem errorEntry_effect (w : Site) (s : State) (a : Nat → Word) (T : Nat) (ha : ∀ k, s.answer k = a (T + 1 + k))
    (hs : s.sLast = statusOf (a T)) :
    ∃ es, Effect s (perform (errorEntry w) s) (errorReads s.params.errStatusSource) es
      ∧ (es.filter fun e => !isLog e) = errorEvents s.params.errStatusSource a T
      ∧ (perform (errorEntry w) s).err = failureWord s.params.errStatusSource a T := by
  have hw : ∀ h : Half, statusOf (h.setWidth 32) = h := fun h => by
    simp [statusOf]
  cases he : s.params.errStatusSource with
  | reread =>
    have hf : fire .errStatus s = { afterRead .status s with tmp := (statusOf (readValue s)).setWidth 32 } := by
      simp only [fire, he]
    have h₁ : Effect s (fire .errStatus s) 1 [.regRead 0x04#8 (s.answer 0)] := by
      rw [hf]; exact Effect.of_read .status rfl rfl rfl
    have h₂ : Effect (fire .errStatus s) (fire (.errForm w) (fire .errStatus s)) 0
        [.log (siteCause w (statusOf (fire .errStatus s).tmp))] := Effect.of_event rfl rfl rfl
    refine ⟨_, h₁.trans h₂, ?_, ?_⟩
    · simp [errorEvents, List.filter, isLog, ha]
    · have : (perform (errorEntry w) s).err = errorWord (statusOf (fire .errStatus s).tmp) := rfl
      rw [this, hf, failureWord]
      simp only [hw]
      simp [readValue, ha]
  | lastPoll =>
    have hf : fire .errStatus s = { s with tmp := s.sLast.setWidth 32 } := by
      simp only [fire, he]
    have h₁ : Effect s (fire .errStatus s) 0 [] := by
      rw [hf]; exact Effect.of_eq rfl rfl rfl
    have h₂ : Effect (fire .errStatus s) (fire (.errForm w) (fire .errStatus s)) 0
        [.log (siteCause w (statusOf (fire .errStatus s).tmp))] := Effect.of_event rfl rfl rfl
    refine ⟨_, h₁.trans h₂, ?_, ?_⟩
    · simp [errorEvents, List.filter, isLog]
    · have : (perform (errorEntry w) s).err = errorWord (statusOf (fire .errStatus s).tmp) := rfl
      rw [this, hf, failureWord]
      simp only [hw, hs]

end Sys2Proof.Machine
end

