-- ==== Sys2Proof/Laws/Sector.lean ====
section
/-! SUPPORT. Byte order and the packing of words into a sector (00 R13, 20 R75). -/

namespace Sys2Proof.Machine

open Sys2Proof

theorem byteOf_unle32 (b0 b1 b2 b3 : Byte) :
    byteOf (unle32 b0 b1 b2 b3) 0 = b0 ∧ byteOf (unle32 b0 b1 b2 b3) 1 = b1 ∧ byteOf (unle32 b0 b1 b2 b3) 2 = b2
      ∧ byteOf (unle32 b0 b1 b2 b3) 3 = b3 := by
  refine ⟨?_, ?_, ?_, ?_⟩ <;>
    (apply BitVec.eq_of_getLsbD_eq
     intro i hi
     interval_cases i <;> simp [byteOf, unle32])

/-- `le32` after `unle32` (00 R13). -/
theorem le32_unle32 (b0 b1 b2 b3 : Byte) : le32 (unle32 b0 b1 b2 b3) = [b0, b1, b2, b3] := by
  obtain ⟨h0, h1, h2, h3⟩ := byteOf_unle32 b0 b1 b2 b3
  simp [le32, h0, h1, h2, h3]

/-- `unle32` after `le32` (00 R13). -/
theorem unle32_le32 (v : Word) : unle32 (byteOf v 0) (byteOf v 1) (byteOf v 2) (byteOf v 3) = v := by
  apply BitVec.eq_of_getLsbD_eq
  intro i hi
  interval_cases i <;> simp [byteOf, unle32]

/-! ### Words in a sector buffer (20 R75) -/

theorem setWordAt_get (buf : Vector Byte 528) (k : Nat) (w : Word) (i : Nat) (hi : i < 528) :
    (setWordAt buf k w)[i] = if i / 4 = k then byteOf w (i % 4) else buf[i] := by
  simp only [setWordAt, Vector.getElem_setIfInBounds]
  by_cases h : i / 4 = k
  · subst h
    have : i % 4 = 0 ∨ i % 4 = 1 ∨ i % 4 = 2 ∨ i % 4 = 3 := by omega
    rcases this with h | h | h | h <;>
      (simp only [h, if_true]
       split_ifs <;> first | rfl | omega)
  · have h0 : 4 * k ≠ i := by omega
    have h1 : 4 * k + 1 ≠ i := by omega
    have h2 : 4 * k + 2 ≠ i := by omega
    have h3 : 4 * k + 3 ≠ i := by omega
    simp [h, h0, h1, h2, h3]

theorem wordAt_eq (buf : Vector Byte 528) (k : Nat) (h : k < 132) :
    wordAt buf k = unle32 buf[4 * k] buf[4 * k + 1] buf[4 * k + 2] buf[4 * k + 3] := by
  simp [wordAt, show 4 * k < 528 by omega, show 4 * k + 1 < 528 by omega, show 4 * k + 2 < 528 by omega,
    show 4 * k + 3 < 528 by omega]

/-- The word written is the word read back. -/
theorem wordAt_setWordAt_self (buf : Vector Byte 528) (k : Nat) (w : Word) (h : k < 132) :
    wordAt (setWordAt buf k w) k = w := by
  rw [wordAt_eq _ _ h]
  simp only [setWordAt_get]
  have h0 : 4 * k / 4 = k := by omega
  have h1 : (4 * k + 1) / 4 = k := by omega
  have h2 : (4 * k + 2) / 4 = k := by omega
  have h3 : (4 * k + 3) / 4 = k := by omega
  have m0 : 4 * k % 4 = 0 := by omega
  have m1 : (4 * k + 1) % 4 = 1 := by omega
  have m2 : (4 * k + 2) % 4 = 2 := by omega
  have m3 : (4 * k + 3) % 4 = 3 := by omega
  simp only [h0, h1, h2, h3, m0, m1, m2, m3, if_true]
  exact unle32_le32 w

/-- Another word is left alone. -/
theorem wordAt_setWordAt_other (buf : Vector Byte 528) {j k : Nat} (w : Word) (hj : j < 132) (h : j ≠ k) :
    wordAt (setWordAt buf k w) j = wordAt buf j := by
  rw [wordAt_eq _ _ hj, wordAt_eq _ _ hj]
  simp only [setWordAt_get]
  have h0 : 4 * j / 4 ≠ k := by omega
  have h1 : (4 * j + 1) / 4 ≠ k := by omega
  have h2 : (4 * j + 2) / 4 ≠ k := by omega
  have h3 : (4 * j + 3) / 4 ≠ k := by omega
  simp only [h0, h1, h2, h3, if_false]

theorem drained_get (a : Nat → Word) (buf : Vector Byte 528) (n i : Nat) (hi : i < 528) :
    (drained a buf n)[i] = if i / 4 < n then byteOf (a (i / 4)) (i % 4) else buf[i] := by
  induction n with
  | zero => simp [drained]
  | succ n ih =>
    have h : drained a buf (n + 1) = setWordAt (drained a buf n) n (a n) := by
      simp [drained, List.range_succ]
    simp only [h, setWordAt_get, ih]
    by_cases h₁ : i / 4 = n
    · simp [h₁]
    · by_cases h₂ : i / 4 < n
      · simp [h₁, h₂, show i / 4 < n + 1 by omega]
      · simp [h₁, h₂, show ¬ i / 4 < n + 1 by omega]

theorem flatMap_le32_length (a : Nat → Word) (n : Nat) : ((List.range n).flatMap fun k => le32 (a k)).length = 4 * n := by
  induction n with
  | zero => rfl
  | succ n ih =>
    rw [List.range_succ, List.flatMap_append, List.length_append, ih]
    simp [le32]
    omega

theorem flatMap_le32_get (a : Nat → Word) (n i : Nat) (hi : i < 4 * n) :
    ((List.range n).flatMap fun k => le32 (a k))[i]'(by rw [flatMap_le32_length]; exact hi) = byteOf (a (i / 4)) (i % 4) := by
  induction n with
  | zero => omega
  | succ n ih =>
    simp only [List.range_succ, List.flatMap_append, List.flatMap_singleton]
    by_cases h : i < 4 * n
    · rw [List.getElem_append_left (by rw [flatMap_le32_length]; exact h)]
      exact ih h
    · rw [List.getElem_append_right (by rw [flatMap_le32_length]; omega)]
      simp only [flatMap_le32_length]
      have hn : i / 4 = n := by omega
      rw [hn]
      have : i % 4 = 0 ∨ i % 4 = 1 ∨ i % 4 = 2 ∨ i % 4 = 3 := by omega
      rcases this with h' | h' | h' | h'
      · have : i - 4 * n = 0 := by omega
        simp [le32, h', this]
      · have : i - 4 * n = 1 := by omega
        simp [le32, h', this]
      · have : i - 4 * n = 2 := by omega
        simp [le32, h', this]
      · have : i - 4 * n = 3 := by omega
        simp [le32, h', this]

/-- 132 words are 528 bytes (20 R78). -/
theorem sectorBytes_length (a : Nat → Word) : (sectorBytes a).length = 528 := by
  rw [sectorBytes, flatMap_le32_length, sectorWords]

/-- After a whole drain the read buffer holds the words read, in order (20 R75). -/
theorem drained_toList (a : Nat → Word) (buf : Vector Byte 528) :
    (drained a buf sectorWords).toList = sectorBytes a := by
  apply List.ext_getElem
  · rw [sectorBytes_length]; simp
  · intro i h₁ h₂
    have hi : i < 528 := by simpa using h₁
    rw [Vector.getElem_toList, drained_get _ _ _ _ hi]
    have h : i / 4 < sectorWords := by unfold sectorWords; omega
    rw [if_pos h]
    simp only [sectorBytes]
    rw [flatMap_le32_get a sectorWords i (by unfold sectorWords; omega)]

/-- The words of a buffer, as bytes, are the buffer (20 R75). -/
theorem sectorBytes_wordAt (buf : Vector Byte 528) : sectorBytes (wordAt buf) = buf.toList := by
  apply List.ext_getElem
  · rw [sectorBytes_length]; simp
  · intro i h₁ h₂
    have hi : i < 528 := by simpa using h₂
    rw [Vector.getElem_toList]
    simp only [sectorBytes]
    rw [flatMap_le32_get (wordAt buf) sectorWords i (by unfold sectorWords; omega), wordAt_eq _ _ (by omega)]
    obtain ⟨b0, b1, b2, b3⟩ := byteOf_unle32 buf[4 * (i / 4)] buf[4 * (i / 4) + 1] buf[4 * (i / 4) + 2] buf[4 * (i / 4) + 3]
    have : i % 4 = 0 ∨ i % 4 = 1 ∨ i % 4 = 2 ∨ i % 4 = 3 := by omega
    rcases this with h' | h' | h' | h' <;> simp only [h', b0, b1, b2, b3] <;> congr 1 <;> omega

end Sys2Proof.Machine
end

