-- ==== Sys2Proof/Laws/Block.lean ====
section
/-! SUPPORT. What the operations of the NAND engine do, each way they can end: `stage`, `read_block`, `erase_block`, `write_block`. -/

namespace Sys2Proof.Machine

open Sys2Proof

/-- From `s` to `u` the engine issues the transactions `es`, nothing else that is visible, and takes `n` answers; all that
`scrub` keeps is as it was. -/
structure Stretch (s u : State) (n : Nat) (es : List Event) : Prop where
  visible : u.visible = s.visible ++ es
  answers : ∀ k, u.answer k = s.answer (n + k)
  rest : scrub u = scrub s

theorem Stretch.refl (s : State) : Stretch s s 0 [] := ⟨by simp, by simp, rfl⟩

theorem Stretch.shift_eq {s u : State} {n : Nat} {es : List Event} (h : Stretch s u n es) (m : Nat) :
    shift m u.answer = shift (n + m) s.answer :=
  funext fun k => by simp [shift, h.answers, Nat.add_assoc]

theorem Stretch.answer_eq {s u : State} {n : Nat} {es : List Event} (h : Stretch s u n es) :
    u.answer = shift n s.answer :=
  funext h.answers

theorem Stretch.trans {s u v : State} {n m : Nat} {es fs : List Event} (h : Stretch s u n es) (h' : Stretch u v m fs) :
    Stretch s v (n + m) (es ++ fs) :=
  ⟨by rw [h'.visible, h.visible, List.append_assoc],
    fun k => by rw [h'.answers, h.answers, Nat.add_assoc], h'.rest.trans h.rest⟩

theorem Stretch.params {s u : State} {n : Nat} {es : List Event} (h : Stretch s u n es) : u.params = s.params :=
  rest_params h.rest

/-- Transactions are visible. -/
theorem transactions_visible {es : List Event} (h : ∀ e ∈ es, isTransaction e = true) :
    (es.filter fun e => !isLog e) = es := by
  refine List.filter_eq_self.2 fun e he => ?_
  have := h e he
  cases e <;> simp_all [isTransaction, isLog]

theorem Stretch.of_effect {s u : State} {n : Nat} {es : List Event} (h : Effect s u n es)
    (ht : ∀ e ∈ es, isTransaction e = true) (hs : scrub u = scrub s) : Stretch s u n es :=
  ⟨by rw [visible_append h.history, transactions_visible ht], h.answers, hs⟩

/-! ### The sequences are transactions -/

theorem pollEvents_transactions (a : Nat → Word) (n : Nat) : ∀ e ∈ pollEvents a n, isTransaction e = true := by
  simp [pollEvents, isTransaction]

theorem readSetupEvents_transactions (a : Nat → Word) (lba : Word) :
    ∀ e ∈ readSetupEvents a lba, isTransaction e = true := by
  simp [readSetupEvents, clearEvents, isTransaction]

theorem eraseSetupEvents_transactions (a : Nat → Word) (lba : Word) :
    ∀ e ∈ eraseSetupEvents a lba, isTransaction e = true := by
  simp [eraseSetupEvents, clearEvents, isTransaction]

theorem drainEvents_transactions (a : Nat → Word) : ∀ e ∈ drainEvents a, isTransaction e = true := by
  intro e he
  simp only [drainEvents, List.mem_cons, List.mem_flatMap] at he
  obtain rfl | ⟨k, -, hk⟩ := he
  · rfl
  · simp at hk
    obtain rfl | rfl := hk <;> rfl

theorem fillEvents_transactions (a : Nat → Word) (b : Vector Byte 528) :
    ∀ e ∈ fillEvents a b, isTransaction e = true := by
  intro e he
  simp only [fillEvents, List.mem_append, List.mem_flatMap] at he
  obtain (h | h) | ⟨k, -, hk⟩ := he
  · simp [clearEvents] at h
    obtain rfl | rfl := h <;> rfl
  · simp at h; subst h; rfl
  · simp at hk
    obtain rfl | rfl := hk <;> rfl

theorem addrEvents_transactions (lba : Word) : ∀ e ∈ addrEvents lba, isTransaction e = true := by
  simp [addrEvents, isTransaction]

theorem commitEvents_transactions : ∀ e ∈ commitEvents, isTransaction e = true := by
  simp [commitEvents, isTransaction]

theorem quiet_readSetup (lba : Word) : ∀ a ∈ readSetup lba, quiet a = true := by simp [readSetup, quiet]

theorem quiet_eraseSetup (lba : Word) : ∀ a ∈ eraseSetup lba, quiet a = true := by simp [eraseSetup, quiet]

theorem quiet_readDrain : ∀ a ∈ readDrain, quiet a = true := by
  intro a ha
  simp only [readDrain, List.mem_cons, List.mem_flatMap] at ha
  obtain rfl | ⟨k, -, hk⟩ := ha
  · rfl
  · simp [drainStep] at hk
    obtain rfl | rfl := hk <;> rfl

theorem quiet_writeFill : ∀ a ∈ writeFill, quiet a = true := by
  intro a ha
  simp only [writeFill, List.mem_append, List.mem_flatMap] at ha
  obtain h | ⟨k, -, hk⟩ := ha
  · simp at h
    obtain rfl | rfl | rfl := h <;> rfl
  · simp [fillStep] at hk
    obtain rfl | rfl := hk <;> rfl

theorem quiet_writeAddr (lba : Word) : ∀ a ∈ writeAddr lba, quiet a = true := by simp [writeAddr, quiet]

theorem quiet_writeCommit : ∀ a ∈ writeCommit, quiet a = true := by simp [writeCommit, quiet]

theorem quiet_errorEntry (w : Site) : ∀ a ∈ errorEntry w, quiet a = true := by simp [errorEntry, quiet]

/-! ### stage -/

/-- A stage whose wait is Ready. -/
theorem stage_ready {w : Site} {as : List Act} {s : State} {n p : Nat} {es : List Event}
    (h : Effect s (perform as s) n es) (hq : ∀ a ∈ as, quiet a = true) (ht : ∀ e ∈ es, isTransaction e = true)
    (hr : ReadyAt (shift n s.answer) s.params.waitBudget.toNat p) :
    ∃ u, stage w as s = (none, u) ∧ Stretch s u (n + (p + 1)) (es ++ pollEvents (shift n s.answer) (p + 1)) := by
  have h₁ := Stretch.of_effect h ht (scrub_perform hq s)
  have ha : (perform as s).answer = shift n s.answer := h₁.answer_eq
  have hr' : ReadyAt (perform as s).answer (perform as s).params.waitBudget.toNat p := by rw [ha, h₁.params]; exact hr
  obtain ⟨u, hu, he, hf, -⟩ := waitReady_ready hr'
  refine ⟨u, by simp [stage, hu], ?_⟩
  have h₂ := Stretch.of_effect he (pollEvents_transactions _ _) hf.scrub
  rw [← ha]
  exact h₁.trans h₂

/-- A stage whose wait is NotReady: the error entry, and nothing more (60 R268). -/
theorem stage_never {w : Site} {as : List Act} {s : State} {n : Nat} {es : List Event}
    (h : Effect s (perform as s) n es) (hq : ∀ a ∈ as, quiet a = true) (ht : ∀ e ∈ es, isTransaction e = true)
    (hr : NeverReady (shift n s.answer) s.params.waitBudget.toNat) :
    ∃ u, stage w as s = (some w, u)
      ∧ Stretch s u (n + (s.params.waitBudget.toNat + 1 + errorReads s.params.errStatusSource))
          (es ++ timeoutEvents s.params.errStatusSource (shift n s.answer) s.params.waitBudget.toNat)
      ∧ u.err = failureWord s.params.errStatusSource (shift n s.answer) s.params.waitBudget.toNat := by
  have h₁ := Stretch.of_effect h ht (scrub_perform hq s)
  have ha : (perform as s).answer = shift n s.answer := h₁.answer_eq
  have hp := h₁.params
  have hr' : NeverReady (perform as s).answer (perform as s).params.waitBudget.toNat := by rw [ha, hp]; exact hr
  obtain ⟨u, hu, he, hf, hs⟩ := waitReady_never hr'
  have h₂ := Stretch.of_effect he (pollEvents_transactions _ _) hf.scrub
  rw [ha, hp] at h₂ he hs
  have ha' : ∀ k, u.answer k = shift n s.answer (s.params.waitBudget.toNat + 1 + k) := fun k => by
    rw [h₂.answers, ha]
  obtain ⟨fs, h₃, hreg, herr⟩ := errorEntry_effect w u (shift n s.answer) _ ha' hs
  have hup : u.params = s.params := h₂.params.trans hp
  rw [hup] at h₃ hreg herr
  have h₄ : Stretch u (perform (errorEntry w) u) (errorReads s.params.errStatusSource)
      (errorEvents s.params.errStatusSource (shift n s.answer) s.params.waitBudget.toNat) :=
    ⟨by rw [visible_append h₃.history, hreg], h₃.answers, scrub_perform (quiet_errorEntry w) u⟩
  exact ⟨_, by simp [stage, hu], h₁.trans (h₂.trans h₄), herr⟩

/-! ### read_block -/

/-- `read_block`, Ok, its wait Ready on poll `p + 1` (40 R135). -/
theorem readBlock_ok {w : Site} {lba : Word} {s : State} {p : Nat}
    (hr : ReadyAt (shift 1 s.answer) s.params.waitBudget.toNat p) :
    ∃ u, readBlock w lba s = (none, u)
      ∧ Stretch s u (1 + (p + 1) + sectorWords)
          (readSetupEvents s.answer lba ++ pollEvents (shift 1 s.answer) (p + 1) ++ drainEvents (shift (1 + (p + 1)) s.answer))
      ∧ u.rdBuf.toList = sectorBytes (shift (1 + (p + 1)) s.answer) := by
  obtain ⟨u, hu, h₁⟩ := stage_ready (w := w) (readSetup_effect lba s) (quiet_readSetup lba)
    (readSetupEvents_transactions _ _) hr
  obtain ⟨h₂, hb⟩ := readDrain_effect u
  have h₃ := Stretch.of_effect h₂ (drainEvents_transactions _) (scrub_perform quiet_readDrain u)
  rw [h₁.answer_eq] at h₃ hb
  refine ⟨perform readDrain u, by simp [readBlock, andThen, hu], h₁.trans h₃, ?_⟩
  rw [hb, drained_toList]

/-- `read_block`, its wait NotReady (40 R134, R135). -/
theorem readBlock_never {w : Site} {lba : Word} {s : State}
    (hr : NeverReady (shift 1 s.answer) s.params.waitBudget.toNat) :
    ∃ u, readBlock w lba s = (some w, u)
      ∧ Stretch s u (1 + (s.params.waitBudget.toNat + 1 + errorReads s.params.errStatusSource))
          (readSetupEvents s.answer lba
            ++ timeoutEvents s.params.errStatusSource (shift 1 s.answer) s.params.waitBudget.toNat)
      ∧ u.err = failureWord s.params.errStatusSource (shift 1 s.answer) s.params.waitBudget.toNat := by
  obtain ⟨u, hu, h₁, he⟩ := stage_never (w := w) (readSetup_effect lba s) (quiet_readSetup lba)
    (readSetupEvents_transactions _ _) hr
  exact ⟨u, by simp [readBlock, andThen, hu], h₁, he⟩

/-! ### write_block's parts -/

/-- `erase_block`, Ok (40 R138). -/
theorem eraseBlock_ok {lba : Word} {s : State} {p : Nat}
    (hr : ReadyAt (shift 2 s.answer) s.params.waitBudget.toNat p) :
    ∃ u, eraseBlock lba s = (none, u)
      ∧ Stretch s u (2 + (p + 1)) (eraseSetupEvents s.answer lba ++ pollEvents (shift 2 s.answer) (p + 1)) :=
  stage_ready (eraseSetup_effect lba s) (quiet_eraseSetup lba) (eraseSetupEvents_transactions _ _) hr

/-- `erase_block`, its wait NotReady (40 R138). -/
theorem eraseBlock_never {lba : Word} {s : State}
    (hr : NeverReady (shift 2 s.answer) s.params.waitBudget.toNat) :
    ∃ u, eraseBlock lba s = (some .erase, u)
      ∧ Stretch s u (2 + (s.params.waitBudget.toNat + 1 + errorReads s.params.errStatusSource))
          (eraseSetupEvents s.answer lba
            ++ timeoutEvents s.params.errStatusSource (shift 2 s.answer) s.params.waitBudget.toNat)
      ∧ u.err = failureWord s.params.errStatusSource (shift 2 s.answer) s.params.waitBudget.toNat :=
  stage_never (eraseSetup_effect lba s) (quiet_eraseSetup lba) (eraseSetupEvents_transactions _ _) hr

/-- The fill and its wait (40 R139 steps 6 to 11). -/
theorem fillStage_ok {s : State} {p : Nat} (hr : ReadyAt (shift 1 s.answer) s.params.waitBudget.toNat p) :
    ∃ u, stage .fill writeFill s = (none, u)
      ∧ Stretch s u (1 + (p + 1)) (fillEvents s.answer s.wrBuf ++ pollEvents (shift 1 s.answer) (p + 1)) :=
  stage_ready (writeFill_effect s) quiet_writeFill (fillEvents_transactions _ _) hr

/-- The fill and its wait, NotReady. -/
theorem fillStage_never {s : State} (hr : NeverReady (shift 1 s.answer) s.params.waitBudget.toNat) :
    ∃ u, stage .fill writeFill s = (some .fill, u)
      ∧ Stretch s u (1 + (s.params.waitBudget.toNat + 1 + errorReads s.params.errStatusSource))
          (fillEvents s.answer s.wrBuf
            ++ timeoutEvents s.params.errStatusSource (shift 1 s.answer) s.params.waitBudget.toNat)
      ∧ u.err = failureWord s.params.errStatusSource (shift 1 s.answer) s.params.waitBudget.toNat :=
  stage_never (writeFill_effect s) quiet_writeFill (fillEvents_transactions _ _) hr

theorem shift_zero (a : Nat → Word) : shift 0 a = a := funext fun k => by simp [shift]

/-- The address and its wait (40 R139 steps 12 and 13). -/
theorem addrStage_ok {lba : Word} {s : State} {p : Nat} (hr : ReadyAt s.answer s.params.waitBudget.toNat p) :
    ∃ u, stage .addr (writeAddr lba) s = (none, u)
      ∧ Stretch s u (p + 1) (addrEvents lba ++ pollEvents s.answer (p + 1)) := by
  have := stage_ready (w := .addr) (addr_effect lba s) (quiet_writeAddr lba) (addrEvents_transactions lba)
    (p := p) (by rw [shift_zero]; exact hr)
  simpa [shift_zero] using this

/-- The address and its wait, NotReady. -/
theorem addrStage_never {lba : Word} {s : State} (hr : NeverReady s.answer s.params.waitBudget.toNat) :
    ∃ u, stage .addr (writeAddr lba) s = (some .addr, u)
      ∧ Stretch s u (s.params.waitBudget.toNat + 1 + errorReads s.params.errStatusSource)
          (addrEvents lba ++ timeoutEvents s.params.errStatusSource s.answer s.params.waitBudget.toNat)
      ∧ u.err = failureWord s.params.errStatusSource s.answer s.params.waitBudget.toNat := by
  have := stage_never (w := .addr) (addr_effect lba s) (quiet_writeAddr lba) (addrEvents_transactions lba)
    (by rw [shift_zero]; exact hr)
  simpa [shift_zero] using this

/-- The commit and its wait (40 R139 steps 14 to 17). -/
theorem commitStage_ok {s : State} {p : Nat} (hr : ReadyAt s.answer s.params.waitBudget.toNat p) :
    ∃ u, stage .commit writeCommit s = (none, u)
      ∧ Stretch s u (p + 1) (commitEvents ++ pollEvents s.answer (p + 1)) := by
  have := stage_ready (w := .commit) (commit_effect s) quiet_writeCommit commitEvents_transactions
    (p := p) (by rw [shift_zero]; exact hr)
  simpa [shift_zero] using this

/-- The commit and its wait, NotReady. -/
theorem commitStage_never {s : State} (hr : NeverReady s.answer s.params.waitBudget.toNat) :
    ∃ u, stage .commit writeCommit s = (some .commit, u)
      ∧ Stretch s u (s.params.waitBudget.toNat + 1 + errorReads s.params.errStatusSource)
          (commitEvents ++ timeoutEvents s.params.errStatusSource s.answer s.params.waitBudget.toNat)
      ∧ u.err = failureWord s.params.errStatusSource s.answer s.params.waitBudget.toNat := by
  have := stage_never (w := .commit) (commit_effect s) quiet_writeCommit commitEvents_transactions
    (by rw [shift_zero]; exact hr)
  simpa [shift_zero] using this

end Sys2Proof.Machine
end

