-- ==== Sys2Proof/Laws/Receive.lean ====
section
/-! SUPPORT. What the frame wait and the payload receive take from the receive stream (41 R182, R187). -/

namespace Sys2Proof.Machine

open Sys2Proof

/-- A buffer with bytes stored from index `i` on. -/
def loadBytes {n : Nat} (buf : Vector Byte n) (i : Nat) : List Byte → Vector Byte n
  | [] => buf
  | b :: bs => loadBytes (buf.setIfInBounds i b) (i + 1) bs

theorem loadBytes_get {n : Nat} (bs : List Byte) (buf : Vector Byte n) (i j : Nat) (hj : j < n) :
    (loadBytes buf i bs)[j] = if h : i ≤ j ∧ j < i + bs.length then bs[j - i]'(by omega) else buf[j] := by
  induction bs generalizing buf i with
  | nil =>
    simp only [loadBytes, List.length_nil]
    rw [dif_neg (by omega)]
  | cons b bs ih =>
    simp only [loadBytes, ih, List.length_cons]
    by_cases h₁ : i = j
    · subst h₁
      rw [dif_neg (by omega), dif_pos (by omega)]
      simp
    · by_cases h₂ : i ≤ j ∧ j < i + (bs.length + 1)
      · rw [dif_pos (by omega), dif_pos h₂]
        have : j - i = (j - (i + 1)) + 1 := by omega
        simp [this]
      · rw [dif_neg (by omega), dif_neg h₂]
        simp [h₁]

/-- A whole buffer's worth of bytes. -/
theorem loadBytes_toList {n : Nat} (buf : Vector Byte n) {bs : List Byte} (h : bs.length = n) :
    (loadBytes buf 0 bs).toList = bs := by
  apply List.ext_getElem
  · simp [h]
  · intro i h₁ h₂
    have hi : i < n := by simpa using h₁
    rw [Vector.getElem_toList, loadBytes_get _ _ _ _ hi, dif_pos (by omega)]
    simp

theorem loadBytes_append {n : Nat} (buf : Vector Byte n) (i : Nat) (p q : List Byte) :
    loadBytes buf i (p ++ q) = loadBytes (loadBytes buf i p) (i + p.length) q := by
  induction p generalizing buf i with
  | nil => simp [loadBytes]
  | cons b p ih =>
    simp only [List.cons_append, loadBytes, ih, List.length_cons]
    congr 1
    omega

/-! ### The payload -/

/-- The state once the payload bytes `p` are taken and `q` is left in the queue. -/
def absorbed (p q : List Byte) (s : State) : State :=
  { s with
    rxQueue := q
    wrBuf := loadBytes s.wrBuf s.wrCnt p
    wrCnt := s.wrCnt + p.length
    trace := (p.map Event.recv).reverse ++ s.trace }

/-- The payload receive takes all that is queued, up to the end of the payload (41 R187 steps 2 to 7). -/
theorem takePayload_eq (p q : List Byte) (s : State) (hs : s.rxQueue = p ++ q) (hle : s.wrCnt + p.length ≤ 528)
    (hq : q = [] ∨ s.wrCnt + p.length = 528) : takePayload (p ++ q) s = absorbed p q s := by
  induction p generalizing s with
  | nil =>
    have he : absorbed [] q s = s := by
      cases s; simp_all [absorbed, loadBytes]
    rw [he]
    rcases hq with rfl | h
    · rfl
    · cases q with
      | nil => rfl
      | cons b q =>
        simp only [List.length_nil] at h
        have : ¬ s.wrCnt < payloadBytes := by unfold payloadBytes; omega
        simp [takePayload, this]
  | cons b p ih =>
    have hlt : s.wrCnt < payloadBytes := by simp only [List.length_cons] at hle; unfold payloadBytes; omega
    simp only [List.cons_append, takePayload, hlt, if_true]
    simp only [List.length_cons] at hle hq
    have hq' : q = [] ∨ s.wrCnt + 1 + p.length = 528 := hq.imp_right (by omega)
    rw [ih (payloadByte b (p ++ q) s) (by simp) (by simp only [payloadByte_wrCnt]; omega) (by simpa using hq')]
    simp only [absorbed, loadBytes, payloadByte_wrBuf, payloadByte_wrCnt, payloadByte_trace, List.map_cons,
      List.reverse_cons, List.append_assoc, List.singleton_append, List.length_cons]
    simp [payloadByte, takeByte, emit]
    omega

/-! ### The frame -/

/-- The state once the frame bytes `p` are taken and `q` is left in the queue. -/
def assembled (p q : List Byte) (s : State) : State :=
  { s with
    rxQueue := q
    rxBuf := loadBytes s.rxBuf s.rxCnt p
    rxCnt := s.rxCnt + p.length
    trace := (p.map Event.recv).reverse ++ s.trace }

/-- The frame wait takes all that is queued where that does not complete a frame (41 R182). -/
theorem takeFrame_partial (p : List Byte) (s : State) (hs : s.rxQueue = p) (hlt : s.rxCnt + p.length < 5) :
    takeFrame p s = (false, assembled p [] s) := by
  induction p generalizing s with
  | nil =>
    have he : assembled [] [] s = s := by
      cases s; simp_all [assembled, loadBytes]
    rw [he]; rfl
  | cons b p ih =>
    simp only [List.length_cons] at hlt
    have hc : frameComplete (frameByte b p s) = false := by simp [frameComplete]; omega
    simp only [takeFrame, hc, Bool.false_eq_true, if_false]
    rw [ih (frameByte b p s) (by simp) (by simp; omega)]
    simp only [assembled, loadBytes, frameByte_rxBuf, frameByte_rxCnt, frameByte_trace, List.map_cons,
      List.reverse_cons, List.append_assoc, List.singleton_append, List.length_cons]
    simp [frameByte, takeByte, emit]
    omega

/-- The frame wait hands over a complete frame, whatever is queued behind it (41 R182). -/
theorem takeFrame_complete (p q : List Byte) (s : State) (hp : p ≠ []) (h5 : s.rxCnt + p.length = 5) :
    takeFrame (p ++ q) s = (true, handOver (assembled p q s)) := by
  induction p generalizing s with
  | nil => exact absurd rfl hp
  | cons b p ih =>
    simp only [List.length_cons] at h5
    cases p with
    | nil =>
      simp only [List.length_nil] at h5
      have hc : frameComplete (frameByte b q s) = true := by simp [frameComplete]; omega
      simp only [List.singleton_append, takeFrame, hc, if_true]
      simp [assembled, loadBytes, frameByte, takeByte, emit, handOver]
    | cons b' p =>
      simp only [List.length_cons] at h5
      have hc : frameComplete (frameByte b (b' :: p ++ q) s) = false := by simp [frameComplete]; omega
      simp only [List.cons_append] at hc
      rw [List.cons_append]
      unfold takeFrame
      simp only [List.cons_append, hc, Bool.false_eq_true, if_false]
      have := ih (frameByte b (b' :: (p ++ q)) s) (by simp) (by simp; omega)
      simp only [List.cons_append] at this
      rw [this]
      simp [assembled, handOver, loadBytes, frameByte, takeByte, emit]

/-- What the assembler holds is what the decoder reads (41 R183). -/
theorem decode_toList (m : OpMap) (f : Vector Byte 5) (rest : List Byte) :
    decode m (f.toList ++ rest) = .ok (decodeOp m f[0] (frameOperand f), rest) := by
  obtain ⟨⟨l⟩, hl⟩ := f
  match l, hl with
  | [f0, f1, f2, f3, f4], _ => rfl

end Sys2Proof.Machine
end

