-- ==== Sys2Proof/Laws/Engine.lean ====
section
/-! SUPPORT. The induction over what a command does, said once: a relation that every small update keeps holds from before a
command to after it. -/

namespace Sys2Proof.Machine

open Sys2Proof Sys2Proof.Safety

/-- A relation between states that holds across every straight-line step of a class, and across the steps of a wait. -/
structure Steady (ok : Act → Bool) (R : State → State → Prop) : Prop where
  refl : ∀ s, R s s
  trans : ∀ {s t u}, R s t → R t u → R s u
  fire : ∀ a s, ok a = true → R s (fire a s)
  poll : ∀ s, R s (pollStatus s)
  count : ∀ s, R s (countDown s)
  start : ∀ s, R s (startWait s)

namespace Steady

variable {ok : Act → Bool} {R : State → State → Prop} (h : Steady ok R)

include h

theorem perform {as : List Act} (ha : ∀ a ∈ as, ok a = true) (s : State) : R s (Machine.perform as s) := by
  induction as generalizing s with
  | nil => exact h.refl s
  | cons a as ih =>
    exact h.trans (h.fire a s (ha a List.mem_cons_self)) (ih (fun b hb => ha b (List.mem_cons_of_mem _ hb)) _)

theorem waitLoop (n : Nat) (s : State) : R s (Machine.waitLoop n s).2 := by
  induction n generalizing s with
  | zero => exact h.poll s
  | succ n ih =>
    unfold Machine.waitLoop
    split_ifs
    · exact h.trans (h.trans (h.poll s) (h.count _)) (ih _)
    · exact h.poll s

theorem waitReady (s : State) : R s (Machine.waitReady s).2 :=
  h.trans (h.start s) (h.waitLoop _ _)

theorem stage (w : Site) {as : List Act} (ha : ∀ a ∈ as, ok a = true) (he : ∀ a ∈ errorEntry w, ok a = true) (s : State) :
    R s (Machine.stage w as s).2 := by
  have h₁ := h.trans (h.perform ha s) (h.waitReady _)
  unfold Machine.stage
  split
  next u hu => rw [hu] at h₁; exact h₁
  next u hu => rw [hu] at h₁; exact h.trans h₁ (h.perform he u)

theorem andThen {s : State} {r : Option Site × State} {f : State → Option Site × State} (hr : R s r.2)
    (hf : ∀ u, R u (f u).2) : R s (Machine.andThen r f).2 := by
  unfold Machine.andThen
  split
  · exact h.trans hr (hf _)
  · exact hr

end Steady

/-- A relation between states that holds across every small update a command or a stream tick is made of. -/
structure Keeps (R : State → State → Prop) : Prop extends Steady actInRun R where
  cfg : ∀ s, s.cfgValid = false → R s (Machine.fire .cfgRead s)
  payload : ∀ b q s, s.rxQueue = b :: q → s.wrCnt < payloadBytes → R s (payloadByte b q s)
  begin_ : ∀ i s, R s (beginCommand i s)
  wait : ∀ s, R s (goto [.recvPayload] s)

namespace Keeps

variable {R : State → State → Prop} (h : Keeps R)

include h

theorem stage (w : Site) {as : List Act} (ha : ∀ a ∈ as, actInRun a = true) (s : State) :
    R s (Machine.stage w as s).2 :=
  h.toSteady.stage w ha (by simp [errorEntry, actInRun]) s

omit h in
theorem byteAddress_low (lba : Word) : byteAddress lba &&& 0x1FF#32 = 0#32 := by
  apply BitVec.eq_of_getLsbD_eq
  intro i hi
  simp only [byteAddress, BitVec.getLsbD_and, BitVec.getLsbD_shiftLeft, BitVec.getLsbD_zero]
  interval_cases i <;> simp

omit h in
theorem readSetup_run (lba : Word) : ∀ a ∈ readSetup lba, actInRun a = true := by
  simp [readSetup, actInRun, writeInRun, strobes, byteAddress_low]

omit h in
theorem readDrain_run : ∀ a ∈ readDrain, actInRun a = true := by
  intro a ha
  simp only [readDrain, List.mem_cons, List.mem_flatMap] at ha
  obtain rfl | ⟨k, -, hk⟩ := ha
  · rfl
  · simp [drainStep] at hk
    obtain rfl | rfl := hk <;> rfl

omit h in
theorem eraseSetup_run (lba : Word) : ∀ a ∈ eraseSetup lba, actInRun a = true := by
  simp [eraseSetup, actInRun, writeInRun, strobes, byteAddress_low]

omit h in
theorem writeFill_run : ∀ a ∈ writeFill, actInRun a = true := by
  intro a ha
  simp only [writeFill, List.mem_append, List.mem_flatMap] at ha
  obtain h | ⟨k, -, hk⟩ := ha
  · simp at h
    obtain rfl | rfl | rfl := h <;> rfl
  · simp [fillStep] at hk
    obtain rfl | rfl := hk <;> rfl

omit h in
theorem writeAddr_run (lba : Word) : ∀ a ∈ writeAddr lba, actInRun a = true := by
  simp [writeAddr, actInRun, writeInRun, strobes, byteAddress_low]

omit h in
theorem writeCommit_run : ∀ a ∈ writeCommit, actInRun a = true := by
  simp [writeCommit, actInRun, writeInRun, strobes]

theorem readBlock (w : Site) (lba : Word) (s : State) : R s (Machine.readBlock w lba s).2 := by
  unfold Machine.readBlock
  refine h.toSteady.andThen (h.stage w (readSetup_run lba) s) fun u => ?_
  have hd := h.toSteady.perform readDrain_run u
  generalize Machine.perform readDrain u = v at hd
  exact hd

theorem eraseBlock (lba : Word) (s : State) : R s (Machine.eraseBlock lba s).2 :=
  h.stage .erase (eraseSetup_run lba) s

theorem getFlashConfig (s : State) : R s (Machine.getFlashConfig s) := by
  unfold Machine.getFlashConfig
  split_ifs with hc
  · exact h.refl s
  · exact h.cfg s (by simpa using hc)

theorem programBlock (lba : Word) (s : State) : R s (Machine.programBlock lba s).2 :=
  h.toSteady.andThen (h.stage .fill writeFill_run s) fun u =>
    h.toSteady.andThen (h.stage .addr (writeAddr_run lba) u) fun v => h.stage .commit writeCommit_run v

theorem writeBlock (lba : Word) (s : State) : R s (Machine.writeBlock lba s).2 := by
  refine h.toSteady.andThen (h.trans (h.getFlashConfig s) ?_) fun u => h.programBlock lba u
  unfold eraseOnBoundary
  split_ifs
  · exact h.eraseBlock lba _
  · exact h.refl _

theorem reply {onOk : List Act} (ha : ∀ a ∈ onOk, actInRun a = true) {s : State} {r : Option Site × State}
    (hr : R s r.2) : R s (Machine.reply onOk r) := by
  unfold Machine.reply
  split
  · exact h.trans hr (h.toSteady.perform ha _)
  · next w u =>
    refine h.trans hr (h.toSteady.perform ?_ u)
    cases w <;> simp [errorReturn, actInRun]

theorem takePayload (q : List Byte) (s : State) (hq : s.rxQueue = q) : R s (Machine.takePayload q s) := by
  induction q generalizing s with
  | nil => exact h.refl s
  | cons b q ih =>
    unfold Machine.takePayload
    split_ifs with hlt
    · exact h.trans (h.payload b q s hq hlt) (ih _ rfl)
    · exact h.refl s

theorem payloadReceive (s : State) : R s (Machine.payloadReceive s) := by
  refine h.trans (h.takePayload s.rxQueue s rfl) ?_
  unfold Machine.payloadReceive payloadDecide
  split_ifs
  · exact h.toSteady.perform (by simp [actInRun]) _
  · exact h.wait _
  · exact h.reply (by simp [writeReply, actInRun]) (h.writeBlock _ _)

theorem streamTick (s : State) : R s (Machine.streamTick s) := by
  unfold Machine.streamTick
  split_ifs
  · exact h.fire .deactivate s rfl
  · exact h.reply (by simp [tickReply, actInRun]) (h.readBlock _ _ s)
  · exact h.refl s

/-- What a command does keeps the relation. -/
theorem exec {i : Instr} {s t : State} (he : Machine.exec i s = .next t) : R s t := by
  cases i <;> simp only [Machine.exec, execGetVersion, execGetFlashConfig, execReadFlash, execWriteFlash, execReadFlashStream,
    execRebootToBootloader, execReservedEmmc, execReservedDaughterboard, execUnrecognized, Host.Outcome.next.injEq] at he <;>
    subst he
  case getFlashConfig lba =>
    exact h.trans (h.trans (h.begin_ _ s) (h.getFlashConfig _)) (h.toSteady.perform (by simp [actInRun]) _)
  case readFlash lba =>
    exact h.trans (h.begin_ _ s) (h.reply (by simp [readReply, actInRun]) (h.readBlock _ _ _))
  case writeFlash lba =>
    exact h.trans (h.trans (h.begin_ _ s) (h.toSteady.perform (by simp [actInRun]) _)) (h.payloadReceive _)
  all_goals exact h.trans (h.begin_ _ s) (h.toSteady.perform (by simp [actInRun]) _)

end Keeps

end Sys2Proof.Machine
end

