-- ==== Sys2Proof/Laws/Commute.lean ====
section
/-! SUPPORT. A change of the state that no command reads, said once: a map that commutes with every small update a command is
made of commutes with the command. -/

namespace Sys2Proof.Machine

open Sys2Proof Sys2Proof.Safety

/-- A map of states that leaves alone what the NAND operations read, and commutes with their small updates. -/
structure Commutes (f : State → State) : Prop where
  params : ∀ s, (f s).params = s.params
  cfgValid : ∀ s, (f s).cfgValid = s.cfgValid
  cfgValue : ∀ s, (f s).cfgValue = s.cfgValue
  sLast : ∀ s, (f s).sLast = s.sLast
  stActive : ∀ s, (f s).stActive = s.stActive
  stCur : ∀ s, (f s).stCur = s.stCur
  stEnd : ∀ s, (f s).stEnd = s.stEnd
  fire : ∀ a s, fire a (f s) = f (fire a s)
  poll : ∀ s, pollStatus (f s) = f (pollStatus s)
  count : ∀ s, countDown (f s) = f (countDown s)
  start : ∀ s, startWait (f s) = f (startWait s)

/-- Lift a map of states to the result of an operation. -/
def onState (f : State → State) (r : Option Site × State) : Option Site × State :=
  (r.1, f r.2)

theorem andThen_onState {f : State → State} {r r' : Option Site × State} {g g' : State → Option Site × State} (hr : r' = onState f r)
    (hg : ∀ u, g' (f u) = onState f (g u)) : Machine.andThen r' g' = onState f (Machine.andThen r g) := by
  subst hr
  rcases r with ⟨o, u⟩
  cases o
  · exact hg u
  · rfl

namespace Commutes

variable {f : State → State} (h : Commutes f)

include h

theorem perform (as : List Act) (s : State) : Machine.perform as (f s) = f (Machine.perform as s) := by
  induction as generalizing s with
  | nil => rfl
  | cons a as ih => rw [perform_cons, perform_cons, h.fire, ih]

theorem waitLoop (n : Nat) (s : State) :
    Machine.waitLoop n (f s) = ((Machine.waitLoop n s).1, f (Machine.waitLoop n s).2) := by
  induction n generalizing s with
  | zero => simp only [Machine.waitLoop, h.poll, h.sLast]
  | succ n ih =>
    simp only [Machine.waitLoop, h.poll, h.sLast, h.count]
    split_ifs
    · exact ih _
    · rfl

theorem waitReady (s : State) :
    Machine.waitReady (f s) = ((Machine.waitReady s).1, f (Machine.waitReady s).2) := by
  simp only [Machine.waitReady, h.params, h.start]
  exact h.waitLoop _ _

theorem stage (w : Site) (as : List Act) (s : State) : Machine.stage w as (f s) = onState f (Machine.stage w as s) := by
  unfold Machine.stage
  rw [h.perform, h.waitReady]
  rcases Machine.waitReady (Machine.perform as s) with ⟨b, u⟩
  cases b
  · simp only [h.perform, onState]
  · rfl

theorem readBlock (w : Site) (lba : Word) (s : State) :
    Machine.readBlock w lba (f s) = onState f (Machine.readBlock w lba s) := by
  refine andThen_onState (h.stage _ _ _) fun u => ?_
  have := h.perform readDrain u
  simp only [this, onState]

theorem getFlashConfig (s : State) : Machine.getFlashConfig (f s) = f (Machine.getFlashConfig s) := by
  simp only [Machine.getFlashConfig, h.cfgValid, h.fire]
  split_ifs <;> rfl

theorem programBlock (lba : Word) (s : State) :
    Machine.programBlock lba (f s) = onState f (Machine.programBlock lba s) :=
  andThen_onState (h.stage _ _ _) fun _ => andThen_onState (h.stage _ _ _) fun _ => h.stage _ _ _

theorem eraseOnBoundary (lba : Word) (s : State) :
    Machine.eraseOnBoundary lba (f s) = onState f (Machine.eraseOnBoundary lba s) := by
  simp only [Machine.eraseOnBoundary, h.params, h.cfgValue]
  split_ifs
  · exact h.stage _ _ _
  · rfl

theorem writeBlock (lba : Word) (s : State) :
    Machine.writeBlock lba (f s) = onState f (Machine.writeBlock lba s) := by
  unfold Machine.writeBlock
  rw [h.getFlashConfig]
  exact andThen_onState (h.eraseOnBoundary _ _) fun u => h.programBlock lba u

theorem reply (onOk : List Act) {r r' : Option Site × State} (hr : r' = onState f r) :
    Machine.reply onOk r' = f (Machine.reply onOk r) := by
  subst hr
  rcases r with ⟨o, u⟩
  cases o <;> exact h.perform _ _

theorem streamTick (s : State) : Machine.streamTick (f s) = f (Machine.streamTick s) := by
  simp only [Machine.streamTick, h.stActive, h.stCur, h.stEnd]
  split_ifs
  · exact h.fire _ _
  · exact h.reply _ (h.readBlock _ _ _)
  · rfl

end Commutes

/-- Going elsewhere is such a change: no command reads the pc. -/
theorem commutes_goto (k : List Op) : Commutes (goto k) where
  params _ := rfl
  cfgValid _ := rfl
  cfgValue _ := rfl
  sLast _ := rfl
  stActive _ := rfl
  stCur _ := rfl
  stEnd _ := rfl
  fire a s := by
    cases a
    case errStatus =>
      simp only [fire, goto_params]
      cases s.params.errStatusSource <;> rfl
    case pins c =>
      have h : ∀ (cs : List (Line × PinLevel)) (u : State), cs.foldl setLine (goto k u) = goto k (cs.foldl setLine u) := by
        intro cs
        induction cs with
        | nil => intro u; rfl
        | cons x cs ih => intro u; obtain ⟨l, v⟩ := x; rw [List.foldl_cons, List.foldl_cons, ← ih]; cases l <;> rfl
      simp only [fire, setPins, h]
      rfl
    all_goals rfl
  poll _ := rfl
  count _ := rfl
  start _ := rfl

/-- The payload receive goes the same way from wherever it is entered, but for where it goes on. -/
theorem takePayload_goto (q : List Byte) (k : List Op) (s : State) :
    takePayload q (goto k s) = goto k (takePayload q s) := by
  induction q generalizing s with
  | nil => rfl
  | cons b q ih =>
    unfold takePayload
    by_cases hc : s.wrCnt < payloadBytes
    · simp only [goto_wrCnt, hc, if_true]
      exact ih (payloadByte b q s)
    · simp only [goto_wrCnt, hc, if_false]

theorem finishWrite_goto (k : List Op) (s : State) : finishWrite (goto k s) = goto k (finishWrite s) :=
  (commutes_goto k).reply _ ((commutes_goto k).writeBlock _ _)

end Sys2Proof.Machine
end

