-- ==== Sys2Proof/Laws/PerInstr.lean ====
section
/-! SUPPORT. The family of facts that hold of every instruction as syntax: the shape of its frame (30 R100, R111). -/

namespace Sys2Proof.Laws.EncodingShape

open Sys2Proof

/-- The frame of an instruction has five bytes: its op byte, then its operand, the least significant byte first
(30 R100, R102, R111). -/
def Statement (i : Instr) : Prop :=
  ∀ m : OpMap, (encode m i).length = 5 ∧ (encode m i).head? = some (opcodeOf m i)
    ∧ (encode m i).tail = le32 (operandOf i)

theorem getVersion (lba : Word) : Statement (.getVersion lba) := fun _ => ⟨rfl, rfl, rfl⟩

theorem getFlashConfig (lba : Word) : Statement (.getFlashConfig lba) := fun _ => ⟨rfl, rfl, rfl⟩

theorem readFlash (lba : Word) : Statement (.readFlash lba) := fun _ => ⟨rfl, rfl, rfl⟩

theorem writeFlash (lba : Word) : Statement (.writeFlash lba) := fun _ => ⟨rfl, rfl, rfl⟩

theorem readFlashStream (lba : Word) : Statement (.readFlashStream lba) := fun _ => ⟨rfl, rfl, rfl⟩

theorem rebootToBootloader (lba : Word) : Statement (.rebootToBootloader lba) := fun _ => ⟨rfl, rfl, rfl⟩

theorem reservedEmmc (op : Byte) (lba : Word) : Statement (.reservedEmmc op lba) := fun _ => ⟨rfl, rfl, rfl⟩

theorem reservedDaughterboard (op : Byte) (lba : Word) : Statement (.reservedDaughterboard op lba) :=
  fun _ => ⟨rfl, rfl, rfl⟩

theorem unrecognized (op : Byte) (lba : Word) : Statement (.unrecognized op lba) := fun _ => ⟨rfl, rfl, rfl⟩

end Sys2Proof.Laws.EncodingShape
end

