-- ==== Sys2Proof/Laws/Power.lean ====
section
/-! SUPPORT. What the two power sequences leave (43 R240, R241). -/

namespace Sys2Proof.Machine

open Sys2Proof

/-- The events of `stop_controller` before its TransportUp (43 R240). -/
def stopEvents (ms : Nat) : List Event :=
  [.pins [(.dbg, .low)], .settle ms, .pins [(.cs, .low), (.rst, .low)], .settle ms,
    .pins [(.dbg, .released), (.rst, .released)], .settle ms, .pins [(.cs, .released)], .settle ms]

/-- The events of `start_controller` (43 R241). -/
def startEvents (ms : Nat) : List Event :=
  [.transportDown, .pins [(.dbg, .low), (.rst, .low)], .settle ms, .pins [(.rst, .released)]]

theorem perform_stopSequence (s : State) :
    perform stopSequence s = { s with
      pinDbg := .released
      pinRst := .released
      pinCs := .released
      trace := (stopEvents s.params.settleMinMs).reverse ++ s.trace } := by
  simp only [stopSequence, perform_cons, perform_nil, fire, setPins, settle, emit, List.foldl_cons, List.foldl_nil, setLine,
    stopEvents, List.reverse_cons, List.reverse_nil, List.nil_append, List.cons_append]

theorem perform_startSequence (s : State) :
    perform startSequence s = { s with
      transportUp := false
      pinDbg := .low
      pinRst := .released
      phase := .halted
      trace := (startEvents s.params.settleMinMs).reverse ++ s.trace } := by
  simp only [startSequence, perform_cons, perform_nil, fire, transportDown, setPins, settle, emit, List.foldl_cons,
    List.foldl_nil, setLine, startEvents, List.reverse_cons, List.reverse_nil, List.nil_append, List.cons_append]

/-- What STOP leaves (43 R240, 70 R292). -/
theorem runStop_eq (s : State) :
    runStop s = if s.initAnswer then
        { dropInit s with
          pinDbg := .released
          pinRst := .released
          pinCs := .released
          transportUp := true
          phase := .run
          pc := [.loopTop]
          trace := .transportUp true :: ((stopEvents s.params.settleMinMs).reverse ++ s.trace) }
      else
        { dropInit s with
          pinDbg := .released
          pinRst := .released
          pinCs := .released
          exitCode := .one
          phase := .start
          pc := [.start]
          trace := .log .fatalTransportInit :: .transportUp false :: ((stopEvents s.params.settleMinMs).reverse ++ s.trace) } := by
  unfold runStop
  rw [perform_stopSequence]
  unfold bringUp
  by_cases h : s.initAnswer = true
  · rw [if_pos h, if_pos (by exact h)]
    have h' : s.initAnswers.head?.getD (Config.initAnswer s.initDraws) = true := h
    simp [afterTransportUp, transportUpOk, emit, goto, dropInit, State.initAnswer, h']
  · rw [if_neg h, if_neg (by exact h)]
    have h' : s.initAnswers.head?.getD (Config.initAnswer s.initDraws) = false := Bool.eq_false_of_not_eq_true h
    simp [afterTransportUp, transportUpOk, transportFailed, fire, logCause, emit, goto, dropInit, State.initAnswer, h']

/-- What START leaves (43 R241, 70 R294). -/
theorem runStart_eq (s : State) :
    runStart s = { s with
      transportUp := false
      pinDbg := .low
      pinRst := .released
      phase := .halted
      pc := []
      trace := (startEvents s.params.settleMinMs).reverse ++ s.trace } := by
  unfold runStart
  rw [perform_startSequence]
  rfl

end Sys2Proof.Machine
end

