-- ==== Sys2Proof/Laws/Step.lean ====
section
/-! SUPPORT. What one step can be: the engine's, so many events, a move of the host, or one of the two refusals. -/

namespace Sys2Proof.Machine

open Sys2Proof

/-- A turn of the host. -/
theorem step_host {s : State} {m : HostMove} {rest : List Turn} (hp : s.params.ops.wf = true) (hm : s.stMedium = .nand)
    (hs : s.script = .host m :: rest) : step s = .next (applyMove m { s with script := rest }) := by
  simp only [step, hp, if_true, hm, hs]

/-- A turn of so many events. -/
theorem step_events {s : State} {k : Nat} {rest : List Turn} (hp : s.params.ops.wf = true) (hm : s.stMedium = .nand)
    (hs : s.script = .events k :: rest) : step s = .next (events k { s with script := rest }) := by
  simp only [step, hp, if_true, hm, hs]

/-- A turn of the engine the script names. -/
theorem step_engine {s : State} {rest : List Turn} (hp : s.params.ops.wf = true) (hm : s.stMedium = .nand)
    (hs : s.script = .engine :: rest) : step s = engineStep { s with script := rest } := by
  simp only [step, hp, if_true, hm, hs]

/-- With no turn named, the engine moves. -/
theorem step_empty {s : State} (hp : s.params.ops.wf = true) (hm : s.stMedium = .nand) (hs : s.script = []) :
    step s = engineStep s := by
  simp only [step, hp, if_true, hm, hs]

/-- 00 R10. -/
theorem step_badParams {s : State} (hp : s.params.ops.wf = false) : step s = .refused .badParams := by
  simp [step, hp]

/-- Every command answers a next state. -/
theorem exec_next (i : Instr) (s : State) : ∃ t, exec i s = .next t := by
  cases i <;> exact ⟨_, rfl⟩

/-- Every step of the engine answers a next state. -/
theorem engineStep_next (s : State) : ∃ t, engineStep s = .next t := by
  unfold engineStep advanceEngine
  split_ifs
  · exact ⟨_, rfl⟩
  · split
    · split
      · exact exec_next _ _
      · exact ⟨_, rfl⟩
    · exact ⟨_, rfl⟩

/-- Held back, the engine does nothing (60 R265). -/
theorem engineStep_held {s : State} (h : s.held = true) : engineStep s = .next s := by
  rw [engineStep, if_pos h]

/-- Not held back, it advances. -/
theorem engineStep_free {s : State} (h : s.held = false) : engineStep s = advanceEngine s := by
  simp [engineStep, h]

/-- A gate is the only place where the engine can be held back. -/
theorem held_of_pc {s : State} {o : Op} {k : List Op} (h : s.pc = o :: k) (ho : isGate o = false) : s.held = false := by
  simp [State.held, State.atGate, h, ho]

/-- Held back, the sequencer does nothing. -/
theorem eventStep_held {s : State} (h : s.held = true) : eventStep s = s := by
  rw [eventStep, if_pos h]

/-- Not held back, it does the operation the pc stands at. -/
theorem eventStep_free {s : State} {o : Op} {k : List Op} (h : s.held = false) (hk : s.pc = o :: k) :
    eventStep s = opStep o k s := by
  simp [eventStep, h, hk]

/-- Held back, no number of events changes anything. -/
theorem events_held {s : State} (h : s.held = true) (n : Nat) : events n s = s := by
  induction n with
  | zero => rfl
  | succ n ih => rw [events, eventStep_held h]; exact ih

/-- Everything a step that answers a next state can be. -/
theorem step_cases {s t : State} (h : step s = .next t) :
    s.params.ops.wf = true ∧ s.stMedium = .nand
      ∧ ((s.script = [] ∧ engineStep s = .next t)
        ∨ (∃ rest, s.script = .engine :: rest ∧ engineStep { s with script := rest } = .next t)
        ∨ (∃ k rest, s.script = .events k :: rest ∧ t = events k { s with script := rest })
        ∨ ∃ m rest, s.script = .host m :: rest ∧ t = applyMove m { s with script := rest }) := by
  by_cases hp : s.params.ops.wf = true
  · by_cases hm : s.stMedium = .nand
    · refine ⟨hp, hm, ?_⟩
      match hs : s.script with
      | [] => exact .inl ⟨rfl, step_empty hp hm hs ▸ h⟩
      | .engine :: rest => exact .inr (.inl ⟨rest, rfl, step_engine hp hm hs ▸ h⟩)
      | .events k :: rest =>
        refine .inr (.inr (.inl ⟨k, rest, rfl, ?_⟩))
        rw [step_events hp hm hs] at h
        exact (Host.Outcome.next.inj h).symm
      | .host m :: rest =>
        refine .inr (.inr (.inr ⟨m, rest, rfl, ?_⟩))
        rw [step_host hp hm hs] at h
        exact (Host.Outcome.next.inj h).symm
    · have hm' : s.stMedium = .emmcReserved := by
        cases hn : s.stMedium
        · exact absurd hn hm
        · rfl
      simp [step, hp, hm'] at h
  · simp [step, hp] at h

/-- A run of one step and more, by its first step. -/
theorem run_next {s t : State} (h : step s = .next t) (n : Nat) :
    Host.Core.run Sys2Proof.core (n + 1) s = Host.Core.run Sys2Proof.core n t := by
  refine (Host.Core.run.eq_2 Sys2Proof.core s n).trans ?_
  have h' : Sys2Proof.core.step s = .next t := h
  rw [h']

end Sys2Proof.Machine
end

