-- ==== Sys2Proof/Laws/Reach.lean ====
section
/-! SUPPORT. The two levels of the model, part by part: from the sequence of operations that stands for a part of a procedure,
the sequencer comes, event by event, to the state the part has when it is run whole (10 R32, 92 D1). -/

namespace Sys2Proof.Machine

open Sys2Proof

/-- From the one state the sequencer comes to the other in so many events. -/
def Reach (s t : State) : Prop := ∃ n, t = events n s

theorem events_add (n m : Nat) (s : State) : events (n + m) s = events m (events n s) := by
  induction n generalizing s with
  | zero => simp [events]
  | succ n ih => rw [Nat.succ_add]; exact ih _

namespace Reach

theorem refl (s : State) : Reach s s := ⟨0, rfl⟩

theorem trans {s t u : State} (h : Reach s t) (h' : Reach t u) : Reach s u := by
  obtain ⟨n, rfl⟩ := h
  obtain ⟨m, rfl⟩ := h'
  exact ⟨n + m, (events_add n m s).symm⟩

/-- The operation the pc stands at, where nothing holds the engine back. -/
theorem free {o : Op} {k : List Op} {s : State} (hf : s.held = false) (h : s.pc = o :: k) : Reach s (opStep o k s) := by
  have h₁ : Reach s (eventStep s) := ⟨1, rfl⟩
  rwa [eventStep_free hf h] at h₁

/-- The operation the pc stands at, where it is no gate. -/
theorem op {o : Op} {k : List Op} {s : State} (h : s.pc = o :: k) (ho : isGate o = false := by rfl) :
    Reach s (opStep o k s) :=
  free (held_of_pc h ho) h

theorem goto_goto (k k' : List Op) (s : State) : goto k (goto k' s) = goto k s := rfl

/-- Straight-line steps. -/
theorem acts (as : List Act) (k : List Op) (s : State) : Reach (goto (Machine.acts as ++ k) s) (goto k (perform as s)) := by
  induction as generalizing s with
  | nil => exact refl _
  | cons a as ih =>
    refine (op (o := .act a) (k := Machine.acts as ++ k) rfl).trans ?_
    have e : opStep (.act a) (Machine.acts as ++ k) (goto (Machine.acts (a :: as) ++ k) s)
        = goto (Machine.acts as ++ k) (fire a s) := by
      simp only [opStep]
      rw [← (commutes_goto _).fire]
      rfl
    rw [e]
    exact ih (fire a s)

theorem poll (w : Site) (k : List Op) (n : Nat) (s : State) (ht : s.t.toNat = n) :
    Reach (goto (.poll w :: k) s)
      (if (waitLoop n s).1 then goto k (waitLoop n s).2 else goto (failOps w) (waitLoop n s).2) := by
  induction n generalizing s with
  | zero =>
    have h0 : (goto (Op.poll w :: k) s).t = 0#16 := by apply BitVec.eq_of_toNat_eq; simpa using ht
    refine (op (o := .poll w) (k := k) (s := goto (.poll w :: k) s) rfl).trans ?_
    have hb : busy (pollStatus (goto (.poll w :: k) s)).sLast = busy (pollStatus s).sLast := rfl
    simp only [opStep, pollTurn, hb, waitLoop]
    by_cases hc : busy (pollStatus s).sLast = true
    · simp only [hc, if_true, h0, Bool.not_true, Bool.false_eq_true, if_false]
      exact refl _
    · simp only [hc]
      exact refl _
  | succ n ih =>
    have h0 : (goto (Op.poll w :: k) s).t ≠ 0#16 := by
      intro h
      rw [show (goto (Op.poll w :: k) s).t = s.t from rfl] at h
      rw [h] at ht
      simp at ht
    refine (op (o := .poll w) (k := k) (s := goto (.poll w :: k) s) rfl).trans ?_
    have hb : busy (pollStatus (goto (.poll w :: k) s)).sLast = busy (pollStatus s).sLast := rfl
    simp only [opStep, pollTurn, hb, waitLoop]
    by_cases hc : busy (pollStatus s).sLast = true
    · simp only [hc, if_true, h0, if_false]
      have ht' : (countDown (pollStatus s)).t.toNat = n := by
        simp only [countDown_t, pollStatus_t]
        have := s.t.isLt
        rw [BitVec.toNat_sub]
        simp
        omega
      exact ih _ ht'
    · simp only [hc]
      exact refl _

/-- A `wait_ready` (40 R133). -/
theorem wait (w : Site) (k : List Op) (s : State) :
    Reach (goto (.wait w :: k) s)
      (if (waitReady s).1 then goto k (waitReady s).2 else goto (failOps w) (waitReady s).2) :=
  (op (o := .wait w) (k := k) rfl).trans (poll w k _ (startWait s) rfl)

/-- Error entry and error return (60 R268, R269). -/
theorem fail (w : Site) (s : State) :
    Reach (goto (failOps w) s) (goto [errorResume w] (perform (errorReturn w) (perform (errorEntry w) s))) := by
  have h := acts (errorEntry w ++ errorReturn w) [errorResume w] s
  rwa [perform_append] at h

/-- A sequence of transactions and its wait. -/
theorem stage (w : Site) (as : List Act) (k : List Op) (s : State) :
    Reach (goto (Machine.acts as ++ (.wait w :: k)) s)
      (match Machine.stage w as s with
       | (none, u) => goto k u
       | (some w', u) => goto [errorResume w'] (perform (errorReturn w') u)) := by
  refine (acts as _ s).trans ((wait w k _).trans ?_)
  unfold Machine.stage
  rcases h : waitReady (perform as s) with ⟨b, u⟩
  cases b
  · exact fail w u
  · exact refl _

/-- Only the wait of a stage can fail in it. -/
theorem stage_site (w : Site) (as : List Act) (s : State) :
    (Machine.stage w as s).1 = none ∨ (Machine.stage w as s).1 = some w := by
  unfold Machine.stage
  split <;> simp

/-- `read_block` and its caller's reply (40 R135). -/
theorem read (w : Site) (lba : Word) (onOk : List Act) (s : State) :
    Reach (goto (readOps w lba onOk (errorResume w)) s) (goto [errorResume w] (reply onOk (readBlock w lba s))) := by
  have h := stage w (readSetup lba) (Machine.acts (readDrain ++ onOk) ++ [errorResume w]) s
  have e : readOps w lba onOk (errorResume w)
      = Machine.acts (readSetup lba) ++ (.wait w :: (Machine.acts (readDrain ++ onOk) ++ [errorResume w])) := by
    simp [readOps]
  rw [e]
  refine h.trans ?_
  unfold readBlock andThen
  have hw := stage_site w (readSetup lba) s
  rcases h : Machine.stage w (readSetup lba) s with ⟨o, u⟩
  rw [h] at hw
  cases o with
  | none =>
    have h' := acts (readDrain ++ onOk) [errorResume w] u
    rw [perform_append] at h'
    exact h'
  | some w' =>
    simp only [reduceCtorEq, Option.some.injEq, false_or] at hw
    subst hw
    exact refl _

/-- `write_block` from its fill on, and the reply (40 R139). -/
theorem program (lba : Word) (s : State) :
    Reach (goto (programOps lba) s) (goto [.loopTop] (reply writeReply (programBlock lba s))) := by
  have e : programOps lba = Machine.acts writeFill ++ (.wait .fill :: (Machine.acts (writeAddr lba) ++ (.wait .addr ::
      (Machine.acts writeCommit ++ (.wait .commit :: (Machine.acts writeReply ++ [.loopTop])))))) := by
    simp [programOps]
  rw [e]
  refine (stage .fill writeFill _ s).trans ?_
  unfold programBlock
  have h₁ := stage_site .fill writeFill s
  rcases h : Machine.stage .fill writeFill s with ⟨o, u⟩
  rw [h] at h₁
  cases o with
  | some w' =>
    simp only [reduceCtorEq, Option.some.injEq, false_or] at h₁
    subst h₁
    exact refl _
  | none =>
    refine (stage .addr (writeAddr lba) _ u).trans ?_
    simp only [andThen]
    have h₂ := stage_site .addr (writeAddr lba) u
    rcases h : Machine.stage .addr (writeAddr lba) u with ⟨o, v⟩
    rw [h] at h₂
    cases o with
    | some w' =>
      simp only [reduceCtorEq, Option.some.injEq, false_or] at h₂
      subst h₂
      exact refl _
    | none =>
      refine (stage .commit writeCommit _ v).trans ?_
      have h₃ := stage_site .commit writeCommit v
      rcases h : Machine.stage .commit writeCommit v with ⟨o, x⟩
      rw [h] at h₃
      cases o with
      | some w' =>
        simp only [reduceCtorEq, Option.some.injEq, false_or] at h₃
        subst h₃
        simp only [h]
        exact refl _
      | none =>
        simp only [h]
        exact acts _ _ _

/-- `write_block` and the reply, from the complete payload on (41 R187 steps 8 to 10). -/
theorem finish (s : State) : Reach (goto [.cfgTest, .eraseTest] s) (goto [.loopTop] (finishWrite s)) := by
  refine (op (o := .cfgTest) (k := [.eraseTest]) rfl).trans ?_
  have e : opStep .cfgTest [.eraseTest] (goto [.cfgTest, .eraseTest] s) = goto [.eraseTest] (getFlashConfig s) := by
    by_cases hc : s.cfgValid = true
    · simp only [opStep, getFlashConfig, goto_cfgValid, hc, if_true]
      rfl
    · simp only [opStep, getFlashConfig, goto_cfgValid, hc, (commutes_goto _).fire]
      rfl
  rw [e]
  have hl : (getFlashConfig s).curLba = s.curLba := by unfold getFlashConfig; split <;> rfl
  refine (op (o := .eraseTest) (k := []) rfl).trans ?_
  simp only [opStep, goto_params, goto_cfgValue, goto_curLba, finishWrite, writeBlock, eraseOnBoundary, hl]
  by_cases hb : onBoundary (getFlashConfig s).params (getFlashConfig s).cfgValue s.curLba = true
  · simp only [hb, if_true]
    have e' : eraseOps s.curLba ++ programOps s.curLba
        = Machine.acts (eraseSetup s.curLba) ++ (.wait .erase :: programOps s.curLba) := by simp [eraseOps]
    rw [e', goto_goto]
    refine (stage .erase (eraseSetup s.curLba) _ _).trans ?_
    unfold eraseBlock
    have h₁ := stage_site .erase (eraseSetup s.curLba) (getFlashConfig s)
    rcases h : Machine.stage .erase (eraseSetup s.curLba) (getFlashConfig s) with ⟨o, u⟩
    rw [h] at h₁
    cases o with
    | some w' =>
      simp only [reduceCtorEq, Option.some.injEq, false_or] at h₁
      subst h₁
      simp only [andThen, reply]
      exact refl _
    | none =>
      have hp := program s.curLba u
      simp only [andThen]
      exact hp
  · have hp := program s.curLba (getFlashConfig s)
    simp only [hb, goto_goto, andThen]
    exact hp

end Reach

end Sys2Proof.Machine
end

