-- ==== Sys2Proof/Laws/Write.lean ====
section
/-! SUPPORT. What `write_block` does, each way it can end (40 R139), from wherever it has come with its erase (`WriteBegins`). -/

namespace Sys2Proof.Machine

open Sys2Proof

/-- The state with its configuration cache filled as `get_flash_config` fills it (40 R130). -/
def configured (s : State) : State :=
  { s with
    cfgValid := true
    cfgValue := configOf s }

@[simp] theorem getFlashConfig_cfgValid (s : State) : (getFlashConfig s).cfgValid = true := by
  unfold getFlashConfig; split_ifs with h
  · exact h
  · rfl

@[simp] theorem getFlashConfig_cfgValue (s : State) : (getFlashConfig s).cfgValue = configOf s := by
  unfold getFlashConfig configOf; split_ifs <;> rfl

@[simp] theorem getFlashConfig_params (s : State) : (getFlashConfig s).params = s.params := by
  unfold getFlashConfig; split_ifs <;> rfl

@[simp] theorem getFlashConfig_wrBuf (s : State) : (getFlashConfig s).wrBuf = s.wrBuf := by
  unfold getFlashConfig; split_ifs <;> rfl

@[simp] theorem getFlashConfig_rdBuf (s : State) : (getFlashConfig s).rdBuf = s.rdBuf := by
  unfold getFlashConfig; split_ifs <;> rfl

@[simp] theorem getFlashConfig_lastWrite (s : State) : (getFlashConfig s).lastWrite = s.lastWrite := by
  unfold getFlashConfig; split_ifs <;> rfl

/-- `get_flash_config` reads REG_CFG at most once (40 R130). -/
theorem getFlashConfig_effect (s : State) : Effect s (getFlashConfig s) (configReads s) (configEvents s) := by
  unfold getFlashConfig configReads configEvents
  split_ifs with h
  · exact Effect.refl s
  · exact Effect.of_read .cfg rfl rfl rfl

theorem scrub_getFlashConfig (s : State) : scrub (getFlashConfig s) = scrub (configured s) := by
  unfold getFlashConfig configured configOf
  split_ifs with h
  · simp only [← h]
  · rfl

theorem configEvents_transactions (s : State) : ∀ e ∈ configEvents s, isTransaction e = true := by
  unfold configEvents
  split_ifs <;> simp [isTransaction]

/-- From `s` to `u` as a write goes: the transactions `es`, `n` answers, the configuration cache filled, and all else that
`scrub` keeps as it was. -/
structure Written (s u : State) (n : Nat) (es : List Event) : Prop where
  visible : u.visible = s.visible ++ es
  answers : ∀ k, u.answer k = s.answer (n + k)
  rest : scrub u = scrub (configured s)

theorem Written.config (s : State) : Written s (getFlashConfig s) (configReads s) (configEvents s) :=
  ⟨by rw [visible_append (getFlashConfig_effect s).history, transactions_visible (configEvents_transactions s)],
    (getFlashConfig_effect s).answers, scrub_getFlashConfig s⟩

theorem Written.trans {s u v : State} {n m : Nat} {es fs : List Event} (h : Written s u n es) (h' : Stretch u v m fs) :
    Written s v (n + m) (es ++ fs) :=
  ⟨by rw [h'.visible, h.visible, List.append_assoc], fun k => by rw [h'.answers, h.answers, Nat.add_assoc],
    h'.rest.trans h.rest⟩

theorem Written.answer_eq {s u : State} {n : Nat} {es : List Event} (h : Written s u n es) :
    u.answer = shift n s.answer := funext h.answers

theorem Written.params {s u : State} {n : Nat} {es : List Event} (h : Written s u n es) : u.params = s.params :=
  (rest_params h.rest : u.params = (configured s).params)

theorem Written.wrBuf {s u : State} {n : Nat} {es : List Event} (h : Written s u n es) : u.wrBuf = s.wrBuf :=
  (rest_wrBuf h.rest : u.wrBuf = (configured s).wrBuf)

theorem shift_shift (n m : Nat) (a : Nat → Word) : shift m (shift n a) = shift (n + m) a :=
  funext fun k => by simp [shift, Nat.add_assoc]

/-- A write that comes as far as its fill. -/
theorem writeBegins_ok {s : State} {lba : Word} {n : Nat} {es : List Event} (h : WriteBegins s lba n es) :
    ∃ u, eraseOnBoundary lba (getFlashConfig s) = (none, u) ∧ Written s u n es := by
  have hc := Written.config s
  obtain ⟨hb, rfl, rfl⟩ | ⟨hb, p, hr, rfl, rfl⟩ := h
  · exact ⟨_, by simp [eraseOnBoundary, onBoundary, hb], hc⟩
  · have hr' : ReadyAt (shift 2 (getFlashConfig s).answer) (getFlashConfig s).params.waitBudget.toNat p := by
      rw [hc.answer_eq, shift_shift, hc.params]; exact hr
    obtain ⟨u, hu, h₁⟩ := eraseBlock_ok (lba := lba) hr'
    refine ⟨u, by simp [eraseOnBoundary, onBoundary, hb, hu], ?_⟩
    have h₂ := hc.trans h₁
    rw [hc.answer_eq, shift_shift] at h₂
    exact h₂

/-- `write_block`, Ok (40 R139). -/
theorem writeBlock_ok {s : State} {lba : Word} {n p q r : Nat} {es : List Event} (h : WriteBegins s lba n es)
    (hp : ReadyAt (shift (n + 1) s.answer) s.params.waitBudget.toNat p)
    (hq : ReadyAt (shift (n + (1 + (p + 1))) s.answer) s.params.waitBudget.toNat q)
    (hr : ReadyAt (shift (n + (1 + (p + 1) + (q + 1))) s.answer) s.params.waitBudget.toNat r) :
    ∃ u, writeBlock lba s = (none, u)
      ∧ Written s u (n + (1 + (p + 1) + (q + 1) + (r + 1))) (es ++ programEvents (shift n s.answer) s.wrBuf lba p q r) := by
  obtain ⟨u₀, e₀, w₀⟩ := writeBegins_ok h
  obtain ⟨u₁, e₁, w₁⟩ := fillStage_ok (s := u₀) (p := p) (by rw [w₀.answer_eq, shift_shift, w₀.params]; exact hp)
  have w₁' := w₀.trans w₁
  obtain ⟨u₂, e₂, w₂⟩ := addrStage_ok (s := u₁) (lba := lba) (p := q)
    (by rw [w₁'.answer_eq, w₁'.params]; exact hq)
  have w₂' := w₁'.trans w₂
  obtain ⟨u₃, e₃, w₃⟩ := commitStage_ok (s := u₂) (p := r)
    (by rw [w₂'.answer_eq, w₂'.params]; simpa [Nat.add_assoc] using hr)
  have w₃' := w₂'.trans w₃
  refine ⟨u₃, by simp [writeBlock, andThen, e₀, programBlock, e₁, e₂, e₃], ?_⟩
  rw [w₂'.answer_eq, w₁'.answer_eq, w₀.answer_eq, w₀.wrBuf] at w₃'
  simp only [programEvents, shift_shift, List.append_assoc, Nat.add_assoc] at w₃' ⊢
  exact w₃'

/-- `write_block`, its erase NotReady: nothing is programmed (40 R139 step 5). -/
theorem writeBlock_eraseFails {s : State} {lba : Word} (hb : lba.toNat % sectorsInBlock s.params (configOf s) = 0)
    (hr : NeverReady (shift (configReads s + 2) s.answer) s.params.waitBudget.toNat) :
    ∃ u, writeBlock lba s = (some .erase, u)
      ∧ Written s u (configReads s + (2 + (s.params.waitBudget.toNat + 1 + errorReads s.params.errStatusSource)))
          (configEvents s ++ (eraseSetupEvents (shift (configReads s) s.answer) lba
            ++ timeoutEvents s.params.errStatusSource (shift (configReads s + 2) s.answer) s.params.waitBudget.toNat))
      ∧ u.err = failureWord s.params.errStatusSource (shift (configReads s + 2) s.answer) s.params.waitBudget.toNat := by
  have hc := Written.config s
  obtain ⟨u, hu, h₁, he⟩ := eraseBlock_never (lba := lba) (s := getFlashConfig s)
    (by rw [hc.answer_eq, shift_shift, hc.params]; exact hr)
  have h₂ := hc.trans h₁
  rw [hc.answer_eq, shift_shift, hc.params] at h₂ he
  exact ⟨u, by simp [writeBlock, andThen, eraseOnBoundary, onBoundary, hb, hu], h₂, he⟩

/-- `write_block`, its fill wait NotReady (40 R139 step 11). -/
theorem writeBlock_fillFails {s : State} {lba : Word} {n : Nat} {es : List Event} (h : WriteBegins s lba n es)
    (hr : NeverReady (shift (n + 1) s.answer) s.params.waitBudget.toNat) :
    ∃ u, writeBlock lba s = (some .fill, u)
      ∧ Written s u (n + (1 + (s.params.waitBudget.toNat + 1 + errorReads s.params.errStatusSource)))
          (es ++ (fillEvents (shift n s.answer) s.wrBuf
            ++ timeoutEvents s.params.errStatusSource (shift (n + 1) s.answer) s.params.waitBudget.toNat))
      ∧ u.err = failureWord s.params.errStatusSource (shift (n + 1) s.answer) s.params.waitBudget.toNat := by
  obtain ⟨u₀, e₀, w₀⟩ := writeBegins_ok h
  obtain ⟨u₁, e₁, w₁, he⟩ := fillStage_never (s := u₀) (by rw [w₀.answer_eq, shift_shift, w₀.params]; exact hr)
  have w₁' := w₀.trans w₁
  rw [w₀.answer_eq, shift_shift, w₀.params, w₀.wrBuf] at w₁'
  rw [w₀.answer_eq, shift_shift, w₀.params] at he
  exact ⟨u₁, by simp [writeBlock, andThen, e₀, programBlock, e₁], w₁', he⟩

/-- `write_block`, its address wait NotReady (40 R139 step 13). -/
theorem writeBlock_addrFails {s : State} {lba : Word} {n p : Nat} {es : List Event} (h : WriteBegins s lba n es)
    (hp : ReadyAt (shift (n + 1) s.answer) s.params.waitBudget.toNat p)
    (hr : NeverReady (shift (n + (1 + (p + 1))) s.answer) s.params.waitBudget.toNat) :
    ∃ u, writeBlock lba s = (some .addr, u)
      ∧ Written s u (n + (1 + (p + 1) + (s.params.waitBudget.toNat + 1 + errorReads s.params.errStatusSource)))
          (es ++ (fillEvents (shift n s.answer) s.wrBuf ++ pollEvents (shift (n + 1) s.answer) (p + 1)
            ++ (addrEvents lba
              ++ timeoutEvents s.params.errStatusSource (shift (n + (1 + (p + 1))) s.answer) s.params.waitBudget.toNat)))
      ∧ u.err = failureWord s.params.errStatusSource (shift (n + (1 + (p + 1))) s.answer) s.params.waitBudget.toNat := by
  obtain ⟨u₀, e₀, w₀⟩ := writeBegins_ok h
  obtain ⟨u₁, e₁, w₁⟩ := fillStage_ok (s := u₀) (p := p) (by rw [w₀.answer_eq, shift_shift, w₀.params]; exact hp)
  have w₁' := w₀.trans w₁
  obtain ⟨u₂, e₂, w₂, he⟩ := addrStage_never (s := u₁) (lba := lba) (by rw [w₁'.answer_eq, w₁'.params]; exact hr)
  have w₂' := w₁'.trans w₂
  rw [w₁'.answer_eq, w₁'.params, w₀.answer_eq, w₀.wrBuf, shift_shift] at w₂'
  rw [w₁'.answer_eq, w₁'.params] at he
  refine ⟨u₂, by simp [writeBlock, andThen, e₀, programBlock, e₁, e₂], ?_, he⟩
  simp only [List.append_assoc, Nat.add_assoc] at w₂' ⊢
  exact w₂'

/-- `write_block`, its commit wait NotReady (40 R139 step 17). -/
theorem writeBlock_commitFails {s : State} {lba : Word} {n p q : Nat} {es : List Event} (h : WriteBegins s lba n es)
    (hp : ReadyAt (shift (n + 1) s.answer) s.params.waitBudget.toNat p)
    (hq : ReadyAt (shift (n + (1 + (p + 1))) s.answer) s.params.waitBudget.toNat q)
    (hr : NeverReady (shift (n + (1 + (p + 1) + (q + 1))) s.answer) s.params.waitBudget.toNat) :
    ∃ u, writeBlock lba s = (some .commit, u)
      ∧ Written s u (n + (1 + (p + 1) + (q + 1) + (s.params.waitBudget.toNat + 1 + errorReads s.params.errStatusSource)))
          (es ++ (fillEvents (shift n s.answer) s.wrBuf ++ pollEvents (shift (n + 1) s.answer) (p + 1)
            ++ (addrEvents lba ++ pollEvents (shift (n + (1 + (p + 1))) s.answer) (q + 1))
            ++ (commitEvents ++ timeoutEvents s.params.errStatusSource (shift (n + (1 + (p + 1) + (q + 1))) s.answer)
              s.params.waitBudget.toNat)))
      ∧ u.err = failureWord s.params.errStatusSource (shift (n + (1 + (p + 1) + (q + 1))) s.answer)
          s.params.waitBudget.toNat := by
  obtain ⟨u₀, e₀, w₀⟩ := writeBegins_ok h
  obtain ⟨u₁, e₁, w₁⟩ := fillStage_ok (s := u₀) (p := p) (by rw [w₀.answer_eq, shift_shift, w₀.params]; exact hp)
  have w₁' := w₀.trans w₁
  obtain ⟨u₂, e₂, w₂⟩ := addrStage_ok (s := u₁) (lba := lba) (p := q)
    (by rw [w₁'.answer_eq, w₁'.params]; exact hq)
  have w₂' := w₁'.trans w₂
  have ha : shift (n + (1 + (p + 1)) + (q + 1)) s.answer = shift (n + (1 + (p + 1) + (q + 1))) s.answer := by
    simp [Nat.add_assoc]
  obtain ⟨u₃, e₃, w₃, he⟩ := commitStage_never (s := u₂) (by rw [w₂'.answer_eq, w₂'.params, ha]; exact hr)
  have w₃' := w₂'.trans w₃
  rw [w₂'.answer_eq, w₂'.params, w₁'.answer_eq, w₀.answer_eq, w₀.wrBuf, shift_shift, ha] at w₃'
  rw [w₂'.answer_eq, w₂'.params, ha] at he
  refine ⟨u₃, by simp [writeBlock, andThen, e₀, programBlock, e₁, e₂, e₃], ?_, he⟩
  simp only [List.append_assoc, Nat.add_assoc] at w₃' ⊢
  exact w₃'

/-- From its fill on a write succeeds, or fails at one of its three waits. -/
def ProgramWays (a : Nat → Word) (T n : Nat) : Prop :=
  NeverReady (shift (n + 1) a) T
    ∨ ∃ p, ReadyAt (shift (n + 1) a) T p
      ∧ (NeverReady (shift (n + (1 + (p + 1))) a) T
        ∨ ∃ q, ReadyAt (shift (n + (1 + (p + 1))) a) T q
          ∧ (NeverReady (shift (n + (1 + (p + 1) + (q + 1))) a) T
            ∨ ∃ r, ReadyAt (shift (n + (1 + (p + 1) + (q + 1))) a) T r))

theorem programWays (a : Nat → Word) (T n : Nat) : ProgramWays a T n := by
  obtain ⟨p, hp⟩ | hn := ready_or_never (shift (n + 1) a) T
  · refine Or.inr ⟨p, hp, ?_⟩
    obtain ⟨q, hq⟩ | hn := ready_or_never (shift (n + (1 + (p + 1))) a) T
    · refine Or.inr ⟨q, hq, ?_⟩
      obtain ⟨r, hr⟩ | hn := ready_or_never (shift (n + (1 + (p + 1) + (q + 1))) a) T
      · exact Or.inr ⟨r, hr⟩
      · exact Or.inl hn
    · exact Or.inl hn
  · exact Or.inl hn

/-- However a write goes, it ends in one of these ways. -/
theorem writeBlock_ways (s : State) (lba : Word) :
    (lba.toNat % sectorsInBlock s.params (configOf s) = 0
        ∧ NeverReady (shift (configReads s + 2) s.answer) s.params.waitBudget.toNat)
      ∨ ∃ n es, WriteBegins s lba n es ∧ ProgramWays s.answer s.params.waitBudget.toNat n := by
  by_cases hb : lba.toNat % sectorsInBlock s.params (configOf s) = 0
  · obtain ⟨p, hp⟩ | hn := ready_or_never (shift (configReads s + 2) s.answer) s.params.waitBudget.toNat
    · exact Or.inr ⟨_, _, Or.inr ⟨hb, p, hp, rfl, rfl⟩, programWays _ _ _⟩
    · exact Or.inl ⟨hb, hn⟩
  · exact Or.inr ⟨_, _, Or.inl ⟨hb, rfl, rfl⟩, programWays _ _ _⟩

end Sys2Proof.Machine
end

