-- ==== Sys2Proof/Laws/Window.lean ====
section
/-! SUPPORT. The read buffer and the record of the remote window: which steps write them, and what they hold after an operation
(40 R135, 60 R268). -/

namespace Sys2Proof.Machine

open Sys2Proof

/-- The register a straight-line step writes. -/
def actReg : Act → Option Reg
  | .write r _ => some r
  | .clearWrite => some .status
  | .enableWrite => some .cfg
  | .fillWord _ => some .data
  | _ => none

theorem fire_lastWrite_none {a : Act} (h : actReg a = none) (s : State) : (fire a s).lastWrite = s.lastWrite := by
  cases a <;> simp only [actReg, reduceCtorEq] at h <;> simp only [fire]
  case errStatus => split <;> simp
  all_goals first | rfl | simp

theorem fire_lastWrite_some {a : Act} {r : Reg} (h : actReg a = some r) (s : State) :
    ∃ v, (fire a s).lastWrite = windowWrite s.lastWrite (regAddr r).toNat v := by
  cases a <;> simp only [actReg, reduceCtorEq, Option.some.injEq] at h <;> subst h <;> simp only [fire]
  all_goals exact ⟨_, rfl⟩

/-- A step leaves every other register of the window alone. -/
theorem fire_window {a : Act} {x : Nat} (h : ∀ r, actReg a = some r → x ≠ (regAddr r).toNat) (s : State) :
    windowRead (fire a s).lastWrite x = windowRead s.lastWrite x := by
  cases ha : actReg a with
  | none => rw [fire_lastWrite_none ha]
  | some r =>
    obtain ⟨v, hv⟩ := fire_lastWrite_some ha s
    rw [hv, windowRead_write_other _ _ (h r ha)]

/-- Steps that write no register of a set leave what the window holds outside it. -/
theorem steady_window (ok : Act → Bool) (x : Nat) (h : ∀ a r, ok a = true → actReg a = some r → x ≠ (regAddr r).toNat) :
    Steady ok fun s t => windowRead t.lastWrite x = windowRead s.lastWrite x where
  refl _ := rfl
  trans h₁ h₂ := h₂.trans h₁
  fire a s ha := fire_window (fun r hr => h a r ha hr) s
  poll s := by simp
  count s := by simp
  start s := by simp

/-- Steps other than those of the drain. -/
def noDrain : Act → Bool
  | .drainWord _ => false
  | _ => true

theorem fire_rdBuf {a : Act} (h : noDrain a = true) (s : State) : (fire a s).rdBuf = s.rdBuf := by
  cases a <;> simp only [noDrain, Bool.false_eq_true] at h <;> simp only [fire]
  case errStatus => split <;> simp
  all_goals first | rfl | simp

theorem steady_rdBuf : Steady noDrain fun s t => t.rdBuf = s.rdBuf where
  refl _ := rfl
  trans h₁ h₂ := h₂.trans h₁
  fire _ s ha := fire_rdBuf ha s
  poll s := by simp
  count s := by simp
  start s := by simp

theorem noDrain_readSetup (lba : Word) : ∀ a ∈ readSetup lba, noDrain a = true := by simp [readSetup, noDrain]

theorem noDrain_eraseSetup (lba : Word) : ∀ a ∈ eraseSetup lba, noDrain a = true := by simp [eraseSetup, noDrain]

theorem noDrain_writeFill : ∀ a ∈ writeFill, noDrain a = true := by
  intro a ha
  simp only [writeFill, List.mem_append, List.mem_flatMap] at ha
  obtain h | ⟨k, -, hk⟩ := ha
  · simp at h
    obtain rfl | rfl | rfl := h <;> rfl
  · simp [fillStep] at hk
    obtain rfl | rfl := hk <;> rfl

theorem noDrain_errorEntry (w : Site) : ∀ a ∈ errorEntry w, noDrain a = true := by simp [errorEntry, noDrain]

theorem programBlock_rdBuf (lba : Word) (s : State) : (programBlock lba s).2.rdBuf = s.rdBuf := by
  have h := steady_rdBuf
  unfold programBlock
  refine h.andThen (h.stage .fill noDrain_writeFill (noDrain_errorEntry _) s) fun v => ?_
  refine h.andThen (h.stage .addr (by simp [writeAddr, noDrain]) (noDrain_errorEntry _) v) fun w => ?_
  exact h.stage .commit (by simp [writeCommit, noDrain]) (noDrain_errorEntry _) w

/-- A write leaves the read buffer alone, however it ends. -/
theorem writeBlock_rdBuf (lba : Word) (s : State) : (writeBlock lba s).2.rdBuf = s.rdBuf := by
  have h := steady_rdBuf
  have h₀ : (eraseOnBoundary lba (getFlashConfig s)).2.rdBuf = s.rdBuf := by
    unfold eraseOnBoundary
    split_ifs
    · exact (h.stage .erase (noDrain_eraseSetup lba) (noDrain_errorEntry _) _).trans (getFlashConfig_rdBuf s)
    · exact getFlashConfig_rdBuf s
  exact h.andThen (s := s) h₀ fun u => programBlock_rdBuf lba u

/-- A read whose wait fails leaves the read buffer alone. -/
theorem readBlock_never_rdBuf {w : Site} {lba : Word} {s : State}
    (hr : NeverReady (shift 1 s.answer) s.params.waitBudget.toNat) : (readBlock w lba s).2.rdBuf = s.rdBuf := by
  obtain ⟨u, hu, -, -⟩ := stage_never (w := w) (readSetup_effect lba s) (quiet_readSetup lba)
    (readSetupEvents_transactions _ _) hr
  have h := steady_rdBuf.stage w (noDrain_readSetup lba) (noDrain_errorEntry w) s
  rw [hu] at h
  simp only [readBlock, andThen, hu]
  exact h

/-- Steps that write only REG_STATUS, REG_CMD and REG_ADDR. -/
def readRegs (a : Act) : Bool :=
  match actReg a with
  | none => true
  | some .status => true
  | some .cmd => true
  | some .addr => true
  | some .cfg => false
  | some .data => false

theorem steady_readRegs {x : Nat} (h4 : x ≠ 4) (h8 : x ≠ 8) (h12 : x ≠ 12) :
    Steady readRegs fun s t => windowRead t.lastWrite x = windowRead s.lastWrite x := by
  refine steady_window readRegs x fun a r ha hr => ?_
  unfold readRegs at ha
  rw [hr] at ha
  cases r <;> simp_all

theorem readRegs_readDrain : ∀ a ∈ readDrain, readRegs a = true := by
  intro a ha
  simp only [readDrain, List.mem_cons, List.mem_flatMap] at ha
  obtain rfl | ⟨k, -, hk⟩ := ha
  · rfl
  · simp [drainStep] at hk
    obtain rfl | rfl := hk <;> rfl

/-- A read writes no register but REG_STATUS, REG_CMD and REG_ADDR. -/
theorem readBlock_window (w : Site) (lba : Word) (s : State) {x : Nat} (h4 : x ≠ 4) (h8 : x ≠ 8) (h12 : x ≠ 12) :
    windowRead (readBlock w lba s).2.lastWrite x = windowRead s.lastWrite x := by
  have h := steady_readRegs h4 h8 h12
  refine h.andThen (h.stage w (by simp [readSetup, readRegs, actReg]) (by simp [errorEntry, readRegs, actReg]) s) fun u => ?_
  have hd := h.perform readRegs_readDrain u
  generalize perform readDrain u = v at hd
  exact hd

/-- Steps that write no register. -/
def noWrite (a : Act) : Bool :=
  (actReg a).isNone

theorem steady_noWrite : Steady noWrite fun s t => t.lastWrite = s.lastWrite where
  refl _ := rfl
  trans h₁ h₂ := h₂.trans h₁
  fire a s ha := fire_lastWrite_none (by simpa [noWrite] using ha) s
  poll s := by simp
  count s := by simp
  start s := by simp

/-- A stage leaves in the window what its own sequence wrote (60 R268). -/
theorem stage_lastWrite (w : Site) (as : List Act) (s : State) :
    (stage w as s).2.lastWrite = (perform as s).lastWrite := by
  have h := steady_noWrite
  have h₁ := h.waitReady (perform as s)
  unfold stage
  split
  next u hu => rw [hu] at h₁; exact h₁
  next u hu =>
    rw [hu] at h₁
    exact h.trans h₁ (h.perform (by simp [errorEntry, noWrite, actReg]) u)

/-- Steps that leave REG_ADDR alone. -/
def notAddr (a : Act) : Bool :=
  actReg a != some .addr

theorem steady_notAddr : Steady notAddr fun s t => t.remote .addr = s.remote .addr := by
  refine steady_window notAddr (regAddr .addr).toNat fun a r ha hr => ?_
  unfold notAddr at ha
  rw [hr] at ha
  cases r <;> simp_all

theorem drain_notAddr : ∀ a ∈ (List.range sectorWords).flatMap drainStep, notAddr a = true := by
  intro a ha
  simp only [List.mem_flatMap] at ha
  obtain ⟨k, -, hk⟩ := ha
  simp [drainStep] at hk
  obtain rfl | rfl := hk <;> rfl

theorem remote_write_addr (v : Word) (s : State) : (fire (.write .addr v) s).remote .addr = some v := by
  simp [fire, State.remote, windowRead_write_self]

theorem readDrain_addr (u : State) : (perform readDrain u).remote .addr = some 0#32 := by
  have hd := steady_notAddr.perform drain_notAddr (fire (.write .addr 0#32) u)
  rw [readDrain, perform_cons]
  exact hd.trans (remote_write_addr _ u)

theorem readSetup_addr {lba : Word} {s u : State} (hu : u.lastWrite = (perform (readSetup lba) s).lastWrite) :
    u.remote .addr = some (byteAddress lba) := by
  have e : u.remote .addr = (perform (readSetup lba) s).remote .addr := by simp [State.remote, hu]
  rw [e]
  exact (steady_notAddr.fire (.write .cmd 0x03#32) _ rfl).trans (remote_write_addr _ _)

/-- After a read REG_ADDR holds 0, or the sector's address where the wait failed (40 R135, 60 R268). -/
theorem readBlock_addr (w : Site) (lba : Word) (s : State) :
    (readBlock w lba s).2.remote .addr = some (if (readBlock w lba s).1 = none then 0#32 else byteAddress lba) := by
  have hst := stage_lastWrite w (readSetup lba) s
  unfold readBlock andThen
  split
  next u hu =>
    simp only [if_true]
    exact readDrain_addr u
  next v u hu =>
    rw [hu] at hst
    simp only [reduceCtorEq, if_false]
    exact readSetup_addr hst

/-- Every command writes the five registers of the window and no other. -/
theorem keeps_window {x : Nat} (h0 : x ≠ 0) (h4 : x ≠ 4) (h8 : x ≠ 8) (h12 : x ≠ 12) (h16 : x ≠ 16) :
    Keeps fun s t => windowRead t.lastWrite x = windowRead s.lastWrite x where
  toSteady := steady_window _ x fun a r _ _ => by cases r <;> simpa
  cfg s _ := by simp [fire]
  payload b q s _ _ := by simp
  begin_ i s := by simp
  wait s := by simp

end Sys2Proof.Machine
end

