-- ==== Sys2Proof/Tests/Slice0.lean ====
section
/-! SUPPORT. Tests. First the smoke test of the well-formedness checks, then frames written out from the op map, then small steps
with results from spec/95_test_vectors.md (the vector's name stands in the comment), and last, for every statement with
hypotheses, a state and operands that meet them. -/

namespace Sys2Proof.Tests

open Sys2Proof Sys2Proof.Machine Sys2Proof.Safety

/-! ### Helpers -/

/-- The suggested block-size table of 92 D9, major by major. -/
def suggested : Vector BlockSize 16 :=
  #v[.b4000, .b4000, .b4000, .b4000, .b4000, .b4000, .b20000, .b40000,
    .b4000, .b20000, .b40000, .b40000, .b4000, .b4000, .b4000, .b4000]

/-- Parameters with a small wait budget. -/
def small : Params where
  ops := OpMap.table
  protocolVersion := 0x04030201#32
  blockSizes := suggested
  errStatusSource := .reread
  releaseMode := .driveHigh
  waitBudget := 2#16
  settleMinMs := 50
  frameWaitMs := 100

/-- After reset, with those parameters. -/
def s0 : State := { State.reset with params := small }

/-- In RUN at an operation. -/
def runAt (o : Op) : State := { s0 with phase := .run, transportUp := true, pc := [o] }

/-- In RUN at the loop top, with the answers given. -/
def withAnswers (as : List Word) : State := { runAt .loopTop with regAnswers := as }

/-- Answers for a sector read: the clear, the polls, and a word per transfer that repeats the byte given. -/
def sectorAnswers (polls : List Word) (w : Word) : List Word := 0#32 :: polls ++ List.replicate 132 w

/-- A payload of one byte repeated. -/
def payloadOf (b : Byte) : List Byte := List.replicate 528 b

/-- A WRITE_FLASH with its payload queued and the answers given, the cache holding 0x00023010: 32 sectors a unit. -/
def writeState (as : List Word) : State :=
  { withAnswers as with rxQueue := payloadOf 0x5A#8, cfgValid := true, cfgValue := 0x00023010#32 }

/-- The state an outcome holds. -/
def next : Host.Outcome State Fault Refusal → State
  | .next s => s
  | .fault _ => s0
  | .refused _ => s0

/-! ### Well-formedness: one ill-formed term for each check -/

theorem test_wf_table : OpMap.table.wf = true := by decide

theorem test_wf_equal_ops : { OpMap.table with readFlash := 0x01#8 }.wf = false := by decide

theorem test_wf_op_is_version : { OpMap.table with rebootToBootloader := 0x00#8 }.wf = false := by decide

theorem test_wf_op_in_emmc : { OpMap.table with readFlash := 0x5F#8 }.wf = false := by decide

theorem test_wf_op_in_daughterboard : { OpMap.table with reservedDaughterboard := [0x00#8] }.wf = false := by decide

theorem test_wf_emmc_outside : (Instr.reservedEmmc 0x60#8 0#32).wf OpMap.table = false := by decide

theorem test_wf_emmc_named :
    (Instr.reservedEmmc 0x50#8 0#32).wf { OpMap.table with readFlash := 0x50#8 } = false := by decide

theorem test_wf_daughterboard_outside : (Instr.reservedDaughterboard 0x9F#8 0#32).wf OpMap.table = false := by decide

theorem test_wf_daughterboard_named :
    (Instr.reservedDaughterboard 0xA0#8 0#32).wf { OpMap.table with readFlash := 0xA0#8 } = false := by decide

theorem test_wf_daughterboard_emmc :
    (Instr.reservedDaughterboard 0x50#8 0#32).wf { OpMap.table with reservedDaughterboard := [0x50#8] } = false := by
  decide

theorem test_wf_unrecognized_named : (Instr.unrecognized 0xFE#8 0#32).wf OpMap.table = false := by decide

theorem test_wf_unrecognized_reserved :
    ((Instr.unrecognized 0x50#8 0#32).wf OpMap.table, (Instr.unrecognized 0xAF#8 0#32).wf OpMap.table)
      = (false, false) := by decide

/-! ### Frames: byte 0 is the op, bytes 1 to 4 the operand, the least significant first (30 R100, R103) -/

/-- V-F1. -/
theorem test_decode_getVersion :
    decode OpMap.table [0x00#8, 0x00#8, 0x00#8, 0x00#8, 0x00#8] = .ok (.getVersion 0#32, []) := by decide

/-- V-F3. -/
theorem test_decode_getFlashConfig :
    decode OpMap.table [0x01#8, 0x00#8, 0x00#8, 0x00#8, 0x00#8] = .ok (.getFlashConfig 0#32, []) := by decide

/-- V-F5, with a byte that follows. -/
theorem test_decode_readFlash :
    decode OpMap.table [0x02#8, 0x00#8, 0x01#8, 0x00#8, 0x00#8, 0xEE#8]
      = .ok (.readFlash 0x100#32, [0xEE#8]) := by decide

/-- V-F7: the payload is no part of the frame. -/
theorem test_decode_writeFlash :
    decode OpMap.table (0x03#8 :: 0x20#8 :: 0x00#8 :: 0x00#8 :: 0x00#8 :: payloadOf 0x5A#8)
      = .ok (.writeFlash 0x20#32, payloadOf 0x5A#8) := by decide +kernel

/-- V-F8. -/
theorem test_decode_readFlashStream :
    decode OpMap.table [0x04#8, 0x03#8, 0x00#8, 0x00#8, 0x00#8] = .ok (.readFlashStream 3#32, []) := by decide

/-- V-F9. -/
theorem test_decode_rebootToBootloader :
    decode OpMap.table [0xFE#8, 0x00#8, 0x00#8, 0x00#8, 0x00#8] = .ok (.rebootToBootloader 0#32, []) := by decide

/-- V-F10 and the last op of the range (30 R103). -/
theorem test_decode_reservedEmmc :
    decode OpMap.table [0x50#8, 0x00#8, 0x00#8, 0x00#8, 0x00#8] = .ok (.reservedEmmc 0x50#8 0#32, [])
      ∧ decode OpMap.table [0x5F#8, 0x00#8, 0x00#8, 0x00#8, 0x80#8]
        = .ok (.reservedEmmc 0x5F#8 0x80000000#32, []) := by decide

/-- V-F11 and the first op of the range (30 R103). -/
theorem test_decode_reservedDaughterboard :
    decode OpMap.table [0xAF#8, 0x01#8, 0x02#8, 0x03#8, 0x04#8] = .ok (.reservedDaughterboard 0xAF#8 0x04030201#32, [])
      ∧ decode OpMap.table [0xA0#8, 0x00#8, 0x00#8, 0x00#8, 0x00#8]
        = .ok (.reservedDaughterboard 0xA0#8 0#32, []) := by decide

/-- V-F12 to V-F15. -/
theorem test_decode_unrecognized :
    ∀ op ∈ [0x05#8, 0x4F#8, 0x60#8, 0x9F#8, 0xB0#8, 0xFF#8],
      decode OpMap.table [op, 0x00#8, 0x00#8, 0x00#8, 0x00#8] = .ok (.unrecognized op 0#32, []) := by decide

/-- Four bytes are no frame (30 R100). -/
theorem test_decode_short :
    decode OpMap.table [0x02#8, 0x00#8, 0x01#8, 0x00#8] = .error (.shortFrame 4) := by decide

/-- 30 R111: the frame of READ_FLASH 0x12345678 is `02 78 56 34 12` (V-F6). -/
theorem test_encode_readFlash :
    encode OpMap.table (.readFlash 0x12345678#32) = [0x02#8, 0x78#8, 0x56#8, 0x34#8, 0x12#8] := by decide

/-- The numbering of the opcode table: byte 1 is bits 15 to 8 (V-F11). -/
theorem test_decodeTableWord : decodeTableWord 40 0x04030201AF
    = some (.reservedDaughterboard 0xAF#8 0x04030201#32) := by decide

/-! ### Addresses, packing, status, error word, geometry -/

/-- V-A1 to V-A8. -/
theorem test_byteAddress :
    [0#32, 1#32, 0x20#32, 0x21#32, 0x007FFFFF#32, 0x00800000#32, 0x00800001#32, 0xFFFFFFFF#32].map byteAddress
      = [0#32, 0x200#32, 0x4000#32, 0x4200#32, 0xFFFFFE00#32, 0#32, 0x200#32, 0xFFFFFE00#32] := by decide

/-- V-L1: word 0. -/
theorem test_setWordAt :
    (setWordAt (Vector.replicate 528 0#8) 0 0x03020100#32).toList.take 5 = [0x00#8, 0x01#8, 0x02#8, 0x03#8, 0x00#8] := by
  decide +kernel

/-- V-L2 and V-L3, words 127 and 128. -/
theorem test_wordAt :
    let buf := (((((((Vector.replicate 528 0#8).setIfInBounds 508 0xFC#8).setIfInBounds 509 0xFD#8).setIfInBounds 510
      0xFE#8).setIfInBounds 511 0xFF#8).setIfInBounds 512 0xAA#8).setIfInBounds 513 0xBB#8).setIfInBounds 514 0xCC#8
      |>.setIfInBounds 515 0xDD#8
    wordAt buf 127 = 0xFFFEFDFC#32 ∧ wordAt buf 128 = 0xDDCCBBAA#32 := by decide +kernel

/-- V-L4. -/
theorem test_le32 : le32 0x00023010#32 = [0x10#8, 0x30#8, 0x02#8, 0x00#8] := by decide

/-- V-E1 to V-E4. -/
theorem test_statusOf :
    [0x00000000#32, 0x00010000#32, 0x00010001#32, 0x0000FFFE#32].map (fun v => (statusOf v, busy (statusOf v)))
      = [(0x0000#16, false), (0x0000#16, false), (0x0001#16, true), (0xFFFE#16, false)] := by decide

/-- V-E5 to V-E9. -/
theorem test_errorWord :
    [0x0001#16, 0x0041#16, 0x8001#16, 0x0003#16, 0x0000#16].map (fun s => le32 (errorWord s))
      = [[0x01#8, 0x80#8, 0#8, 0#8], [0x41#8, 0x80#8, 0#8, 0#8], [0x01#8, 0x80#8, 0#8, 0#8],
        [0x03#8, 0x80#8, 0#8, 0#8], [0x00#8, 0x80#8, 0#8, 0#8]] := by decide

/-- V-E11: the full 32 bits are written back. -/
theorem test_clear_status :
    (perform [.clearRead, .clearWrite] (withAnswers [0xABCD0001#32])).regTrace
      = [.regRead 0x04#8 0xABCD0001#32, .regWrite 0x04#8 0xABCD0001#32] := by decide

/-- V-G1 to V-G4b. -/
theorem test_sectorsInBlock :
    [0x00023010#32, 0x00AA3020#32, 0x00043030#32, 0x00000000#32, 0x00020030#32, 0xFFFFFFFF#32].map (sectorsInBlock small)
      = [32, 256, 512, 32, 512, 32] := by decide

/-- V-G5 to V-G13. -/
theorem test_onBoundary :
    ([0#32, 0x1F#32, 0x20#32, 0x21#32, 0xFFFFFFFF#32].map (onBoundary small 0x00023010#32)
        = [true, false, true, false, false])
      ∧ [0x20#32, 0x100#32, 0xFFFFFFFF#32].map (onBoundary small 0x00AA3020#32) = [false, true, false]
      ∧ [0x100#32, 0x200#32, 0xFFFFFFFF#32].map (onBoundary small 0x00043030#32) = [false, true, false] := by decide

/-! ### wait_ready -/

/-- V-W1, V-W2: a budget of 0 polls once. -/
theorem test_wait_zero :
    ([[0#32], [1#32]].map fun as =>
      let r := waitReady { withAnswers as with params := { small with waitBudget := 0#16 } }
      (r.1, r.2.regTrace.length)) = [(true, 1), (false, 1)] := by decide

/-- V-W3, V-W4: a budget of 2; and V-W8, bit 16 is no busy bit. -/
theorem test_wait_two :
    ([[1#32, 1#32, 0#32], [1#32, 1#32, 1#32, 0#32], [0x00010001#32, 0x00010000#32]].map fun as =>
      let r := waitReady (withAnswers as)
      (r.1, r.2.regTrace.length)) = [(true, 3), (false, 3), (true, 2)] := by decide

/-! ### Commands -/

/-- V-D1. -/
theorem test_getVersion :
    (next (exec (.getVersion 0xFFFFFFFF#32) (runAt .loopTop))).visible
      = [.send [0x01#8, 0x02#8, 0x03#8, 0x04#8]] := by decide

/-- V-D2. -/
theorem test_getFlashConfig_first :
    (next (exec (.getFlashConfig 0#32) (withAnswers [0x00023010#32]))).visible
      = [.regRead 0x00#8 0x00023010#32, .send [0x10#8, 0x30#8, 0x02#8, 0x00#8]] := by decide

/-- V-D3. -/
theorem test_getFlashConfig_cached :
    (next (exec (.getFlashConfig 0#32) { withAnswers [7#32] with cfgValid := true, cfgValue := 0x00023010#32 })).visible
      = [.send [0x10#8, 0x30#8, 0x02#8, 0x00#8]] := by decide

/-- V-R2: 272 transactions; the clear, the address, the command, three polls, and the first word of the drain. -/
theorem test_readFlash :
    let t := next (exec (.readFlash 0x20#32) (withAnswers (sectorAnswers [1#32, 1#32, 0#32] 0x03020100#32)))
    t.regTrace.length = 272
      ∧ (t.trace.drop 263).reverse = [.regRead 0x04#8 0#32, .regWrite 0x04#8 0#32, .regWrite 0x0C#8 0x4000#32,
        .regWrite 0x08#8 0x03#32, .regRead 0x04#8 1#32, .regRead 0x04#8 1#32, .regRead 0x04#8 0#32, .regWrite 0x0C#8 0#32,
        .regWrite 0x08#8 0#32, .regRead 0x10#8 0x03020100#32] := by decide +kernel

/-- V-R3, V-D5 with a budget of 2: the clear, three busy polls, the status read again. -/
theorem test_readFlash_timeout :
    (next (exec (.readFlash 1#32) (withAnswers [0#32, 1#32, 1#32, 1#32, 0x41#32]))).visible
      = [.regRead 0x04#8 0#32, .regWrite 0x04#8 0#32, .regWrite 0x0C#8 0x200#32, .regWrite 0x08#8 0x03#32,
        .regRead 0x04#8 1#32, .regRead 0x04#8 1#32, .regRead 0x04#8 1#32, .regRead 0x04#8 0x41#32,
        .send [0x41#8, 0x80#8, 0#8, 0#8]] := by decide

/-- V-X1 and V-WB1 with the cache filled: 283 transactions, the erase first, then fill, address and commit. -/
theorem test_writeFlash_boundary :
    let t := next (exec (.writeFlash 0x20#32)
      (writeState [0#32, 0x00023010#32, 0#32, 0#32, 0#32, 0#32, 0#32]))
    t.regTrace.length = 283
      ∧ ((t.trace.drop 272).take 12).reverse = [.regRead 0x04#8 0#32, .regWrite 0x04#8 0#32,
        .regRead 0x00#8 0x00023010#32, .regWrite 0x00#8 0x00023018#32, .regWrite 0x0C#8 0x4000#32,
        .regWrite 0x08#8 0xAA#32, .regWrite 0x08#8 0x55#32, .regWrite 0x08#8 0x05#32, .regRead 0x04#8 0#32,
        .regRead 0x04#8 0#32, .regWrite 0x04#8 0#32, .regWrite 0x0C#8 0#32]
      ∧ (t.trace.take 8).reverse = [.regRead 0x04#8 0#32, .regWrite 0x0C#8 0x4000#32, .regRead 0x04#8 0#32,
        .regWrite 0x08#8 0x55#32, .regWrite 0x08#8 0xAA#32, .regWrite 0x08#8 0x04#32, .regRead 0x04#8 0#32,
        .send [0#8, 0#8, 0#8, 0#8]] := by decide +kernel

/-- V-WB7 with a budget of 2: the commit wait fails and the status's bit 15 is lost. -/
theorem test_writeFlash_commit_fails :
    let t := next (exec (.writeFlash 0x21#32) (writeState [0#32, 0#32, 0#32, 1#32, 1#32, 1#32, 0x8001#32]))
    t.regTrace.length = 277 ∧ t.tx = [0x01#8, 0x80#8, 0#8, 0#8] ∧ t.wrCnt = 0 := by decide +kernel

/-- V-D7, P4: a payload cut short. -/
theorem test_writeFlash_truncated :
    let t := next (exec (.writeFlash 5#32)
      { runAt .loopTop with rxQueue := List.replicate 100 0#8, rxClosed := true })
    t.tx = [] ∧ t.regTrace = [] ∧ t.wrCnt = 0 ∧ t.rxClosed = true := by decide

/-- V-D8, V-ST6. -/
theorem test_readFlashStream :
    let t := next (exec (.readFlashStream 3#32) { runAt .loopTop with stActive := true, stCur := 5#32, stEnd := 9#32 })
    (t.stActive, t.stCur, t.stEnd) = (true, 0#32, 3#32) ∧ t.visible = [] := by decide

/-- V-D10, P3: the frame is logged and nothing is visible. -/
theorem test_rebootToBootloader :
    let t := next (exec (.rebootToBootloader 0#32) (runAt .loopTop))
    t.visible = [] ∧ t.history = [.log .rebootUnsupported] := by decide

/-- V-D11. -/
theorem test_reservedEmmc : (next (exec (.reservedEmmc 0x5A#8 0#32) (runAt .loopTop))).visible = [] := by
  decide

/-- V-D11 for the other range. -/
theorem test_reservedDaughterboard :
    (next (exec (.reservedDaughterboard 0xA5#8 0#32) (runAt .loopTop))).visible = [] := by decide

/-- V-D12. -/
theorem test_unrecognized :
    let t := next (exec (.unrecognized 0x77#8 0x78563412#32) (runAt .loopTop))
    t.visible = [] ∧ t.history = [.log (.unknownOp 0x77#8)] := by decide

/-! ### The loop, the stream, power -/

/-- V-F16: a frame in two parts. -/
theorem test_frame_split :
    let s := next (step { runAt .frameWait with rxQueue := [0x00#8, 0x01#8], waitEnds := [false] })
    s.rxCnt = 2 ∧ (next (step (hostSend [0#8, 0#8, 0#8] s))).tx = [0x01#8, 0x02#8, 0x03#8, 0x04#8] := by decide

/-- V-F18: the bytes after an ignored op are the next frame. -/
theorem test_frame_after_ignored :
    let s := next (step { runAt .frameWait with
      rxQueue := [0x55#8, 0#8, 0#8, 0#8, 0#8, 0x00#8, 0#8, 0#8, 0#8, 0#8] })
    s.visible.length = 5 ∧ s.rxQueue = [0#8, 0#8, 0#8, 0#8, 0#8] := by decide

/-- V-ST2, V-ST4. -/
theorem test_tick_at_end :
    let t := streamTick { runAt .tick with stActive := true, stCur := 1#32, stEnd := 1#32 }
    t.stActive = false ∧ t.visible = [] := by decide

/-- V-ST5 with a budget of 2. -/
theorem test_tick_fails :
    let t := streamTick { withAnswers [0#32, 1#32, 1#32, 1#32, 0x41#32] with stActive := true, stCur := 1#32, stEnd := 3#32 }
    (t.stActive, t.stCur) = (false, 1#32) ∧ t.tx = [0x41#8, 0x80#8, 0#8, 0#8] := by decide

/-- V-I1. -/
theorem test_init_fails :
    let t := next (step { s0 with initAnswers := [false] })
    (t.phase, t.exitCode, t.pinDbg) = (.halted, .one, .released) ∧ t.history = [.log .fatalHwInit] := by decide

/-- V-P1, from INIT. -/
theorem test_stop_controller :
    let t := next (step (next (step { s0 with initAnswers := [true, true, true] })))
    t.visible = [.pins [(.dbg, .low)], .settle 50, .pins [(.cs, .low), (.rst, .low)], .settle 50,
      .pins [(.dbg, .released), (.rst, .released)], .settle 50, .pins [(.cs, .released)], .settle 50, .transportUp true]
      ∧ t.phase = .run := by decide

/-- V-P4, V-I2. -/
theorem test_start_controller :
    let t := next (step (next (step { s0 with initAnswers := [true, false] })))
    t.visible = [.transportDown, .pins [(.dbg, .low), (.rst, .low)], .settle 50, .pins [(.rst, .released)]]
      ∧ (t.exitCode, t.pinDbg, t.pinRst, t.pinCs) = (.one, .low, .released, .released) := by decide

/-- V-I6: a reset inside the fill of a write, some events after its frame. -/
theorem test_reset_in_the_middle :
    let s := { writeState [0#32] with
      pc := [.frameWait]
      rxQueue := 0x03#8 :: 0x21#8 :: 0#8 :: 0#8 :: 0#8 :: payloadOf 0x5A#8
      script := [.events 550, .host .reset] }
    let m := next (step s)
    let t := next (step m)
    m.remote .cmd = some 0x01#32 ∧ t.phase = .init ∧ t.tx = [] ∧ t.remote .addr = some 0#32
      ∧ t.remote .cmd = some 0x01#32 := by decide +kernel

/-- The word placed is the first instruction after reset (V-D1), with the reset parameters. -/
theorem test_withFetchWord :
    (next (step (State.reset.withFetchWord 40 0x0000000304))).stEnd = 3#32 := by decide

/-! ### Witnesses: for each statement with hypotheses, a state and operands that meet them, each clause at its boundary -/

theorem small_wf : small.ops.wf = true := by decide

theorem payloadOf_length (b : Byte) : (payloadOf b).length = 528 := List.length_replicate

theorem writeState_queue (as : List Word) : (writeState as).rxQueue = payloadOf 0x5A#8 ++ [] :=
  (List.append_nil _).symm

theorem test_witness_DecodingAnEncodedFrameGivesItBack :
    OpMap.table.wf = true ∧ ∀ i ∈ [Instr.getVersion 0xFFFFFFFF#32, .writeFlash 0#32, .reservedEmmc 0x50#8 1#32,
      .reservedEmmc 0x5F#8 1#32, .reservedDaughterboard 0xA0#8 1#32, .reservedDaughterboard 0xAF#8 1#32,
      .unrecognized 0x05#8 1#32, .unrecognized 0xFF#8 1#32], i.wf OpMap.table = true := by decide

theorem test_witness_EncodingADecodedFrameGivesItsBytesBack :
    decode OpMap.table [0x60#8, 1#8, 2#8, 3#8, 4#8, 5#8] = .ok (.unrecognized 0x60#8 0x04030201#32, [5#8]) := by decide

theorem test_witness_TheOpByteAloneDecidesTheOperation :
    OpMap.table.wf = true
      ∧ (0xFE#8 = OpMap.table.rebootToBootloader)
      ∧ (0x50#8 ∉ OpMap.table.named ∧ 0x50#8 ∈ OpMap.table.reserved)
      ∧ (0xAF#8 ∉ OpMap.table.named ∧ 0xAF#8 ∈ OpMap.table.reserved)
      ∧ (0x60#8 ∉ OpMap.table.named ∧ 0x60#8 ∉ OpMap.table.reserved) := by decide

/-- A frame whose first four bytes had come before, and one that comes whole. -/
theorem test_witness_StepRunsTheDecodedFrame :
    (let s := { runAt .frameWait with rxBuf := #v[0x02#8, 1#8, 0#8, 0#8, 0xEE#8], rxCnt := 4, rxQueue := [0#8, 7#8] };
      AtOp .frameWait s ∧ s.rxCnt ≤ 4 ∧ s.rxQueue = [0#8] ++ [7#8] ∧ s.rxCnt + [0#8].length = 5
        ∧ decode s.params.ops (s.rxBuf.toList.take s.rxCnt ++ [0#8] ++ [7#8]) = .ok (.readFlash 1#32, [7#8]))
      ∧ (let s := { runAt .frameWait with rxQueue := [0x77#8, 0#8, 0#8, 0#8, 0#8] };
        AtOp .frameWait s ∧ s.rxCnt ≤ 4 ∧ s.rxQueue = [0x77#8, 0#8, 0#8, 0#8, 0#8] ++ [] ∧ s.rxCnt + 5 = 5
          ∧ decode s.params.ops (s.rxBuf.toList.take s.rxCnt ++ [0x77#8, 0#8, 0#8, 0#8, 0#8] ++ [])
            = .ok (.unrecognized 0x77#8 0#32, [])) :=
  ⟨⟨⟨by decide, rfl, rfl, rfl, ⟨[], rfl⟩⟩, by decide, rfl, rfl, by decide⟩,
    ⟨by decide, rfl, rfl, rfl, ⟨[], rfl⟩⟩, by decide, rfl, rfl, by decide⟩

theorem test_witness_PlacedWordIsRunNext : decodeTableWord 40 0x0000000102 = some (.readFlash 1#32) := by decide

/-- Four bytes in all: closed, ended, going on. -/
theorem test_witness_FrameWaitWithoutAFrame : ∀ c e : Bool,
    let s := { runAt .frameWait with
      rxBuf := #v[0x02#8, 1#8, 0#8, 0xEE#8, 0xEE#8], rxCnt := 3, rxQueue := [0#8], rxClosed := c, waitEnds := [e] }
    AtOp .frameWait s ∧ s.rxCnt + s.rxQueue.length < 5 ∧ s.rxClosed = c ∧ s.waitEndsNow = e :=
  fun _ _ => ⟨⟨rfl, rfl, rfl, rfl, ⟨[], rfl⟩⟩, Nat.lt_of_sub_eq_succ rfl, rfl, rfl⟩

theorem test_witness_GetFlashConfigReadsOnceAndSends :
    { s0 with cfgValid := true }.cfgValid = true ∧ s0.cfgValid = false := by decide

/-- A state in RUN with the levels of RUN is legal. -/
theorem runAt_inv (o : Op) (s : State) (ho : (opInRun o && endsRun o) = true) (h1 : s.params = small)
    (h2 : s.phase = .run) (h3 : s.pc = [o]) (h4 : s.transportUp = true) (h5 : s.exitCode = .none)
    (h6 : linesOf s = Lines.idle) (h7 : s.stMedium = .nand) (h8 : s.rxCnt ≤ 4) (h9 : s.wrCnt ≤ 528)
    (h10 : s.lastWrite = []) (h11 : s.trace = []) (h12 : s.txTaken = 0) : Inv s where
  ops := by rw [h1]; decide
  medium := h7
  rxCnt := h8
  wrCnt := h9
  window := by rw [h10]; decide
  flow := by rw [h2, h3]; simpa [flow, runFlow] using ho
  transport := by simp [transportOk, h2, h4]
  exit := by simp [exitOk, h2, h5]
  lines := by simp [linesOk, h2, h6]
  taken := by rw [h12]; exact Nat.zero_le _
  trace := by simp [h11]

/-- A legal state whose cache is filled, and the step of a GET_FLASH_CONFIG from it. -/
theorem test_witness_TheConfigurationCacheIsNeverRefreshed :
    let s := { runAt .loopTop with cfgValid := true, cfgValue := 7#32 }
    Inv s ∧ s.cfgValid = true ∧ s.script.head? ≠ some (.host .reset) ∧ step s = .next { s with pc := [.tick] } :=
  ⟨runAt_inv .loopTop _ (by decide) rfl rfl rfl rfl rfl rfl rfl (by decide) (by decide) rfl rfl rfl, rfl, by decide, rfl⟩

/-- Ready on the first poll and on the last. -/
theorem test_witness_ReadFlashSendsTheSector :
    ReadyAt (shift 1 (withAnswers [0#32, 0#32]).answer) small.waitBudget.toNat 0
      ∧ ReadyAt (shift 1 (withAnswers [0#32, 1#32, 1#32, 0#32]).answer) small.waitBudget.toNat 2 := by
  unfold ReadyAt; decide

theorem test_witness_ReadFlashReportsItsTimeout :
    NeverReady (shift 1 (withAnswers [0#32, 1#32, 1#32, 1#32]).answer) small.waitBudget.toNat := by
  unfold NeverReady; decide

theorem test_witness_ReadFlashFrame :
    exec (.readFlash 1#32) s0 = .next (reply readReply (readBlock .read 1#32 (beginCommand (.readFlash 1#32) s0))) := rfl

/-- Inside an erase unit with every wait Ready on its first poll, and at the first sector of one with an erase that is Ready on
its last. -/
theorem test_witness_WriteFlashProgramsTheSector :
    (let s := writeState [0#32, 0#32, 0#32, 0#32];
      s.rxQueue = payloadOf 0x5A#8 ++ [] ∧ (payloadOf 0x5A#8).length = 528 ∧ WriteBegins s 0x21#32 0 []
        ∧ ReadyAt (shift (0 + 1) s.answer) s.params.waitBudget.toNat 0
        ∧ ReadyAt (shift (0 + (1 + (0 + 1))) s.answer) s.params.waitBudget.toNat 0
        ∧ ReadyAt (shift (0 + (1 + (0 + 1) + (0 + 1))) s.answer) s.params.waitBudget.toNat 0)
      ∧ (let s := writeState [0#32, 0x00023010#32, 1#32, 1#32, 0#32, 0#32, 1#32, 0#32, 1#32, 1#32, 0#32, 0#32];
        s.rxQueue = payloadOf 0x5A#8 ++ []
          ∧ WriteBegins s 0x20#32 5 ([] ++ (eraseSetupEvents (shift 0 s.answer) 0x20#32
            ++ pollEvents (shift (0 + 2) s.answer) (2 + 1)))
          ∧ ReadyAt (shift (5 + 1) s.answer) s.params.waitBudget.toNat 1
          ∧ ReadyAt (shift (5 + (1 + (1 + 1))) s.answer) s.params.waitBudget.toNat 2
          ∧ ReadyAt (shift (5 + (1 + (1 + 1) + (2 + 1))) s.answer) s.params.waitBudget.toNat 0) := by
  refine ⟨⟨writeState_queue _, payloadOf_length _, .inl ⟨by decide, rfl, rfl⟩, ?_, ?_, ?_⟩,
    writeState_queue _, .inr ⟨by decide, 2, ?_, rfl, rfl⟩, ?_, ?_, ?_⟩ <;> (unfold ReadyAt; decide)

theorem test_witness_WriteFlashReportsAFailedErase :
    let s := writeState [0#32, 0x00023010#32, 1#32, 1#32, 1#32]
    s.rxQueue = payloadOf 0x5A#8 ++ [] ∧ (payloadOf 0x5A#8).length = 528
      ∧ (0x20#32).toNat % sectorsInBlock s.params (configOf s) = 0
      ∧ NeverReady (shift (configReads s + 2) s.answer) s.params.waitBudget.toNat := by
  refine ⟨writeState_queue _, payloadOf_length _, by decide, ?_⟩
  unfold NeverReady; decide

/-- The fill wait fails; the address wait; the commit wait. -/
theorem test_witness_WriteFlashReportsAFailedWait :
    (let s := writeState [0#32, 1#32, 1#32, 1#32];
      WriteBegins s 0x21#32 0 [] ∧ NeverReady (shift (0 + 1) s.answer) s.params.waitBudget.toNat)
      ∧ (let s := writeState [0#32, 0#32, 1#32, 1#32, 1#32];
        WriteBegins s 0x21#32 0 [] ∧ ReadyAt (shift (0 + 1) s.answer) s.params.waitBudget.toNat 0
          ∧ NeverReady (shift (0 + (1 + (0 + 1))) s.answer) s.params.waitBudget.toNat)
      ∧ (let s := writeState [0#32, 1#32, 1#32, 0#32, 0#32, 1#32, 1#32, 1#32];
        WriteBegins s 0x21#32 0 [] ∧ ReadyAt (shift (0 + 1) s.answer) s.params.waitBudget.toNat 2
          ∧ ReadyAt (shift (0 + (1 + (2 + 1))) s.answer) s.params.waitBudget.toNat 0
          ∧ NeverReady (shift (0 + (1 + (2 + 1) + (0 + 1))) s.answer) s.params.waitBudget.toNat) := by
  have h : ∀ as, WriteBegins (writeState as) 0x21#32 0 [] := fun as =>
    .inl ⟨show ((0x21#32 : Word).toNat % sectorsInBlock small 0x00023010#32) ≠ 0 by decide, rfl, rfl⟩
  refine ⟨⟨h _, ?_⟩, ⟨h _, ?_, ?_⟩, h _, ?_, ?_, ?_⟩ <;> (first | (unfold NeverReady; decide) | (unfold ReadyAt; decide))

/-- The payload queued, the channel closed, and neither. -/
theorem test_witness_WriteFlashFrame :
    (∀ lba s, exec (.writeFlash lba) s
        = .next (payloadReceive (perform [.clearPayload] (beginCommand (.writeFlash lba) s))))
      ∧ 528 ≤ (writeState []).rxQueue.length ∧ { s0 with rxClosed := true }.rxClosed = true := by
  exact ⟨fun _ _ => rfl, (payloadOf_length _).ge, rfl⟩

theorem test_witness_TruncatedPayloadIsAbandoned :
    let s := { runAt .loopTop with rxClosed := true, rxQueue := List.replicate 527 0#8 }
    s.rxClosed = true ∧ s.rxQueue.length < 528 := by
  exact ⟨rfl, List.length_replicate ▸ (by decide)⟩

theorem test_witness_IncompletePayloadStalls :
    (let s := { runAt .loopTop with rxQueue := List.replicate 527 0#8 };
      s.rxClosed = false ∧ s.rxQueue.length < 528)
      ∧ (let s := { runAt .recvPayload with wrCnt := 527, shutdownPending := true, stActive := true };
        s.params.ops.wf = true ∧ s.stMedium = .nand ∧ s.script = [] ∧ s.pc = [.recvPayload] ∧ s.wrCnt < 528
          ∧ s.rxClosed = false ∧ s.rxQueue = []) := by
  exact ⟨⟨rfl, List.length_replicate ▸ (by decide)⟩, by decide, rfl, rfl, rfl, by decide, rfl, rfl⟩

theorem test_witness_PayloadInPartsIsPayloadAtOnce :
    let s := { runAt .loopTop with rxQueue := [1#8, 2#8] }
    s.params.ops.wf = true ∧ s.stMedium = .nand ∧ s.script = [] ∧ s.pc = [.loopTop] ∧ s.rxClosed = false
      ∧ s.rxQueue.length < 528 ∧ ∃ t, exec (.writeFlash 5#32) s = .next t :=
  ⟨by decide, rfl, rfl, rfl, rfl, by decide, ⟨_, rfl⟩⟩

theorem test_witness_EraseExactlyOnTheBoundary : 528 ≤ (writeState []).rxQueue.length :=
  (payloadOf_length _).ge

/-- A WRITE_FLASH always answers a next state. -/
theorem writeFlash_next (lba : Word) (s : State) :
    exec (.writeFlash lba) s = .next (next (exec (.writeFlash lba) s)) := rfl

/-- The words a WRITE_FLASH of a payload writes, the waits Ready on their first polls. -/
def written : List Word :=
  let s := writeState [0#32, 0#32, 0#32, 0#32]
  wordsWritten ((next (exec (.writeFlash 0x21#32) s)).regTrace.drop s.regTrace.length)

theorem written_length : written.length = 132 := by decide +kernel

/-- A write inside an erase unit, and a later state whose answers are the words written. -/
theorem test_witness_WrittenSectorReadsBack :
    let s := writeState [0#32, 0#32, 0#32, 0#32]
    let t := next (exec (.writeFlash 0x21#32) s)
    let u := withAnswers (0#32 :: 0#32 :: written)
    s.rxQueue = payloadOf 0x5A#8 ++ [] ∧ (payloadOf 0x5A#8).length = 528 ∧ exec (.writeFlash 0x21#32) s = .next t
      ∧ ReadyAt (shift 1 u.answer) u.params.waitBudget.toNat 0
      ∧ ∀ k < 132, (wordsWritten (t.regTrace.drop s.regTrace.length))[k]? = some (u.answer (1 + (0 + 1) + k)) := by
  intro s t u
  refine ⟨writeState_queue _, payloadOf_length _, writeFlash_next _ _,
    ⟨Nat.zero_le _, fun i h => absurd h (Nat.not_lt_zero i), ?_⟩, fun k hk => ?_⟩
  · show busy (statusOf 0#32) = false
    decide
  have hk' : k < written.length := written_length.symm ▸ hk
  have h : ∀ d : Word, some written[k] = some ((0#32 :: 0#32 :: written)[k + 2]?.getD d) := fun d => by
    rw [List.getElem?_cons_succ, List.getElem?_cons_succ, List.getElem?_eq_getElem hk']; rfl
  have e : 1 + (0 + 1) + k = k + 2 := by omega
  rw [e]
  exact (List.getElem?_eq_getElem hk').trans (h _)

/-- 41 R188: a session of no sectors is over after its first tick, with no output. -/
theorem test_witness_ReadFlashStreamArmsTheSession :
    let s := next (exec (.readFlashStream 0#32) (runAt .loopTop))
    s.stActive = true ∧ (streamTick s).stActive = false ∧ (streamTick s).trace = s.trace := by
  decide

/-- Inactive; at the end; one sector before it, with a wait that is Ready on its last poll, and with one that is not. -/
theorem test_witness_StreamTickReadsOneSector :
    AtOp .tick (runAt .tick) ∧ (runAt .tick).stActive = false
      ∧ (let s := { runAt .tick with stActive := true, stCur := 3#32, stEnd := 3#32 };
        AtOp .tick s ∧ s.stActive = true ∧ s.stEnd.toNat ≤ s.stCur.toNat)
      ∧ (let s := { runAt .tick with
          stActive := true, stCur := 2#32, stEnd := 3#32, regAnswers := [0#32, 1#32, 1#32, 0#32] };
        AtOp .tick s ∧ s.stActive = true ∧ s.stCur.toNat < s.stEnd.toNat
          ∧ ReadyAt (shift 1 s.answer) s.params.waitBudget.toNat 2)
      ∧ (let s := { runAt .tick with
          stActive := true, stCur := 0xFFFFFFFE#32, stEnd := 0xFFFFFFFF#32, regAnswers := [0#32, 1#32, 1#32, 1#32] };
        AtOp .tick s ∧ s.stActive = true ∧ s.stCur.toNat < s.stEnd.toNat
          ∧ NeverReady (shift 1 s.answer) s.params.waitBudget.toNat) := by
  refine ⟨⟨by decide, rfl, rfl, rfl, ⟨[], rfl⟩⟩, rfl, ⟨⟨by decide, rfl, rfl, rfl, ⟨[], rfl⟩⟩, rfl, by decide⟩,
    ⟨⟨by decide, rfl, rfl, rfl, ⟨[], rfl⟩⟩, rfl, by decide, ?_⟩, ⟨by decide, rfl, rfl, rfl, ⟨[], rfl⟩⟩, rfl, by decide, ?_⟩
  · unfold ReadyAt; decide
  · unfold NeverReady; decide

/-- A session of one sector, read successfully; and one of none. -/
theorem test_witness_StreamSendsItsCount :
    (let s := { withAnswers [0#32, 0#32] with stActive := true, stEnd := 1#32 };
      s.stActive = true ∧ s.stCur = 0#32 ∧ ∀ i < s.stEnd.toNat, ReadSucceeds (ticks i s))
      ∧ (let s := { runAt .tick with stActive := true };
        s.stActive = true ∧ s.stCur = 0#32 ∧ ∀ i < s.stEnd.toNat, ReadSucceeds (ticks i s)) := by
  refine ⟨⟨rfl, rfl, fun i hi => ?_⟩, rfl, rfl, fun i hi => absurd hi (Nat.not_lt_zero i)⟩
  obtain rfl : i = 0 := Nat.lt_one_iff.mp hi
  exact ⟨0, by show ReadyAt _ _ _; unfold ReadyAt; decide⟩

/-- The first sector fails; the second, the last, fails. -/
theorem test_witness_StreamStopsAtTheFirstError :
    (let s := { withAnswers [0#32, 1#32, 1#32, 1#32] with stActive := true, stEnd := 2#32 };
      s.stActive = true ∧ s.stCur = 0#32 ∧ 0 < s.stEnd.toNat ∧ (∀ i < 0, ReadSucceeds (ticks i s))
        ∧ ReadFails (ticks 0 s))
      ∧ (let s := { withAnswers (sectorAnswers [0#32] 7#32 ++ [0#32, 1#32, 1#32, 1#32]) with
          stActive := true, stEnd := 2#32 };
        s.stActive = true ∧ s.stCur = 0#32 ∧ 1 < s.stEnd.toNat ∧ (∀ i < 1, ReadSucceeds (ticks i s))
          ∧ ReadFails (ticks 1 s)) := by
  refine ⟨⟨rfl, rfl, by decide, fun i hi => absurd hi (Nat.not_lt_zero i), ?_⟩, rfl, rfl, by decide, fun i hi => ?_, ?_⟩
  · show NeverReady _ _; unfold NeverReady; decide
  · obtain rfl : i = 0 := Nat.lt_one_iff.mp hi
    exact ⟨0, by show ReadyAt _ _ _; unfold ReadyAt; decide⟩
  · show NeverReady _ _; unfold NeverReady; decide +kernel

/-- Inactive, and at the end. -/
theorem test_witness_StreamNeverPassesItsEnd :
    StreamInBounds s0 ∧ StreamInBounds { s0 with stActive := true, stCur := 0xFFFFFFFF#32, stEnd := 0xFFFFFFFF#32 }
      ∧ ∃ t, exec (.readFlashStream 0#32) s0 = .next t :=
  ⟨by unfold StreamInBounds; decide, by unfold StreamInBounds; decide, ⟨_, rfl⟩⟩

theorem test_witness_IgnoredCommandsChangeNothing :
    ∀ i ∈ [Instr.rebootToBootloader 0#32, .reservedEmmc 0x50#8 0#32, .reservedDaughterboard 0xAF#8 0#32,
      .unrecognized 0xFF#8 0#32], ignored i = true := by decide

/-- Ready on the first poll, on the last; not ready. -/
theorem test_witness_WaitReadyCountsItsPolls :
    ((∀ j < 1 - 1, ((withAnswers [0#32]).answer j).getLsbD 0 = true)
        ∧ ((withAnswers [0#32]).answer (1 - 1)).getLsbD 0 = false)
      ∧ (3 ≤ small.waitBudget.toNat + 1 ∧ (∀ j < 3 - 1, ((withAnswers [1#32, 1#32, 0#32]).answer j).getLsbD 0 = true)
        ∧ ((withAnswers [1#32, 1#32, 0#32]).answer (3 - 1)).getLsbD 0 = false)
      ∧ ∀ j ≤ small.waitBudget.toNat, ((withAnswers [1#32, 3#32, 0x10001#32]).answer j).getLsbD 0 = true := by decide

/-- The first cell of the table, the last, and one of each size. -/
theorem test_witness_GeometryComesFromTwoFields :
    (15 = 4 * ((0xFFFFFFFF#32).toNat / 2 ^ 17 % 4) + (0xFFFFFFFF#32).toNat / 2 ^ 4 % 4)
      ∧ (0 = 4 * ((0#32).toNat / 2 ^ 17 % 4) + (0#32).toNat / 2 ^ 4 % 4)
      ∧ (6 = 4 * ((0x00AA3020#32).toNat / 2 ^ 17 % 4) + (0x00AA3020#32).toNat / 2 ^ 4 % 4)
      ∧ small.blockSizes[0] = .b4000 ∧ small.blockSizes[6] = .b20000 ∧ small.blockSizes[7] = .b40000
      ∧ (0x00023018#32).toNat / 2 ^ 17 % 4 = (0x00023010#32).toNat / 2 ^ 17 % 4
      ∧ (0x00023018#32).toNat / 2 ^ 4 % 4 = (0x00023010#32).toNat / 2 ^ 4 % 4 := by decide

/-- Every command answers a next state: the hypothesis of the statements about every command. -/
theorem test_witness_every_command :
    ∀ i ∈ [Instr.getVersion 0#32, .getFlashConfig 0#32, .readFlash 0#32, .writeFlash 0#32, .readFlashStream 0#32,
      .rebootToBootloader 0#32, .reservedEmmc 0x50#8 0#32, .reservedDaughterboard 0xA0#8 0#32, .unrecognized 0xFF#8 0#32],
      ∃ t, exec i s0 = .next t := by
  simp only [List.forall_mem_cons]
  exact ⟨⟨_, rfl⟩, ⟨_, rfl⟩, ⟨_, rfl⟩, ⟨_, rfl⟩, ⟨_, rfl⟩, ⟨_, rfl⟩, ⟨_, rfl⟩, ⟨_, rfl⟩, ⟨_, rfl⟩, nofun⟩

theorem test_witness_CommandsLeaveTheStreamSession : ∀ lba, Instr.readFlash 0#32 ≠ .readFlashStream lba := nofun

theorem test_witness_CommandsTakeOnlyTheirPayload :
    (∀ lba, Instr.readFlash 0#32 ≠ .writeFlash lba) ∧ Instr.writeFlash 5#32 = .writeFlash 5#32 := ⟨nofun, rfl⟩

theorem test_witness_TransactionsAreBounded : Params.hardware.waitBudget = 0x1000#16 := rfl

/-- HardwareInit fails; SerialOpen fails; neither. -/
theorem test_witness_StartUpChecks :
    AtOp .init { s0 with initAnswers := [false] }
      ∧ { s0 with initAnswers := [false] }.initAnswer = false
      ∧ { s0 with initAnswers := [true, false] }.initAnswer = true
      ∧ (dropInit { s0 with initAnswers := [true, false] }).initAnswer = false
      ∧ (dropInit { s0 with initAnswers := [true, true] }).initAnswer = true :=
  ⟨⟨by decide, rfl, rfl, rfl, ⟨[], rfl⟩⟩, rfl, rfl, rfl, rfl⟩

/-- TransportUp fails, and succeeds. -/
theorem test_witness_StopControllerSequence : ∀ ok,
    AtOp .stop { s0 with phase := .stop, pc := [.stop], initAnswers := [ok] }
      ∧ { s0 with phase := .stop, pc := [.stop], initAnswers := [ok] }.initAnswer = ok :=
  fun _ => ⟨⟨small_wf, rfl, rfl, rfl, ⟨[], rfl⟩⟩, rfl⟩

theorem test_witness_StartControllerSequence : AtOp .start { s0 with phase := .start, pc := [.start], exitCode := .one } :=
  ⟨by decide, rfl, rfl, rfl, ⟨[], rfl⟩⟩

theorem test_witness_ShutdownIsTakenAtTheLoopTop : ∀ b,
    AtOp .loopTop { runAt .loopTop with shutdownPending := b } :=
  fun _ => ⟨small_wf, rfl, rfl, rfl, ⟨[], rfl⟩⟩

theorem test_witness_ShutdownIsReadOnlyAtTheLoopTop :
    let s := runAt .tick
    s.script = [] ∧ s.pc.head? ≠ some .loopTop ∧ step s = .next { s with pc := [.frameWait] } :=
  ⟨rfl, by decide, rfl⟩

/-- The engine as a hardware failure left it, and the host closing the channel. -/
theorem test_witness_HaltedIsTerminal :
    let s := { s0 with phase := .halted, pc := [], exitCode := .one, script := [.host .close] }
    Inv s ∧ s.phase = .halted ∧ s.script.head? ≠ some (.host .reset)
      ∧ step s = .next { s with script := [], rxClosed := true } :=
  ⟨⟨by decide, rfl, by decide, by decide, by decide, by decide, by decide, by decide, by decide,
    by decide, fun _ h => absurd h List.not_mem_nil⟩, rfl, by decide, rfl⟩

/-- The line chip-select with the transport down, and another with it up. -/
theorem test_witness_LinesAreDrivenAsTheirLevelSays :
    ¬((Line.cs = .cs) ∧ s0.transportUp = true) ∧ ¬((Line.dbg = .cs) ∧ (runAt .tick).transportUp = true)
      ∧ s0.pin .cs = .released ∧ { s0 with pinDbg := .low }.pin .dbg = .low
      ∧ s0.params.releaseMode = .driveHigh
      ∧ { s0 with params := { small with releaseMode := .highZ } }.params.releaseMode = .highZ
      ∧ (runAt .tick).transportUp = true := by decide

theorem test_witness_ResetGivesTheStatedValues :
    let s := { runAt .recvPayload with script := [.host .reset] }
    s.params.ops.wf = true ∧ s.stMedium = .nand ∧ s.script = [.host .reset] := ⟨by decide, rfl, rfl⟩

/-- Three bytes in flight from before a reset, of which one was taken since, and a GET_VERSION sent with room for `r`. -/
def linked (r : Nat) : State :=
  next (exec (.getVersion 0#32) { s0 with txCarry := [0xA1#8, 0xA2#8, 0xA3#8], txTaken := 1, txRooms := [9, r], txSends := 1 })

/-- 70 R308: the host takes the oldest bytes in flight, those from before a reset first. -/
theorem test_take :
    (linked 0).inFlight = [0xA2#8, 0xA3#8, 0x01#8, 0x02#8, 0x03#8, 0x04#8]
      ∧ (hostTake 3 (linked 0)).inFlight = [0x02#8, 0x03#8, 0x04#8]
      ∧ (hostTake 7 (linked 0)).inFlight = [] := by decide

/-- 70 R290: a reset takes no byte off the link; 10 R57: the transmit stream is empty after it. -/
theorem test_reset_in_flight :
    (resetEngine (linked 0)).inFlight = (linked 0).inFlight ∧ (resetEngine (linked 0)).tx = []
      ∧ (resetEngine (linked 0)).txSends = 2 := by decide

/-- 60 R265: six bytes in flight make the engine wait where it goes on with five, and not where it goes on with six; and it waits
until the host has taken one. -/
theorem test_waits_for_the_host :
    (linked 5).waitsForHost = true ∧ (linked 6).waitsForHost = false ∧ (hostTake 1 (linked 5)).waitsForHost = false := by
  decide

/-- Each move, with the channel open and closed; and takings that end one byte before the last, at it, and beyond it. -/
theorem test_witness_HostMovesChangeOnlyTheirOwn : ∀ m c,
    (let s := { runAt .frameWait with script := [.host m], rxClosed := c };
      s.params.ops.wf = true ∧ s.stMedium = .nand ∧ s.script = .host m :: [] ∧ s.rxClosed = c)
      ∧ (linked 0).txTaken + 5 + 1 = (linked 0).sent.length
      ∧ (linked 0).txTaken + 6 = (linked 0).sent.length
      ∧ (linked 0).txTaken + 7 = (linked 0).sent.length + 1 :=
  fun _ _ => ⟨⟨small_wf, rfl, rfl, rfl⟩, by decide, by decide, by decide⟩

/-- Where the engine is held back, with one byte too many in flight; a taking of none leaves it so, of one does not. -/
theorem test_witness_TheEngineWaitsForTheHost :
    let s := { linked 5 with pc := [.loopTop] }
    s.txTaken ≤ s.sent.length ∧ s.params.ops.wf = true ∧ s.stMedium = .nand ∧ s.script = [] ∧ s.held = true
      ∧ (hostTake 0 s).held = true ∧ (hostTake 1 s).held = false := by
  decide

/-- A legal state, and each kind of step: a taking, a reset, and a move that is neither. -/
theorem test_witness_NoSentByteIsLost : ∀ m,
    let s := { runAt .loopTop with script := [.host m] }
    Inv s ∧ step s = .next (applyMove m { s with script := [] }) :=
  fun _ => ⟨runAt_inv .loopTop _ (by decide) rfl rfl rfl rfl rfl rfl rfl (Nat.zero_le _) (Nat.zero_le _) rfl rfl rfl, rfl⟩

theorem test_witness_BadParametersAreRefused :
    OpMap.table.wf = true ∧ { OpMap.table with readFlash := 0x50#8 }.wf = false := by decide

/-- A legal state and its step. -/
theorem test_witness_EveryStepKeepsTheStateLegal :
    let s := runAt .loopTop
    Inv s ∧ step s = .next { s with pc := [.tick] } :=
  ⟨runAt_inv .loopTop _ (by decide) rfl rfl rfl rfl rfl rfl rfl (by decide) (by decide) rfl rfl rfl, rfl⟩

/-- A legal state whose event takes a byte. -/
theorem test_witness_TransactionsOnlyInRunWithTheTransportUp :
    let s := { runAt .frameWait with rxQueue := [0x02#8] }
    Inv s ∧ (eventStep s).rxQueue ≠ s.rxQueue :=
  ⟨runAt_inv .frameWait _ (by decide) rfl rfl rfl rfl rfl rfl rfl (by decide) (by decide) rfl rfl rfl, by decide⟩

/-- A step that is no reset. -/
theorem test_witness_OutputsOnlyGrow :
    step (runAt .loopTop) = .next { runAt .loopTop with pc := [.tick] }
      ∧ (runAt .loopTop).script.head? ≠ some (.host .reset) := ⟨rfl, by decide⟩

theorem test_witness_AStepIsManyEvents :
    let s := runAt .loopTop
    s.params.ops.wf = true ∧ s.stMedium = .nand ∧ s.script = [] ∧ step s = .next { s with pc := [.tick] } :=
  ⟨by decide, rfl, rfl, rfl⟩

end Sys2Proof.Tests
end

section
/-! PROOF. Which parameter sets the model accepts (00 R10). -/

namespace Sys2Proof.Machine

open Sys2Proof

/-- RESERVED_OPS is the union of the two reserved rows (00 R9). -/
theorem not_mem_reserved_iff {m : OpMap} {op : Byte} :
    op ∉ m.reserved ↔ op ∉ m.reservedEmmc ∧ op ∉ m.reservedDaughterboard := by
  rw [OpMap.reserved, List.mem_append, not_or]

/-- The Boolean test of 00 R10 as a proposition. -/
theorem opMap_wf_iff {m : OpMap} :
    m.wf = true ↔ m.named.Nodup ∧ ∀ op ∈ m.named, op ∉ m.reservedEmmc ∧ op ∉ m.reservedDaughterboard := by
  simp only [OpMap.wf, Bool.and_eq_true, decide_eq_true_eq, List.all_eq_true, Bool.not_eq_true',
    List.contains_eq_mem, decide_eq_false_iff_not, not_mem_reserved_iff]

/-- The three erase-unit sizes are all there are (00 R8). -/
theorem blockBytes_mem (b : BlockSize) : blockBytes b ∈ [0x4000, 0x20000, 0x40000] := by
  cases b <;> decide

/-- Settles O51: the test is R10's condition on the six named values, `step` makes it first, and a block size of another
value cannot be written down. -/
theorem badParametersAreRefused : Obligations.BadParametersAreRefused :=
  ⟨fun _ => opMap_wf_iff, fun _ => step_badParams, fun p major minor => blockBytes_mem (blockSizeOf p major minor)⟩

end Sys2Proof.Machine
end

section
/-! PROOF. The two forms of an operand: the byte order of a frame's four operand bytes (20 R73) and the byte address of a
sector (20 R71). -/

namespace Sys2Proof.Machine

open Sys2Proof

/-! ### The operand of a frame (20 R73) -/

/-- Byte `i` of a word is its digit `i` in base 256 (00 R13). -/
theorem byteOf_toNat (v : Word) (i : Nat) : (byteOf v i).toNat = v.toNat / 2 ^ (8 * i) % 256 := by
  rw [byteOf, BitVec.extractLsb'_toNat, Nat.shiftRight_eq_div_pow]

/-- A word is the sum of its four bytes, each at its place (00 R13). -/
theorem word_toNat_eq_bytes (v : Word) :
    v.toNat = (byteOf v 0).toNat + 2 ^ 8 * (byteOf v 1).toNat + 2 ^ 16 * (byteOf v 2).toNat
      + 2 ^ 24 * (byteOf v 3).toNat := by
  simp only [byteOf_toNat]
  omega

theorem unle32_toNat (b0 b1 b2 b3 : Byte) :
    (unle32 b0 b1 b2 b3).toNat = b0.toNat + 2 ^ 8 * b1.toNat + 2 ^ 16 * b2.toNat + 2 ^ 24 * b3.toNat := by
  obtain ⟨h0, h1, h2, h3⟩ := byteOf_unle32 b0 b1 b2 b3
  rw [word_toNat_eq_bytes, h0, h1, h2, h3]

/-- Whatever operation the op byte stands for, the instruction carries the frame's operand (30 R102, R104). -/
@[simp] theorem operandOf_decodeOp (m : OpMap) (op : Byte) (lba : Word) : operandOf (decodeOp m op lba) = lba := by
  unfold decodeOp
  split_ifs <;> rfl

/-- Settles O4: the decoder passes bytes 1 to 4 through `unle32`, and no op byte changes the operand. -/
theorem theOperandIsLittleEndian : Obligations.TheOperandIsLittleEndian := by
  intro m f0 f1 f2 f3 f4 rest
  refine ⟨decodeOp m f0 (unle32 f1 f2 f3 f4), rfl, operandOf_decodeOp _ _ _, ?_⟩
  rw [operandOf_decodeOp, unle32_toNat]

/-! ### The byte address of a sector (20 R71) -/

theorem byteAddress_toNat (lba : Word) : (byteAddress lba).toNat = lba.toNat * 512 % 2 ^ 32 := by
  rw [byteAddress, BitVec.toNat_shiftLeft, Nat.shiftLeft_eq]

/-- The shift discards the nine high bits of the sector number, and only those (20 R71). -/
theorem byteAddress_eq_iff (lba lba' : Word) :
    byteAddress lba = byteAddress lba' ↔ lba.toNat % 2 ^ 23 = lba'.toNat % 2 ^ 23 := by
  rw [← BitVec.toNat_inj, byteAddress_toNat, byteAddress_toNat]
  omega

theorem addr_mem_readSetupEvents (a : Nat → Word) (lba : Word) :
    .regWrite 0x0C#8 (byteAddress lba) ∈ readSetupEvents a lba := by
  simp [readSetupEvents]

/-- A send adds itself to the observation (20 R84). -/
theorem visible_send (bytes : List Byte) (s : State) : (send bytes s).visible = s.visible ++ [.send bytes] := by
  simpa [isLog] using visible_append (history_cons (send_trace bytes s))

/-- However its wait ends, a read begins with its setup (40 R135). -/
theorem readBlock_begins_with_setup (w : Site) (lba : Word) (s : State) :
    s.visible ++ readSetupEvents s.answer lba <+: (readBlock w lba s).2.visible := by
  obtain ⟨p, hr⟩ | hr := ready_or_never (shift 1 s.answer) s.params.waitBudget.toNat
  · obtain ⟨u, hu, hs, -⟩ := readBlock_ok (w := w) (lba := lba) hr
    rw [hu, hs.visible, List.append_assoc, ← List.append_assoc s.visible]
    exact List.prefix_append _ _
  · obtain ⟨u, hu, hs, -⟩ := readBlock_never (w := w) (lba := lba) hr
    rw [hu, hs.visible, ← List.append_assoc s.visible]
    exact List.prefix_append _ _

/-- What a READ_FLASH does with the result of its read adds one send to the observation: the sector, or the error word
(41 R186, 60 R269). -/
theorem visible_reply_readReply (r : Option Site × State) :
    ∃ bytes, (reply readReply r).visible = r.2.visible ++ [.send bytes] := by
  obtain ⟨_ | w, u⟩ := r
  · exact ⟨_, visible_send _ u⟩
  · exact ⟨le32 u.err, by cases w <;> exact visible_send _ u⟩

/-- A READ_FLASH completes, whatever the sector, and begins with the setup of its read (41 R186). -/
theorem readFlash_begins_with_setup (lba : Word) (s : State) :
    ∃ t, exec (.readFlash lba) s = .next t ∧ s.visible ++ readSetupEvents s.answer lba <+: t.visible := by
  let b := beginCommand (.readFlash lba) s
  obtain ⟨bytes, h⟩ := visible_reply_readReply (readBlock .read lba b)
  exact ⟨_, rfl, h ▸ (readBlock_begins_with_setup .read lba b).trans (List.prefix_append _ _)⟩

/-- Any sector is accepted: a READ_FLASH completes, and programs the sector's byte address (20 R71). -/
theorem readFlash_programs_address (lba : Word) (s : State) :
    ∃ t, exec (.readFlash lba) s = .next t
      ∧ .regWrite 0x0C#8 (byteAddress lba) ∈ t.regTrace.drop s.regTrace.length := by
  obtain ⟨t, ht, es, hv⟩ := readFlash_begins_with_setup lba s
  refine ⟨t, ht, ?_⟩
  rw [List.append_assoc] at hv
  rw [regTrace_of_visible hv.symm, List.drop_left]
  exact List.mem_filter.2 ⟨List.mem_append_left _ (addr_mem_readSetupEvents _ _), rfl⟩

/-- Settles O34: the shift is a product modulo 2^32, each of the three sequences programs it, and so does every READ_FLASH. -/
theorem sectorAddressIsShiftedAndTruncated : Obligations.SectorAddressIsShiftedAndTruncated := fun lba =>
  ⟨byteAddress_toNat lba, byteAddress_eq_iff lba, by simp [readSetup], by simp [eraseSetup], by simp [writeAddr],
    readFlash_programs_address lba⟩

end Sys2Proof.Machine
end

section
/-! PROOF. What the decoder makes of an op byte (30 R104). -/

namespace Sys2Proof.Machine

open Sys2Proof Sys2Proof.Safety

/-- Each named op value decodes to its own operation, as no earlier test of 30 R104 has the same value (00 R10). -/
theorem decodeOp_of_named {m : OpMap} (h : m.named.Nodup) (lba : Word) :
    decodeOp m OpMap.getVersion lba = .getVersion lba
      ∧ decodeOp m m.getFlashConfig lba = .getFlashConfig lba
      ∧ decodeOp m m.readFlash lba = .readFlash lba
      ∧ decodeOp m m.writeFlash lba = .writeFlash lba
      ∧ decodeOp m m.readFlashStream lba = .readFlashStream lba
      ∧ decodeOp m m.rebootToBootloader lba = .rebootToBootloader lba := by
  have distinct : m.named.Pairwise fun a b => b ≠ a := h.imp Ne.symm
  simp only [OpMap.named, List.pairwise_cons, List.forall_mem_cons] at distinct
  obtain ⟨⟨c0, r0, w0, s0, b0, -⟩, ⟨r1, w1, s1, b1, -⟩, ⟨w2, s2, b2, -⟩, ⟨s3, b3, -⟩, ⟨b4, -⟩, -⟩ := distinct
  refine ⟨?_, ?_, ?_, ?_, ?_, ?_⟩ <;> simp only [decodeOp, if_true, if_false, *]

/-- An op byte that is not named is decided by the reserved rows (30 R104). -/
theorem decodeOp_of_not_named {m : OpMap} {op : Byte} (h : op ∉ m.named) (lba : Word) :
    decodeOp m op lba = if op ∈ m.reservedEmmc then .reservedEmmc op lba
      else if op ∈ m.reservedDaughterboard then .reservedDaughterboard op lba
      else .unrecognized op lba := by
  simp only [OpMap.named, List.mem_cons, not_or] at h
  obtain ⟨h0, h1, h2, h3, h4, h5, -⟩ := h
  simp only [decodeOp, List.contains_eq_mem, decide_eq_true_eq, if_false, *]

theorem decodeOp_of_reserved {m : OpMap} {op : Byte} (h : op ∉ m.named) (hr : op ∈ m.reserved) (lba : Word) :
    decodeOp m op lba = .reservedEmmc op lba ∨ decodeOp m op lba = .reservedDaughterboard op lba := by
  rw [decodeOp_of_not_named h]
  by_cases he : op ∈ m.reservedEmmc
  · exact .inl (if_pos he)
  · have hd : op ∈ m.reservedDaughterboard := (List.mem_append.1 hr).resolve_left he
    exact .inr (by rw [if_neg he, if_pos hd])

theorem decodeOp_of_not_reserved {m : OpMap} {op : Byte} (h : op ∉ m.named) (hr : op ∉ m.reserved) (lba : Word) :
    decodeOp m op lba = .unrecognized op lba := by
  obtain ⟨he, hd⟩ := not_mem_reserved_iff.1 hr
  rw [decodeOp_of_not_named h, if_neg he, if_neg hd]

/-- The operand takes no part in the decision: another one changes the operand of the instruction, and nothing else
(30 R102, R104). -/
theorem decodeOp_eq_withOperand (m : OpMap) (op : Byte) (v w : Word) :
    decodeOp m op v = withOperand v (decodeOp m op w) := by
  unfold decodeOp
  split_ifs <;> rfl

/-- Settles O3: the named values are distinct, so each reaches its own test; every other byte falls through to the reserved
rows; and no test looks at the operand. -/
theorem theOpByteAloneDecidesTheOperation : Obligations.TheOpByteAloneDecidesTheOperation := by
  intro m f0 f1 f2 f3 f4 rest hwf
  obtain ⟨nodup, -⟩ := opMap_wf_iff.1 hwf
  obtain ⟨version, config, read, write, stream, reboot⟩ := decodeOp_of_named nodup (unle32 f1 f2 f3 f4)
  refine ⟨decodeOp m f0 (unle32 f1 f2 f3 f4), rfl, ?_⟩
  rw [operandOf_decodeOp]
  refine ⟨fun h => h ▸ version, fun h => h ▸ config, fun h => h ▸ read, fun h => h ▸ write, fun h => h ▸ stream,
    fun h => h ▸ reboot, fun h hr => decodeOp_of_reserved h hr _, fun h hr => decodeOp_of_not_reserved h hr _,
    fun g1 g2 g3 g4 => ⟨decodeOp m f0 (unle32 g1 g2 g3 g4), rfl, ?_⟩⟩
  rw [operandOf_decodeOp]
  exact decodeOp_eq_withOperand m f0 _ _

end Sys2Proof.Machine
end

section
/-! PROOF. The error word and its bytes (30 R110). -/

namespace Sys2Proof.Machine

open Sys2Proof

/-- The error bit stands above the low 15 bits of the status (30 R110). -/
theorem errorWord_eq_add (s : Half) : errorWord s = 0x8000#32 + (s.setWidth 15).setWidth 32 := by
  have apart : 0x8000#32 &&& (s.setWidth 15).setWidth 32 = 0#32 := by
    apply BitVec.eq_of_getElem_eq
    intro i hi
    interval_cases i <;> simp
  rw [BitVec.add_eq_or_of_and_eq_zero _ _ apart]
  apply BitVec.eq_of_getElem_eq
  intro i hi
  interval_cases i <;> simp [errorWord]

theorem errorWord_toNat (s : Half) : (errorWord s).toNat = 0x8000 + s.toNat % 0x8000 := by
  rw [errorWord_eq_add, BitVec.toNat_add, BitVec.toNat_setWidth, BitVec.toNat_setWidth, BitVec.toNat_ofNat]
  omega

/-- The success word is 0, so no error word is taken for it (30 R110). -/
theorem errorWord_ne_zero (s : Half) : errorWord s ≠ 0#32 := by
  intro h
  have := errorWord_toNat s
  rw [h, BitVec.toNat_ofNat] at this
  omega

/-- Bit 15 of the status is lost under the error bit, and only that bit (30 R110). -/
theorem errorWord_eq_iff (s s' : Half) : errorWord s = errorWord s' ↔ s.toNat % 0x8000 = s'.toNat % 0x8000 := by
  rw [← BitVec.toNat_inj, errorWord_toNat, errorWord_toNat, Nat.add_left_cancel_iff]

theorem le32_errorWord (s : Half) :
    le32 (errorWord s) = [s.extractLsb' 0 8, 0x80#8 ||| s.extractLsb' 8 8, 0x00#8, 0x00#8] := by
  have b0 : byteOf (errorWord s) 0 = s.extractLsb' 0 8 := by
    rw [← BitVec.toNat_inj, byteOf_toNat, errorWord_toNat, BitVec.extractLsb'_toNat, Nat.shiftRight_zero]
    omega
  have b1 : byteOf (errorWord s) 1 = 0x80#8 ||| s.extractLsb' 8 8 := by
    apply BitVec.eq_of_getLsbD_eq
    intro i hi
    interval_cases i <;> simp [byteOf, errorWord]
  have high : ∀ i, 2 ^ 16 ≤ 2 ^ (8 * i) → byteOf (errorWord s) i = 0x00#8 := fun i hi => by
    have small : (errorWord s).toNat < 2 ^ 16 := by
      rw [errorWord_toNat]
      omega
    rw [← BitVec.toNat_inj, byteOf_toNat, Nat.div_eq_of_lt (small.trans_le hi)]
    rfl
  rw [le32, b0, b1, high 2 (by decide), high 3 (by decide)]

/-- Settles O32: the error word is the error bit above the low 15 bits of the status, and its bytes are the status's two
below two of zero. -/
theorem errorWordOnTheWire : Obligations.ErrorWordOnTheWire :=
  ⟨fun s => ⟨errorWord_toNat s, le32_errorWord s, errorWord_ne_zero s, errorWord_eq_iff s⟩, rfl⟩

end Sys2Proof.Machine
end

section
/-! PROOF. The polls of `wait_ready` and its countdown (40 R133). -/

namespace Sys2Proof.Machine

open Sys2Proof

/-- The busy bit of a status is bit 0 of the word read (20 R76, 10 R49). -/
theorem busy_statusOf (v : Word) : busy (statusOf v) = v.getLsbD 0 := by
  simp [busy, statusOf]

/-- `t` is counted down once between two polls: what is left of it and the polls made add up to the budget and the first
poll, however the loop ends (40 R133). -/
theorem waitLoop_t_add_polls {n : Nat} {s : State} (h : s.t.toNat = n) :
    (waitLoop n s).2.t.toNat + (waitLoop n s).2.trace.length = n + (s.trace.length + 1) := by
  induction n generalizing s with
  | zero => simp [waitLoop, h]
  | succ n ih =>
    have ht : (countDown (pollStatus s)).t.toNat = n := by
      rw [countDown_t, pollStatus_t]
      bv_omega
    by_cases hb : busy (pollStatus s).sLast = true
    · have hpolls := ih ht
      rw [waitLoop, if_pos hb]
      simp only [countDown_trace, pollStatus_trace, List.length_cons] at hpolls
      omega
    · rw [waitLoop, if_neg hb]
      simp [h]

theorem Effect.trace_length {s u : State} {n : Nat} {es : List Event} (h : Effect s u n es) :
    u.trace.length = s.trace.length + es.length := by
  simpa [State.history] using congrArg List.length h.history

@[simp] theorem length_pollEvents (a : Nat → Word) (n : Nat) : (pollEvents a n).length = n := by
  simp [pollEvents]

/-- After `p + 1` polls the budget has lost `p` (40 R133). -/
theorem waitReady_t {s u : State} {b : Bool} {p : Nat} (hu : waitReady s = (b, u))
    (he : Effect s u (p + 1) (pollEvents s.answer (p + 1))) : u.t.toNat = s.params.waitBudget.toNat - p := by
  have hsum := waitLoop_t_add_polls (s := startWait s) rfl
  have hloop : (waitLoop (startWait s).t.toNat (startWait s)).2 = u := congrArg Prod.snd hu
  rw [hloop, he.trace_length, length_pollEvents, startWait_trace, startWait_t] at hsum
  omega

/-- No poll is hidden from the observation (20 R84). -/
theorem Effect.visible_pollEvents {s u : State} {a : Nat → Word} {n m : Nat} (h : Effect s u n (pollEvents a m)) :
    u.visible = s.visible ++ pollEvents a m := by
  rw [visible_append h.history, transactions_visible (pollEvents_transactions a m)]

/-- A wait writes its two registers, the trace, and the answers it takes, and nothing else (40 R133). -/
theorem WaitFrame.frame {s u : State} (h : WaitFrame s u) :
    { u with
      trace := s.trace
      regAnswers := s.regAnswers
      regDraws := s.regDraws
      t := s.t
      sLast := s.sLast } = s := by
  have hf := frame_of_scrub h.scrub
  rwa [← h.lastWrite, ← h.tmp, ← h.rdBuf, ← h.err] at hf

/-- Settles O31: both ends of a wait add their polls and nothing else to the trace, and the polls fix what is left of `t`. -/
theorem waitReadyCountsItsPolls : Obligations.WaitReadyCountsItsPolls := by
  refine fun s => ⟨fun k hk hkT hbusy hready => ?_, fun hbusy => ?_⟩
  · obtain ⟨p, rfl⟩ : ∃ p, k = p + 1 := ⟨k - 1, by omega⟩
    have hr : ReadyAt s.answer s.params.waitBudget.toNat p :=
      ⟨by omega, fun i hi => (busy_statusOf _).trans (hbusy i hi), (busy_statusOf _).trans hready⟩
    obtain ⟨u, hu, he, hf, hs⟩ := waitReady_ready hr
    exact ⟨u, hu, he.visible_pollEvents, waitReady_t hu he, hs, hf.frame⟩
  · have hn : NeverReady s.answer s.params.waitBudget.toNat := fun i hi => (busy_statusOf _).trans (hbusy i hi)
    obtain ⟨u, hu, he, hf, hs⟩ := waitReady_never hn
    have ht : u.t = 0#16 := BitVec.eq_of_toNat_eq ((waitReady_t hu he).trans (Nat.sub_self _))
    exact ⟨u, hu, he.visible_pollEvents, ht, hs, hf.frame⟩

end Sys2Proof.Machine
end

section
/-! PROOF. The queries GET_VERSION and GET_FLASH_CONFIG (41 R184, R185), and READ_FLASH_STREAM, which sends nothing (41 R188). -/

namespace Sys2Proof.Machine

open Sys2Proof

/-! ### What the steps of these commands add to the trace -/

theorem Effect.visible {s t : State} {n : Nat} {es : List Event} (h : Effect s t n es) :
    t.visible = s.visible ++ es.filter fun e => !isLog e :=
  visible_append h.history

/-- The registers of a dispatch are no output, and no answer is taken for them (41 R183). -/
theorem beginCommand_effect (i : Instr) (s : State) : Effect s (beginCommand i s) 0 [] :=
  Effect.of_eq rfl rfl rfl

theorem send_effect (bytes : List Byte) (s : State) : Effect s (send bytes s) 0 [.send bytes] :=
  Effect.of_event rfl rfl rfl

theorem cfgRead_effect (s : State) : Effect s (fire .cfgRead s) 1 [.regRead 0x00#8 (s.answer 0)] :=
  Effect.of_read .cfg rfl rfl rfl

/-! ### The queries (41 R184, R185) -/

theorem getFlashConfig_of_filled {s : State} (h : s.cfgValid = true) : getFlashConfig s = s :=
  if_pos h

theorem getFlashConfig_of_empty {s : State} (h : s.cfgValid = false) : getFlashConfig s = fire .cfgRead s :=
  if_neg (Bool.eq_false_iff.1 h)

/-- GET_VERSION is its dispatch and one send (41 R184). -/
theorem exec_getVersion (lba : Word) (s : State) :
    exec (.getVersion lba) s = .next (send (le32 s.params.protocolVersion) (beginCommand (.getVersion lba) s)) := rfl

theorem exec_getFlashConfig (lba : Word) (s : State) :
    exec (.getFlashConfig lba) s
      = .next (perform [.sendConfig] (getFlashConfig (beginCommand (.getFlashConfig lba) s))) := rfl

/-- With a filled cache GET_FLASH_CONFIG is its dispatch and one send (41 R185). -/
theorem exec_getFlashConfig_of_filled {s : State} (h : s.cfgValid = true) (lba : Word) :
    exec (.getFlashConfig lba) s = .next (send (le32 s.cfgValue) (beginCommand (.getFlashConfig lba) s)) := by
  rw [exec_getFlashConfig, getFlashConfig_of_filled (s := beginCommand _ s) h]
  rfl

/-- With an empty cache GET_FLASH_CONFIG is its dispatch, the read that fills the cache, and one send (41 R185). -/
theorem exec_getFlashConfig_of_empty {s : State} (h : s.cfgValid = false) (lba : Word) :
    exec (.getFlashConfig lba) s
      = .next (send (le32 (s.answer 0)) (fire .cfgRead (beginCommand (.getFlashConfig lba) s))) := by
  rw [exec_getFlashConfig, getFlashConfig_of_empty (s := beginCommand _ s) h]
  rfl

/-- Settles O10: after the dispatch the only step is the send. -/
theorem getVersionSendsTheVersion : Obligations.GetVersionSendsTheVersion := by
  intro lba s
  have he := (beginCommand_effect (.getVersion lba) s).trans (send_effect (le32 s.params.protocolVersion) _)
  have noTransaction := he.regTrace
  exact ⟨_, exec_getVersion lba s, rfl, he.visible, he.tx, rfl, noTransaction.trans (List.append_nil _), rfl⟩

/-- Settles O11: the cache decides whether the read of REG_CFG comes between the dispatch and the send. -/
theorem getFlashConfigReadsOnceAndSends : Obligations.GetFlashConfigReadsOnceAndSends := by
  intro lba s
  have begun := beginCommand_effect (.getFlashConfig lba) s
  refine ⟨rfl, fun filled => ?_, fun empty => ?_⟩
  · have he := begun.trans (send_effect (le32 s.cfgValue) _)
    exact ⟨_, exec_getFlashConfig_of_filled filled lba, he.visible, rfl⟩
  · have he := (begun.trans (cfgRead_effect _)).trans (send_effect (le32 (s.answer 0)) _)
    have later (k : Nat) := (he.answers k).trans (congrArg s.answer (Nat.add_comm 1 k))
    exact ⟨_, exec_getFlashConfig_of_empty empty lba, he.visible, rfl, rfl, later, by simp [fire]⟩

/-! ### The stream session (41 R188) -/

/-- READ_FLASH_STREAM is its dispatch and the arming of the session (41 R188). -/
theorem exec_readFlashStream (lba : Word) (s : State) :
    exec (.readFlashStream lba) s = .next { beginCommand (.readFlashStream lba) s with
      stActive := true
      stCur := 0#32
      stEnd := lba
      stMedium := .nand } := rfl

/-- At the end of its session a tick clears it, and does nothing else (42 R220). -/
theorem streamTick_at_end {s : State} (active : s.stActive = true) (done : s.stEnd ≤ s.stCur) :
    streamTick s = { s with stActive := false } := by
  rw [streamTick, if_pos active, if_pos done]
  rfl

/-- Settles O25: arming writes the session and adds no event; with no sectors the session stands at its end from the start. -/
theorem readFlashStreamArmsTheSession : Obligations.ReadFlashStreamArmsTheSession := fun lba s =>
  ⟨_, exec_readFlashStream lba s, rfl, rfl, rfl, rfl, rfl, rfl, rfl, rfl,
    fun noSectors => streamTick_at_end rfl (BitVec.le_of_eq noSectors), rfl⟩

end Sys2Proof.Machine
end

section
/-! PROOF. One tick of the stream engine (42 R220). -/

namespace Sys2Proof.Machine

open Sys2Proof Sys2Proof.Safety

/-- At the tick the engine ticks the stream and goes on to its frame wait (41 R180). -/
theorem step_tick {s : State} (h : AtOp .tick s) : step s = .next (goto [.frameWait] (streamTick s)) := by
  obtain ⟨k, hpc⟩ := h.pc
  rw [step_empty h.ops h.medium h.script, engineStep_free h.free]
  simp only [advanceEngine, runProcedure, hpc]

theorem streamTick_of_inactive {s : State} (inactive : s.stActive = false) : streamTick s = s :=
  if_neg (Bool.eq_false_iff.1 inactive)

/-- Before the end of its session a tick reads sector `st_cur` and replies (42 R220 steps 3 to 8). -/
theorem streamTick_before_end {s : State} (active : s.stActive = true) (more : s.stCur < s.stEnd) :
    streamTick s = reply tickReply (readBlock .tick s.stCur s) := by
  rw [streamTick, if_pos active, if_neg (BitVec.not_le.2 more)]

/-- A stretch of transactions and one send after it, as they are observed (10 R55). -/
theorem Stretch.visible_send {s u : State} {n : Nat} {es : List Event} (h : Stretch s u n es) (bytes : List Byte) :
    (send bytes u).visible = s.visible ++ es ++ [.send bytes] := by
  rw [Machine.visible_send, h.visible]

/-- A tick whose read is Ok sends the success word and the sector, and advances by one (42 R220 steps 7 and 8). -/
theorem streamTick_sends_sector {s : State} {p : Nat} (active : s.stActive = true) (more : s.stCur < s.stEnd)
    (ready : ReadyAt (shift 1 s.answer) s.params.waitBudget.toNat p) :
    ∃ u, Stretch s u (1 + (p + 1) + sectorWords) (readEvents s.answer s.stCur p)
      ∧ streamTick s = { send (le32 0#32 ++ sectorBytes (shift (1 + (p + 1)) s.answer)) u with
          stCur := s.stCur + 1#32 } := by
  obtain ⟨u, hu, hs, hbuf⟩ := readBlock_ok (w := .tick) (lba := s.stCur) ready
  refine ⟨u, hs, ?_⟩
  rw [streamTick_before_end active more, hu, ← hbuf, ← rest_stCur hs.rest]
  rfl

/-- A tick whose read fails sends the error word and ends the session (42 R220, 60 R269). -/
theorem streamTick_sends_error {s : State} (active : s.stActive = true) (more : s.stCur < s.stEnd)
    (never : NeverReady (shift 1 s.answer) s.params.waitBudget.toNat) :
    ∃ u, Stretch s u (1 + (s.params.waitBudget.toNat + 1 + errorReads s.params.errStatusSource))
          (readSetupEvents s.answer s.stCur
            ++ timeoutEvents s.params.errStatusSource (shift 1 s.answer) s.params.waitBudget.toNat)
      ∧ streamTick s = { send (le32 (failureWord s.params.errStatusSource (shift 1 s.answer)
          s.params.waitBudget.toNat)) u with stActive := false } := by
  obtain ⟨u, hu, hs, herr⟩ := readBlock_never (w := .tick) (lba := s.stCur) never
  refine ⟨u, hs, ?_⟩
  rw [streamTick_before_end active more, hu, ← herr]
  rfl

/-- Settles O26: the tick's two tests give the first two cases; before the end it is the read's stretch of transactions and one
send, and what the stretch leaves alone is the frame. -/
theorem streamTickReadsOneSector : Obligations.StreamTickReadsOneSector := by
  intro s h
  rw [step_tick h]
  refine ⟨fun inactive => ?_, fun active done => ?_, fun active more => ⟨fun p ready => ?_, fun never => ?_⟩⟩
  · rw [streamTick_of_inactive inactive]
    rfl
  · rw [streamTick_at_end active done]
    rfl
  · obtain ⟨u, hs, ht⟩ := streamTick_sends_sector active more ready
    have stillActive := (rest_stActive hs.rest).trans active
    have frame := frame_of_scrub hs.rest
    rw [rest_pc hs.rest, rest_stCur hs.rest] at frame
    rw [ht]
    exact ⟨_, rfl, hs.visible_send _, rfl, stillActive, rfl, frame⟩
  · obtain ⟨u, hs, ht⟩ := streamTick_sends_error active more never
    have sameSector := rest_stCur hs.rest
    have frame := frame_of_scrub hs.rest
    rw [rest_pc hs.rest, rest_stActive hs.rest] at frame
    rw [ht, List.append_assoc s.visible]
    exact ⟨_, rfl, hs.visible_send _, rfl, sameSector, rfl, frame⟩

end Sys2Proof.Machine
end

section
/-! PROOF. The power sequencer: phase STOP (43 R240, 70 R292) and phase START (43 R241, 70 R294). -/

namespace Sys2Proof.Machine

open Sys2Proof Sys2Proof.Safety

/-! ### A step at the entry of a procedure -/

/-- Outside the frame wait, which may fetch a command, the engine runs the procedure it stands at (41 R182). -/
theorem step_procedure {s : State} {o : Op} (h : AtOp o s) (notFrameWait : o ≠ .frameWait) :
    step s = .next (runProcedure s) := by
  obtain ⟨k, hpc⟩ := h.pc
  rw [step_empty h.ops h.medium h.script, engineStep_free h.free, advanceEngine]
  split
  · next hw => exact absurd (List.cons.inj (hpc.symm.trans hw)).1 notFrameWait
  · rfl

theorem step_stop {s : State} (h : AtOp .stop s) : step s = .next (runStop s) := by
  obtain ⟨k, hpc⟩ := h.pc
  rw [step_procedure h nofun]
  simp only [runProcedure, hpc]

theorem step_start {s : State} (h : AtOp .start s) : step s = .next (runStart s) := by
  obtain ⟨k, hpc⟩ := h.pc
  rw [step_procedure h nofun]
  simp only [runProcedure, hpc]

/-! ### What becomes visible -/

/-- The observation of a longer trace (10 R55); the trace holds the newest event first. -/
theorem visible_of_trace {s t : State} {es : List Event} (h : t.trace = es.reverse ++ s.trace) :
    t.visible = s.visible ++ es.filter fun e => !isLog e :=
  visible_append (by simp [State.history, h])

/-- A successful TransportUp ends the trace of STOP (43 R240 step 9). -/
theorem visible_runStop_up {s : State} (up : s.initAnswer = true) :
    (runStop s).visible = s.visible ++ (stopEvents s.params.settleMinMs ++ [Event.transportUp true]) := by
  have trace : (runStop s).trace = (stopEvents s.params.settleMinMs ++ [Event.transportUp true]).reverse ++ s.trace := by
    rw [runStop_eq, if_pos up]
    rfl
  exact visible_of_trace trace

/-- After a failed TransportUp only the log event of the failure follows, which is not observed (70 R292, 92 D31). -/
theorem visible_runStop_down {s : State} (down : ¬ s.initAnswer = true) :
    (runStop s).visible = s.visible ++ (stopEvents s.params.settleMinMs ++ [Event.transportUp false]) := by
  have trace : (runStop s).trace
      = (stopEvents s.params.settleMinMs ++ [Event.transportUp false, .log .fatalTransportInit]).reverse ++ s.trace := by
    rw [runStop_eq, if_neg down]
    rfl
  exact visible_of_trace trace

theorem visible_runStart (s : State) : (runStart s).visible = s.visible ++ startEvents s.params.settleMinMs :=
  visible_of_trace (es := startEvents s.params.settleMinMs) (by rw [runStart_eq])

/-! ### The two phases -/

/-- Settles O41: the line steps are the same whatever follows; the answer to TransportUp decides between RUN and START. -/
theorem stopControllerSequence : Obligations.StopControllerSequence := by
  intro s h
  refine ⟨runStop s, s.initAnswer, step_stop h, ?_⟩
  by_cases up : s.initAnswer = true
  · have seen := visible_runStop_up up
    rw [runStop_eq, if_pos up] at seen ⊢
    rw [up]
    exact ⟨seen, rfl, rfl, rfl, rfl, fun _ => ⟨rfl, rfl, rfl, rfl⟩, nofun, rfl⟩
  · have seen := visible_runStop_down up
    rw [runStop_eq, if_neg up] at seen ⊢
    rw [Bool.eq_false_of_not_eq_true up]
    exact ⟨seen, rfl, rfl, rfl, rfl, nofun, fun _ => ⟨rfl, rfl, rfl, rfl⟩, rfl⟩

/-- Settles O42: START is one straight sequence, which ends HALTED and reads nothing of the environment. -/
theorem startControllerSequence : Obligations.StartControllerSequence := by
  intro s h
  refine ⟨runStart s, step_start h, visible_runStart s, ?_⟩
  rw [runStart_eq]
  exact ⟨rfl, rfl, rfl, rfl, rfl, rfl, rfl, rfl⟩

end Sys2Proof.Machine
end

section
/-! PROOF. Frames: encoding and decoding undo each other (30 R100, R104, R111), and the bytes of a word (00 R13). -/

namespace Sys2Proof.Machine

open Sys2Proof

/-! ### Decoding an encoded frame -/

/-- The op byte of a well-formed instruction decodes to that instruction (30 R104). -/
theorem decodeOp_opcodeOf {m : OpMap} {i : Instr} (hm : m.wf = true) (hi : i.wf m = true) :
    decodeOp m (opcodeOf m i) (operandOf i) = i := by
  obtain ⟨nodup, -⟩ := opMap_wf_iff.1 hm
  obtain ⟨version, config, read, write, stream, reboot⟩ := decodeOp_of_named nodup (operandOf i)
  cases i with
  | getVersion lba => exact version
  | getFlashConfig lba => exact config
  | readFlash lba => exact read
  | writeFlash lba => exact write
  | readFlashStream lba => exact stream
  | rebootToBootloader lba => exact reboot
  | reservedEmmc op lba =>
    simp only [Instr.wf, List.contains_eq_mem, Bool.and_eq_true, Bool.not_eq_true', decide_eq_true_eq,
      decide_eq_false_iff_not] at hi
    obtain ⟨notNamed, emmc⟩ := hi
    exact (decodeOp_of_not_named notNamed lba).trans (if_pos emmc)
  | reservedDaughterboard op lba =>
    simp only [Instr.wf, List.contains_eq_mem, Bool.and_eq_true, Bool.not_eq_true', decide_eq_true_eq,
      decide_eq_false_iff_not] at hi
    obtain ⟨⟨notNamed, notEmmc⟩, board⟩ := hi
    exact (decodeOp_of_not_named notNamed lba).trans ((if_neg notEmmc).trans (if_pos board))
  | unrecognized op lba =>
    simp only [Instr.wf, List.contains_eq_mem, Bool.and_eq_true, Bool.not_eq_true', decide_eq_false_iff_not] at hi
    exact decodeOp_of_not_reserved hi.1 hi.2 lba

/-- The decoder reads the op byte and the operand that the encoder wrote (30 R100, R111). -/
theorem decode_encode_append (m : OpMap) (i : Instr) (rest : List Byte) :
    decode m (encode m i ++ rest) = .ok (decodeOp m (opcodeOf m i) (operandOf i), rest) :=
  congrArg (fun lba => Except.ok (decodeOp m (opcodeOf m i) lba, rest)) (unle32_le32 (operandOf i))

/-- Settles O1: the operand comes back by `unle32` of `le32`, and the op byte of a well-formed instruction by its own test. -/
theorem decodingAnEncodedFrameGivesItBack : Obligations.DecodingAnEncodedFrameGivesItBack := by
  intro m i rest hm hi
  rw [decode_encode_append, decodeOp_opcodeOf hm hi]

/-! ### Encoding a decoded frame -/

/-- Whatever the decoder makes of an op byte, the instruction is well-formed and has that op byte (30 R104). -/
theorem decodeOp_wf_and_opcode (m : OpMap) (op : Byte) (lba : Word) :
    (decodeOp m op lba).wf m = true ∧ opcodeOf m (decodeOp m op lba) = op := by
  by_cases named : op ∈ m.named
  · simp only [OpMap.named, List.mem_cons, List.not_mem_nil, or_false] at named
    unfold decodeOp
    split_ifs with h0 h1 h2 h3 h4 h5
    case neg => simp_all
    all_goals simp_all [Instr.wf, opcodeOf]
  · rw [decodeOp_of_not_named named]
    split_ifs with emmc board <;>
      simp [Instr.wf, opcodeOf, OpMap.reserved, *]

/-- A frame is five bytes, and what is decoded is its op byte and operand (30 R100). -/
theorem decode_eq_ok {m : OpMap} {bytes rest : List Byte} {i : Instr} (h : decode m bytes = .ok (i, rest)) :
    ∃ f0 f1 f2 f3 f4, bytes = f0 :: f1 :: f2 :: f3 :: f4 :: rest ∧ i = decodeOp m f0 (unle32 f1 f2 f3 f4) := by
  unfold decode at h
  split at h
  · obtain ⟨rfl, rfl⟩ := Prod.mk.inj (Except.ok.inj h)
    exact ⟨_, _, _, _, _, rfl, rfl⟩
  · cases h

/-- Settles O2: the op byte is kept by every test of the decoder, and the operand's bytes by `le32` of `unle32`. -/
theorem encodingADecodedFrameGivesItsBytesBack : Obligations.EncodingADecodedFrameGivesItsBytesBack := by
  intro m bytes rest i h
  obtain ⟨f0, f1, f2, f3, f4, rfl, rfl⟩ := decode_eq_ok h
  obtain ⟨wf, opcode⟩ := decodeOp_wf_and_opcode m f0 (unle32 f1 f2 f3 f4)
  refine ⟨wf, ?_⟩
  rw [encode, opcode, operandOf_decodeOp, le32_unle32]
  rfl

/-! ### Words and frames written out -/

/-- Settles O5: byte `i` is digit `i` in base 256, and the two round trips are the laws of the packing. -/
theorem wordsAndTheirBytesAgree : Obligations.WordsAndTheirBytesAgree :=
  ⟨fun v => by simp [le32, byteOf_toNat], unle32_le32, le32_unle32⟩

/-- Settles O6: the frames are closed terms, so the decoder is run on each. -/
theorem framesWrittenOutDecode : Obligations.FramesWrittenOutDecode := by
  unfold Obligations.FramesWrittenOutDecode
  decide

end Sys2Proof.Machine
end

section
/-! PROOF. The two levels of the model are one machine: a whole step of the engine is so many events of its sequencer (00 R15,
10 R32, 92 D1). -/

namespace Sys2Proof.Machine

open Sys2Proof Sys2Proof.Safety

namespace Reach

/-! ### The payload receive (41 R187) -/

/-- Where no byte is left to take: the payload is complete, abandoned, or waited for. -/
theorem payloadDecide {k : List Op} {s : State} (idle : s.rxQueue = [] ∨ ¬ s.wrCnt < payloadBytes) :
    Reach (goto (.recvPayload :: k) s) (Machine.payloadDecide (goto [.loopTop] s)) := by
  have turn := op (s := goto (.recvPayload :: k) s) rfl
  simp only [opStep, payloadTurn, goto_wrCnt, goto_rxQueue, goto_rxClosed] at turn
  refine turn.trans ?_
  simp only [Machine.payloadDecide, goto_wrCnt, goto_rxClosed, goto_goto]
  by_cases partly : s.wrCnt < payloadBytes
  · simp only [partly, if_true, idle.resolve_right (not_not.2 partly)]
    by_cases closed : s.rxClosed = true
    · simp only [closed, if_true]
      have h := acts [.log (.payloadIncomplete s.wrCnt), .clearPayload] [.loopTop] s
      rwa [← (commutes_goto _).perform] at h
    · simp only [closed]
      exact refl _
  · simp only [partly, if_false, finishWrite_goto]
    exact finish s

/-- Byte after byte, then the decision. -/
theorem payload (q : List Byte) {k : List Op} {s : State} (hq : s.rxQueue = q) :
    Reach (goto (.recvPayload :: k) s) (Machine.payloadDecide (goto [.loopTop] (takePayload q s))) := by
  induction q generalizing s k with
  | nil => exact payloadDecide (.inl hq)
  | cons b q ih =>
    rw [takePayload]
    by_cases partly : s.wrCnt < payloadBytes
    · have turn := op (s := goto (.recvPayload :: k) s) rfl
      simp only [opStep, payloadTurn, goto_wrCnt, goto_rxQueue, hq, partly, if_true] at turn
      rw [if_pos partly]
      exact turn.trans (ih (s := payloadByte b q s) rfl)
    · rw [if_neg partly]
      exact payloadDecide (.inr partly)

theorem payloadReceive (k : List Op) (s : State) :
    Reach (goto (.recvPayload :: k) s) (Machine.payloadReceive (goto [.loopTop] s)) := by
  rw [Machine.payloadReceive, takePayload_goto]
  exact payload s.rxQueue rfl

/-! ### The commands (41 R183) -/

/-- `get_flash_config` (40 R130). -/
theorem cfgTest (k : List Op) (s : State) : Reach (goto (.cfgTest :: k) s) (goto k (getFlashConfig s)) := by
  have turn := op (s := goto (.cfgTest :: k) s) rfl
  rw [← (commutes_goto k).getFlashConfig]
  simp only [opStep, goto_cfgValid] at turn
  exact turn

/-- A command made of straight-line steps. -/
theorem straight (as : List Act) (i : Instr) (s : State) :
    Reach (goto (Machine.acts as ++ [.loopTop]) (beginCommand i s))
      (perform as (beginCommand i (goto [.loopTop] s))) := by
  have h := acts as [.loopTop] (beginCommand i s)
  rwa [← (commutes_goto _).perform] at h

/-- A command, from its dispatch on, and the loop top after it. -/
theorem command {i : Instr} {s t : State} (h : exec i (goto [.loopTop] s) = .next t) :
    Reach (goto (commandOps i) (beginCommand i s)) t := by
  cases i with
  | getFlashConfig lba =>
    obtain rfl := Host.Outcome.next.inj h
    have run := (cfgTest _ (beginCommand (.getFlashConfig lba) s)).trans (acts [.sendConfig] [.loopTop] _)
    rwa [← (commutes_goto _).perform, ← (commutes_goto _).getFlashConfig] at run
  | readFlash lba =>
    obtain rfl := Host.Outcome.next.inj h
    have run := read .read lba readReply (beginCommand (.readFlash lba) s)
    rwa [← (commutes_goto _).reply readReply ((commutes_goto _).readBlock .read lba _)] at run
  | writeFlash lba =>
    obtain rfl := Host.Outcome.next.inj h
    have run := (acts [.clearPayload] [.recvPayload] (beginCommand (.writeFlash lba) s)).trans (payloadReceive [] _)
    rwa [← (commutes_goto _).perform] at run
  | getVersion lba => exact Host.Outcome.next.inj h ▸ straight _ _ s
  | readFlashStream lba => exact Host.Outcome.next.inj h ▸ straight _ _ s
  | rebootToBootloader lba => exact Host.Outcome.next.inj h ▸ straight _ _ s
  | reservedEmmc op lba => exact Host.Outcome.next.inj h ▸ straight _ _ s
  | reservedDaughterboard op lba => exact Host.Outcome.next.inj h ▸ straight _ _ s
  | unrecognized op lba => exact Host.Outcome.next.inj h ▸ straight _ _ s

/-! ### The frame wait (41 R182) -/

theorem dropPartial_goto (k : List Op) (s : State) : dropPartial (goto k s) = goto k (dropPartial s) := by
  by_cases none : s.rxCnt = 0
  · exact (if_pos none).trans (congrArg (goto k) (if_pos none).symm)
  · simp only [dropPartial, goto_rxCnt, none, if_false]
    rfl

theorem frameIdle_goto (k : List Op) (s : State) : frameIdle (goto k s) = frameIdle s := by
  rw [frameIdle, dropPartial_goto]
  rfl

/-- A frame wait that the transmit stream does not hold back: byte after byte, until a frame is complete or none is left. -/
theorem frame (q : List Byte) {k : List Op} {s : State} (free : s.waitsForHost = false) (hq : s.rxQueue = q) :
    Reach (goto (.frameWait :: k) s)
      (if (takeFrame q s).1 then goto [.dispatch] (takeFrame q s).2 else frameIdle (takeFrame q s).2) := by
  induction q generalizing s k with
  | nil =>
    have turn := Reach.free (s := goto (.frameWait :: k) s) free rfl
    simp only [opStep, frameTurn, goto_rxQueue, hq, frameIdle_goto] at turn
    exact turn
  | cons b q ih =>
    have turn : Reach (goto (.frameWait :: k) s) (if frameComplete (frameByte b q s)
        then goto [.dispatch] (handOver (frameByte b q s)) else goto [.frameWait] (frameByte b q s)) := by
      have h := Reach.free (s := goto (.frameWait :: k) s) free rfl
      simp only [opStep, frameTurn, goto_rxQueue, hq] at h
      exact h
    rw [takeFrame]
    by_cases whole : frameComplete (frameByte b q s) = true
    · rw [if_pos whole]
      rwa [if_pos whole] at turn
    · rw [if_neg whole]
      rw [if_neg whole] at turn
      exact turn.trans (ih (s := frameByte b q s) ((waitsForHost_takeByte s b q).trans free) rfl)

/-- The step of a frame wait that the transmit stream does not hold back. -/
theorem fetchStep {k : List Op} {s t : State} (pc : s.pc = .frameWait :: k) (free : s.held = false)
    (h : advanceEngine s = .next t) : Reach s t := by
  have self : goto (.frameWait :: k) s = s := pc ▸ rfl
  have waits : s.waitsForHost = false := by simpa [State.held, State.atGate, pc, isGate] using free
  have run := frame s.rxQueue (k := k) waits rfl
  rw [self] at run
  simp only [advanceEngine, pc, fetch] at h
  rcases taken : takeFrame s.rxQueue s with ⟨_ | _, u⟩ <;> simp only [taken, if_true, Bool.false_eq_true, if_false] at h run
  · exact Host.Outcome.next.inj h ▸ run
  · exact run.trans ((op (o := .dispatch) rfl).trans (command h))

/-! ### The other procedures -/

/-- Phase INIT (70 R291). -/
theorem init {k : List Op} {s : State} (pc : s.pc = .init :: k) : Reach s (runInit s) := by
  have first := op pc
  simp only [opStep] at first
  rw [runInit]
  by_cases hw : s.initAnswer = true
  · rw [if_pos hw] at first ⊢
    refine first.trans ?_
    have second : Reach (goto [.serialOpen] (dropInit s))
        (if (dropInit s).initAnswer then goto [.stop] { dropInit (dropInit s) with phase := .stop }
        else goto (Machine.acts [.fatalTransport] ++ [.start]) (dropInit (dropInit s))) := op (o := .serialOpen) rfl
    rw [serialOpen]
    by_cases serial : (dropInit s).initAnswer = true
    · rw [if_pos serial]
      rwa [if_pos serial] at second
    · rw [if_neg serial]
      rw [if_neg serial] at second
      exact second.trans (acts [.fatalTransport] [.start] _)
  · rw [if_neg hw] at first ⊢
    exact first.trans (acts [.fatalHw] [] _)

/-- Phase STOP (70 R292). -/
theorem stop {k : List Op} {s : State} (pc : s.pc = .stop :: k) : Reach s (runStop s) := by
  refine ((op pc).trans (acts stopSequence [.transportUp] s)).trans ?_
  rw [runStop, bringUp]
  generalize perform stopSequence s = u
  have last : Reach (goto [.transportUp] u)
      (if transportUpOk u then goto [.loopTop] { afterTransportUp u with phase := .run }
      else goto (Machine.acts [.fatalTransport] ++ [.start]) (afterTransportUp u)) := op (o := .transportUp) rfl
  by_cases up : transportUpOk u = true
  · rw [if_pos up]
    rwa [if_pos up] at last
  · rw [if_neg up]
    rw [if_neg up] at last
    exact last.trans (acts [.fatalTransport] [.start] _)

/-- Phase START (70 R294). -/
theorem start {k : List Op} {s : State} (pc : s.pc = .start :: k) : Reach s (runStart s) :=
  (op pc).trans (acts startSequence [] s)

/-- A stream tick (42 R220). -/
theorem tick {k : List Op} {s : State} (pc : s.pc = .tick :: k) : Reach s (goto [.frameWait] (streamTick s)) := by
  have first := op pc
  simp only [opStep, tickTurn] at first
  rw [streamTick]
  split_ifs at first ⊢
  · exact first.trans (acts [.deactivate] [.frameWait] s)
  · exact first.trans (read .tick s.stCur tickReply s)
  · exact first

/-- Any procedure. -/
theorem procedure (s : State) : Reach s (runProcedure s) := by
  unfold runProcedure
  split
  case h_1 k pc => exact init pc
  case h_2 k pc => exact stop pc
  case h_3 k pc => exact start pc
  case h_4 k pc => exact tick pc
  case h_5 k pc =>
    have self : goto (.recvPayload :: k) s = s := pc ▸ rfl
    have run := payloadReceive k s
    rwa [self] at run
  case h_6 => exact ⟨1, rfl⟩

/-- Outside the frame wait the engine runs the procedure it stands at (41 R182). -/
theorem advanceEngine_procedure {s : State} (h : ∀ k, s.pc ≠ .frameWait :: k) :
    advanceEngine s = .next (runProcedure s) := by
  rw [advanceEngine]
  split
  · next k pc => exact absurd pc (h k)
  · rfl

/-- Any step of the engine. -/
theorem engine {s t : State} (h : engineStep s = .next t) : Reach s t := by
  by_cases held : s.held = true
  · rw [engineStep_held held] at h
    exact Host.Outcome.next.inj h ▸ refl s
  · have free := Bool.eq_false_of_not_eq_true held
    rw [engineStep_free free] at h
    by_cases waiting : ∃ k, s.pc = .frameWait :: k
    · obtain ⟨k, pc⟩ := waiting
      exact fetchStep pc free h
    · rw [advanceEngine_procedure (not_exists.1 waiting)] at h
      exact Host.Outcome.next.inj h ▸ procedure s

end Reach

/-- Settles O57: part by part, the sequencer comes to the state that the whole procedure has. -/
theorem aStepIsManyEvents : Obligations.AStepIsManyEvents := fun _ _ hp hm hs h =>
  Reach.engine ((step_empty hp hm hs).symm.trans h)

end Sys2Proof.Machine
end

section
/-! PROOF. What one event of the engine can do, said once: a relation that every small update keeps holds from before an
operation of the sequencer to after it. -/

namespace Sys2Proof.Machine

open Sys2Proof Sys2Proof.Safety

/-- A relation between states that holds across every small update an operation of the sequencer is made of. -/
structure Evolves (ok : Act → Bool) (R : State → State → Prop) : Prop extends Steady ok R where
  goto : ∀ k s, R s (goto k s)
  cfg : ∀ s, s.cfgValid = false → R s (Machine.fire .cfgRead s)
  begin_ : ∀ i s, R s (beginCommand i s)
  payload : ∀ b q s, s.rxQueue = b :: q → s.wrCnt < payloadBytes → R s (payloadByte b q s)
  frame : ∀ b q s, s.rxQueue = b :: q → frameComplete (frameByte b q s) = false → R s (frameByte b q s)
  frameEnd : ∀ b q s, s.rxQueue = b :: q → R s (handOver (frameByte b q s))
  partialEnd : ∀ s, R s (dropPartial s)
  waitDraw : ∀ s, R s (dropWait s)
  initDraw : ∀ s, R s (dropInit s)
  enter : ∀ p c s, R s { s with phase := p, exitCode := c }
  up : ∀ s, R s (afterTransportUp s)

namespace Evolves

/-- A command is made of updates that events are made of too. -/
theorem toKeeps {ok : Act → Bool} {R : State → State → Prop} (h : Evolves ok R) (hok : ∀ a, actInRun a = true → ok a = true) :
    Keeps R where
  refl := h.refl
  trans := h.trans
  fire a s ha := h.fire a s (hok a ha)
  poll := h.poll
  count := h.count
  start := h.start
  cfg := h.cfg
  payload := h.payload
  begin_ := h.begin_
  wait s := h.goto _ s

variable {ok : Act → Bool} {R : State → State → Prop} (h : Evolves ok R)

include h

theorem enterPhase (p : Phase) (s : State) : R s { s with phase := p } :=
  h.enter p s.exitCode s

theorem frameIdle (s : State) : R s (Machine.frameIdle s) := by
  unfold Machine.frameIdle
  split_ifs
  · exact h.trans (h.partialEnd s) (h.goto _ _)
  · exact h.trans (h.waitDraw s) (h.goto _ _)
  · exact h.trans (h.waitDraw s) (h.goto _ _)

theorem frameTurn (s : State) : R s (Machine.frameTurn s) := by
  unfold Machine.frameTurn
  split
  · next b q hq =>
    split_ifs with whole
    · exact h.trans (h.frameEnd b q s hq) (h.goto _ _)
    · exact h.trans (h.frame b q s hq (Bool.eq_false_of_not_eq_true whole)) (h.goto _ _)
  · exact h.frameIdle s

theorem payloadTurn (s : State) : R s (Machine.payloadTurn s) := by
  unfold Machine.payloadTurn
  by_cases partly : s.wrCnt < payloadBytes
  · rw [if_pos partly]
    split
    · next b q hq => exact h.trans (h.payload b q s hq partly) (h.goto _ _)
    · split_ifs <;> exact h.goto _ _
  · rw [if_neg partly]
    exact h.goto _ _

theorem tickTurn (s : State) : R s (Machine.tickTurn s) := by
  unfold Machine.tickTurn
  split_ifs <;> exact h.goto _ _

theorem pollTurn (w : Site) (k : List Op) (s : State) : R s (Machine.pollTurn w k s) := by
  unfold Machine.pollTurn
  split_ifs
  · exact h.trans (h.poll s) (h.goto _ _)
  · exact h.trans (h.trans (h.poll s) (h.count _)) (h.goto _ _)
  · exact h.trans (h.poll s) (h.goto _ _)

theorem loopTop (s : State) : R s (Machine.loopTop s) := by
  unfold Machine.loopTop
  split_ifs
  · exact h.trans (h.enter .start .zero s) (h.goto _ _)
  · exact h.goto _ _

/-- One operation of the sequencer. -/
theorem opStep {o : Op} (k : List Op) (s : State) (ho : ∀ a, o = .act a → ok a = true) : R s (Machine.opStep o k s) := by
  cases o with
  | act a => exact h.trans (h.goto k s) (h.fire a _ (ho a rfl))
  | init =>
    simp only [Machine.opStep]
    split_ifs <;> exact h.trans (h.initDraw s) (h.goto _ _)
  | serialOpen =>
    simp only [Machine.opStep]
    split_ifs
    · exact h.trans (h.trans (h.initDraw s) (h.enterPhase .stop _)) (h.goto _ _)
    · exact h.trans (h.initDraw s) (h.goto _ _)
  | stop => exact h.goto _ s
  | transportUp =>
    simp only [Machine.opStep]
    split_ifs
    · exact h.trans (h.trans (h.up s) (h.enterPhase .run _)) (h.goto _ _)
    · exact h.trans (h.up s) (h.goto _ _)
  | start => exact h.goto _ s
  | loopTop => exact h.loopTop s
  | tick => exact h.tickTurn s
  | frameWait => exact h.frameTurn s
  | dispatch => exact h.trans (h.begin_ _ s) (h.goto _ _)
  | recvPayload => exact h.payloadTurn s
  | cfgTest =>
    simp only [Machine.opStep]
    split_ifs with filled
    · exact h.goto _ s
    · exact h.trans (h.goto k s) (h.cfg _ (Bool.eq_false_of_not_eq_true filled))
  | eraseTest =>
    simp only [Machine.opStep]
    split_ifs <;> exact h.goto _ s
  | wait w => exact h.trans (h.start s) (h.goto _ _)
  | poll w => exact h.pollTurn w k s

/-- One event of the engine. -/
theorem eventStep {s : State} (hs : ∀ a, .act a ∈ s.pc → ok a = true) : R s (Machine.eventStep s) := by
  unfold Machine.eventStep
  split_ifs
  · exact h.refl s
  · split
    · exact h.refl s
    · next o k pc => exact h.opStep k s fun a ha => hs a (by simp [pc, ha])

end Evolves

/-! ### What a straight-line step leaves alone, and the event it has -/

/-- The fields that no straight-line step writes are as they were. -/
structure ActFrame (s t : State) : Prop where
  params : t.params = s.params
  pc : t.pc = s.pc
  shutdownPending : t.shutdownPending = s.shutdownPending
  rxClosed : t.rxClosed = s.rxClosed
  rxQueue : t.rxQueue = s.rxQueue
  rxBuf : t.rxBuf = s.rxBuf
  rxCnt : t.rxCnt = s.rxCnt
  wrBuf : t.wrBuf = s.wrBuf
  curOp : t.curOp = s.curOp
  curLba : t.curLba = s.curLba
  script : t.script = s.script
  txCarry : t.txCarry = s.txCarry
  txTaken : t.txTaken = s.txTaken
  txRooms : t.txRooms = s.txRooms
  txSends : t.txSends = s.txSends
  initAnswers : t.initAnswers = s.initAnswers
  initDraws : t.initDraws = s.initDraws
  waitEnds : t.waitEnds = s.waitEnds
  waitDraws : t.waitDraws = s.waitDraws

theorem actFrame_fire (a : Act) (s : State) : ActFrame s (fire a s) := by
  cases a <;> simp only [fire]
  case errStatus => split <;> constructor <;> simp
  all_goals constructor <;> simp

/-- The straight-line steps that write what the engine may write: a register write by its value is one of RUN. -/
def actOk : Act → Bool
  | .write r v => writeInRun r v
  | _ => true

theorem actOk_of_actInRun (a : Act) (h : actInRun a = true) : actOk a = true := by
  cases a with
  | write r v => exact h
  | _ => rfl

theorem eventOk_write {r : Reg} {v : Word} (h : writeInRun r v = true) : eventOk (.regWrite (regAddr r) v) = true := by
  cases r <;> simp_all [writeInRun, eventOk]

/-- The erase-enable bit is set in what the erase writes to REG_CFG (40 R138 step 3). -/
theorem eraseEnable_set (v : Word) : eventOk (.regWrite 0x00#8 (v ||| eraseEnable)) = true := by
  have h : (v ||| 0x08#32) &&& 0x08#32 = 0x08#32 := by
    apply BitVec.eq_of_getLsbD_eq
    intro i _
    simp only [BitVec.getLsbD_and, BitVec.getLsbD_or]
    cases (0x08#32 : Word).getLsbD i <;> simp
  simp [eventOk, eraseEnable, h]

/-- What the event of a straight-line step may be: no byte taken; a listed transaction, if the step is one the engine may make; no
line event, if the step is one of RUN (10 R47 to R51, 70 R307). -/
structure ActEvent (a : Act) (e : Event) : Prop where
  listed : actOk a = true → eventOk e = true
  noLine : actInRun a = true → isLineEvent e = false
  noRecv : isRecv e = false

/-- A straight-line step has at most one event. -/
theorem fire_trace (a : Act) (s : State) :
    (fire a s).trace = s.trace ∨ ∃ e, (fire a s).trace = e :: s.trace ∧ ActEvent a e := by
  cases a with
  | clearPayload | armStream | advance | deactivate | halt => exact .inl (by simp only [fire])
  | write r v => exact .inr ⟨_, rfl, eventOk_write, fun _ => rfl, rfl⟩
  | enableWrite => exact .inr ⟨_, rfl, fun _ => eraseEnable_set s.tmp, fun _ => rfl, rfl⟩
  | errStatus =>
    simp only [fire]
    split
    · exact .inr ⟨_, rfl, fun _ => rfl, fun _ => rfl, rfl⟩
    · exact .inl rfl
  | pins changes => exact .inr ⟨_, setPins_trace _ _, fun _ => rfl, nofun, rfl⟩
  | settle | transportDown => exact .inr ⟨_, rfl, fun _ => rfl, nofun, rfl⟩
  | _ => exact .inr ⟨_, rfl, fun _ => rfl, fun _ => rfl, rfl⟩

/-! ### What no event changes, and what every event adds -/

/-- From `s` to `t` events are added to the history and none taken back; what only the host writes is as it was, and so are the
parameters. -/
structure Grows (s t : State) : Prop where
  params : t.params = s.params
  shutdownPending : t.shutdownPending = s.shutdownPending
  rxClosed : t.rxClosed = s.rxClosed
  script : t.script = s.script
  txCarry : t.txCarry = s.txCarry
  txTaken : t.txTaken = s.txTaken
  history : ∃ es, t.history = s.history ++ es

/-- An update that adds no event. -/
theorem Grows.of_silent {s t : State} (h : t.trace = s.trace) (h₁ : t.params = s.params := by simp)
    (h₂ : t.shutdownPending = s.shutdownPending := by simp) (h₃ : t.rxClosed = s.rxClosed := by simp)
    (h₄ : t.script = s.script := by simp) (h₅ : t.txCarry = s.txCarry := by simp) (h₆ : t.txTaken = s.txTaken := by simp) :
    Grows s t :=
  ⟨h₁, h₂, h₃, h₄, h₅, h₆, [], by simp [State.history, h]⟩

/-- An update that adds one event. -/
theorem Grows.of_event {s t : State} {e : Event} (h : t.trace = e :: s.trace) (h₁ : t.params = s.params := by simp)
    (h₂ : t.shutdownPending = s.shutdownPending := by simp) (h₃ : t.rxClosed = s.rxClosed := by simp)
    (h₄ : t.script = s.script := by simp) (h₅ : t.txCarry = s.txCarry := by simp) (h₆ : t.txTaken = s.txTaken := by simp) :
    Grows s t :=
  ⟨h₁, h₂, h₃, h₄, h₅, h₆, [e], history_cons h⟩

theorem grows_fire (a : Act) (s : State) : Grows s (fire a s) := by
  have f := actFrame_fire a s
  obtain h | ⟨e, h, -⟩ := fire_trace a s
  · exact .of_silent h f.params f.shutdownPending f.rxClosed f.script f.txCarry f.txTaken
  · exact .of_event h f.params f.shutdownPending f.rxClosed f.script f.txCarry f.txTaken

theorem evolves_grows : Evolves (fun _ => true) Grows where
  refl _ := .of_silent rfl
  trans h h' := by
    obtain ⟨es, he⟩ := h.history
    obtain ⟨fs, hf⟩ := h'.history
    exact ⟨h'.params.trans h.params, h'.shutdownPending.trans h.shutdownPending, h'.rxClosed.trans h.rxClosed,
      h'.script.trans h.script, h'.txCarry.trans h.txCarry, h'.txTaken.trans h.txTaken, es ++ fs,
      by rw [hf, he, List.append_assoc]⟩
  fire a s _ := grows_fire a s
  poll s := .of_event (pollStatus_trace s)
  count s := .of_silent (countDown_trace s)
  start s := .of_silent (startWait_trace s)
  goto k s := .of_silent (goto_trace k s)
  cfg s _ := grows_fire .cfgRead s
  begin_ i s := .of_silent (beginCommand_trace i s)
  payload b q s _ _ := .of_event (payloadByte_trace b q s)
  frame b q s _ _ := .of_event (frameByte_trace b q s)
  frameEnd b q s _ := .of_event ((handOver_trace _).trans (frameByte_trace b q s))
  partialEnd s := by
    unfold dropPartial
    split_ifs
    · exact .of_silent rfl
    · exact .of_event (logCause_trace _ s)
  waitDraw s := .of_silent (dropWait_trace s)
  initDraw s := .of_silent (dropInit_trace s)
  enter _ _ _ := .of_silent (by simp)
  up s := .of_event (afterTransportUp_trace s)

theorem grows_eventStep (s : State) : Grows s (eventStep s) :=
  evolves_grows.eventStep fun _ _ => rfl

/-- So many events keep what each of them keeps. -/
theorem events_induction {P : State → Prop} (h : ∀ s, P s → P (eventStep s)) (n : Nat) {s : State} (hs : P s) :
    P (events n s) := by
  induction n generalizing s with
  | zero => exact hs
  | succ n ih => exact ih (h s hs)

theorem grows_events (n : Nat) (s : State) : Grows s (events n s) :=
  events_induction (P := Grows s) (fun u hu => evolves_grows.trans hu (grows_eventStep u)) n (evolves_grows.refl s)

/-! ### A step, turn by turn -/

/-- A step that is no move of the host is so many events, from the state with its turn taken off the script. -/
theorem step_events_or_host {s t : State} (h : step s = .next t) :
    (∃ n rest, t = events n { s with script := rest } ∧ ∀ m, s.script.head? ≠ some (.host m))
      ∨ ∃ m rest, s.script = .host m :: rest ∧ t = applyMove m { s with script := rest } := by
  obtain ⟨-, -, ⟨hs, he⟩ | ⟨rest, hs, he⟩ | ⟨k, rest, hs, rfl⟩ | ⟨m, rest, hs, rfl⟩⟩ := step_cases h
  · obtain ⟨n, rfl⟩ := Reach.engine he
    exact .inl ⟨n, [], by rw [← hs], by simp [hs]⟩
  · obtain ⟨n, rfl⟩ := Reach.engine he
    exact .inl ⟨n, rest, rfl, by simp [hs]⟩
  · exact .inl ⟨k, rest, rfl, by simp [hs]⟩
  · exact .inr ⟨m, rest, hs, rfl⟩

/-- A property that neither an event nor a move of the host ends holds after a step. -/
theorem step_induction {P : State → Prop} {s t : State} (h : step s = .next t)
    (script : ∀ rest, P s → P { s with script := rest }) (event : ∀ u, P u → P (eventStep u))
    (move : ∀ m rest, s.script = .host m :: rest → P { s with script := rest } → P (applyMove m { s with script := rest }))
    (hs : P s) : P t := by
  obtain ⟨n, rest, rfl, -⟩ | ⟨m, rest, hm, rfl⟩ := step_events_or_host h
  · exact events_induction event n (script rest hs)
  · exact move m rest hm (script rest hs)

end Sys2Proof.Machine
end

section
/-! PROOF. The legal states: what every step keeps (the promises of 10_state.md about the whole machine). -/

namespace Sys2Proof.Machine

open Sys2Proof Sys2Proof.Safety

/-! ### The transactions an event makes (10 R47 to R51) -/

/-- From `s` to `t` events are added, each one that the engine may make. -/
def Listed (s t : State) : Prop :=
  ∃ es, t.history = s.history ++ es ∧ ∀ e ∈ es, eventOk e = true

theorem Listed.of_silent {s t : State} (h : t.trace = s.trace) : Listed s t :=
  ⟨[], by simp [State.history, h], nofun⟩

theorem Listed.of_event {s t : State} {e : Event} (h : t.trace = e :: s.trace) (he : eventOk e = true) : Listed s t :=
  ⟨[e], history_cons h, by simpa using he⟩

theorem listed_fire {a : Act} (ha : actOk a = true) (s : State) : Listed s (fire a s) := by
  obtain h | ⟨e, h, event⟩ := fire_trace a s
  · exact .of_silent h
  · exact .of_event h (event.listed ha)

theorem evolves_listed : Evolves actOk Listed where
  refl _ := .of_silent rfl
  trans := by
    rintro s t u ⟨es, he, hes⟩ ⟨fs, hf, hfs⟩
    exact ⟨es ++ fs, by rw [hf, he, List.append_assoc], List.forall_mem_append.2 ⟨hes, hfs⟩⟩
  fire _ s ha := listed_fire ha s
  poll s := .of_event (pollStatus_trace s) rfl
  count s := .of_silent (countDown_trace s)
  start s := .of_silent (startWait_trace s)
  goto k s := .of_silent (goto_trace k s)
  cfg s _ := listed_fire (a := .cfgRead) rfl s
  begin_ i s := .of_silent (beginCommand_trace i s)
  payload b q s _ _ := .of_event (payloadByte_trace b q s) rfl
  frame b q s _ _ := .of_event (frameByte_trace b q s) rfl
  frameEnd b q s _ := .of_event ((handOver_trace _).trans (frameByte_trace b q s)) rfl
  partialEnd s := by
    unfold dropPartial
    split_ifs
    · exact .of_silent rfl
    · exact .of_event (logCause_trace _ s) rfl
  waitDraw s := .of_silent (dropWait_trace s)
  initDraw s := .of_silent (dropInit_trace s)
  enter _ _ _ := .of_silent (by simp)
  up s := .of_event (afterTransportUp_trace s) rfl

/-- Settles O35: every straight-line step of a command adds at most one event, and that a listed one. -/
theorem commandsMakeOnlyListedTransactions : Obligations.CommandsMakeOnlyListedTransactions := fun _ _ _ h =>
  (evolves_listed.toKeeps actOk_of_actInRun).exec h

/-! ### The counts, the medium and the window -/

/-- The medium is NAND, the two counts are in their ranges and the window is in canonical form. -/
structure Ranged (s : State) : Prop where
  medium : s.stMedium = .nand
  rxCnt : s.rxCnt ≤ 4
  wrCnt : s.wrCnt ≤ 528
  window : windowWf s.lastWrite = true

theorem Ranged.of_eq {s t : State} (h : Ranged s) (h₁ : t.stMedium = s.stMedium := by simp)
    (h₂ : t.rxCnt = s.rxCnt := by simp) (h₃ : t.wrCnt = s.wrCnt := by simp)
    (h₄ : t.lastWrite = s.lastWrite := by simp) : Ranged t :=
  ⟨h₁.trans h.medium, h₂ ▸ h.rxCnt, h₃ ▸ h.wrCnt, h₄ ▸ h.window⟩

theorem fire_medium (a : Act) {s : State} (h : s.stMedium = .nand) : (fire a s).stMedium = .nand := by
  cases a <;> simp only [fire]
  case errStatus => split <;> simp [h]
  all_goals simp [h]

theorem fire_wrCnt (a : Act) (s : State) : (fire a s).wrCnt ≤ s.wrCnt := by
  cases a <;> simp only [fire]
  case errStatus => split <;> simp
  all_goals simp

theorem fire_windowWf (a : Act) {s : State} (h : windowWf s.lastWrite = true) : windowWf (fire a s).lastWrite = true := by
  cases ha : actReg a with
  | none => rwa [fire_lastWrite_none ha]
  | some r =>
    obtain ⟨v, hv⟩ := fire_lastWrite_some ha s
    exact hv ▸ windowWrite_wf h _ v

theorem ranged_fire (a : Act) {s : State} (h : Ranged s) : Ranged (fire a s) :=
  ⟨fire_medium a h.medium, (actFrame_fire a s).rxCnt ▸ h.rxCnt, (fire_wrCnt a s).trans h.wrCnt, fire_windowWf a h.window⟩

theorem evolves_ranged : Evolves (fun _ => true) fun s t => Ranged s → Ranged t where
  refl _ h := h
  trans h h' hs := h' (h hs)
  fire a _ _ := ranged_fire a
  poll _ h := h.of_eq
  count _ h := h.of_eq
  start _ h := h.of_eq
  goto _ _ h := h.of_eq
  cfg _ _ := ranged_fire .cfgRead
  begin_ _ _ h := h.of_eq
  payload _ _ _ _ hlt h := ⟨h.medium, h.rxCnt, hlt, h.window⟩
  frame b q s _ part h := by
    have notFive : s.rxCnt + 1 ≠ 5 := by simpa [frameComplete] using part
    have := h.rxCnt
    exact ⟨h.medium, by simp only [frameByte_rxCnt]; omega, h.wrCnt, h.window⟩
  frameEnd _ _ _ _ h := ⟨h.medium, Nat.zero_le _, h.wrCnt, h.window⟩
  partialEnd s h := by
    unfold dropPartial
    split_ifs
    · exact h
    · exact ⟨h.medium, Nat.zero_le _, h.wrCnt, h.window⟩
  waitDraw _ h := h.of_eq
  initDraw _ h := h.of_eq
  enter _ _ _ h := h.of_eq
  up _ h := h.of_eq

/-! ### The legal states, cut in two: what stands in the pc and the phase, and the rest -/

/-- The part of a legal state that speaks of the phase: where the pc stands, the transport, the exit code and the lines. -/
structure Placed (s : State) : Prop where
  flow : flow s.phase s.pc = true
  transport : transportOk s = true
  exit : exitOk s = true
  lines : linesOk s = true

theorem placed_of_inv {s : State} (h : Inv s) : Placed s := ⟨h.flow, h.transport, h.exit, h.lines⟩

theorem ranged_of_inv {s : State} (h : Inv s) : Ranged s := ⟨h.medium, h.rxCnt, h.wrCnt, h.window⟩

/-- Events that the engine may make keep a state legal, where the phase stays with the pc. -/
theorem inv_of_events {s t : State} (h : Inv s) (grows : Grows s t) (listed : Listed s t) (ranged : Ranged t)
    (placed : Placed t) : Inv t where
  ops := grows.params ▸ h.ops
  medium := ranged.medium
  rxCnt := ranged.rxCnt
  wrCnt := ranged.wrCnt
  window := ranged.window
  flow := placed.flow
  transport := placed.transport
  exit := placed.exit
  lines := placed.lines
  taken := by
    obtain ⟨es, he⟩ := grows.history
    rw [grows.txTaken, sent_append he grows.txCarry, List.length_append]
    exact h.taken.trans (Nat.le_add_right _ _)
  trace e he := by
    obtain ⟨es, hist, ok⟩ := listed
    have mem : e ∈ s.history ++ es := hist ▸ List.mem_reverse.2 he
    exact (List.mem_append.1 mem).elim (fun old => h.trace e (List.mem_reverse.1 old)) (ok e)

end Sys2Proof.Machine
end

section
/-! PROOF. The phase and the pc of a legal state, event by event (10 R31 to R36). -/

namespace Sys2Proof.Machine

open Sys2Proof Sys2Proof.Safety

/-! ### Continuations of RUN -/

theorem runFlow_cons {o : Op} {k : List Op} (ho : opInRun o = true) (hk : runFlow k = true) : runFlow (o :: k) = true := by
  cases k with
  | nil => cases hk
  | cons o' k => simpa [runFlow, ho] using hk

theorem runFlow_acts {as : List Act} {k : List Op} (ha : ∀ a ∈ as, actInRun a = true) (hk : runFlow k = true) :
    runFlow (acts as ++ k) = true := by
  induction as with
  | nil => exact hk
  | cons a as ih =>
    exact runFlow_cons (o := .act a) (ha a List.mem_cons_self) (ih fun b hb => ha b (List.mem_cons_of_mem _ hb))

theorem runFlow_head {o : Op} {k : List Op} (h : runFlow (o :: k) = true) : opInRun o = true :=
  (Bool.and_eq_true_iff.1 h).1

/-- After an operation that may not stand last, more of RUN is left. -/
theorem runFlow_tail {o : Op} {k : List Op} (h : runFlow (o :: k) = true) (ho : endsRun o = false) : runFlow k = true := by
  obtain ⟨-, ht⟩ := Bool.and_eq_true_iff.1 h
  cases k with
  | nil => simp [ho] at ht
  | cons o' k => exact ht

theorem runFlow_errorResume (w : Site) : runFlow [errorResume w] = true := by
  cases w <;> rfl

theorem runFlow_failOps (w : Site) : runFlow (failOps w) = true := by
  refine runFlow_acts ?_ (runFlow_errorResume w)
  cases w <;> simp [errorEntry, errorReturn, actInRun]

theorem runFlow_readOps (w : Site) (lba : Word) {onOk : List Act} {resume : Op} (ha : ∀ a ∈ onOk, actInRun a = true)
    (hr : runFlow [resume] = true) : runFlow (readOps w lba onOk resume) = true := by
  have drain : runFlow (acts (readDrain ++ onOk) ++ [resume]) = true :=
    runFlow_acts (List.forall_mem_append.2 ⟨Keeps.readDrain_run, ha⟩) hr
  simp only [readOps, List.append_assoc]
  exact runFlow_acts (Keeps.readSetup_run lba) (runFlow_cons (o := .wait w) rfl drain)

theorem runFlow_programOps (lba : Word) : runFlow (programOps lba) = true := by
  have reply : runFlow (acts writeReply ++ [.loopTop]) = true := runFlow_acts (by simp [writeReply, actInRun]) rfl
  have commit := runFlow_acts Keeps.writeCommit_run (runFlow_cons (o := .wait .commit) rfl reply)
  have addr := runFlow_acts (Keeps.writeAddr_run lba) (runFlow_cons (o := .wait .addr) rfl commit)
  simp only [programOps, List.append_assoc]
  exact runFlow_acts Keeps.writeFill_run (runFlow_cons (o := .wait .fill) rfl addr)

theorem runFlow_eraseOps (lba : Word) {k : List Op} (hk : runFlow k = true) : runFlow (eraseOps lba ++ k) = true := by
  simp only [eraseOps, List.append_assoc]
  exact runFlow_acts (Keeps.eraseSetup_run lba) (runFlow_cons (o := .wait .erase) rfl hk)

theorem runFlow_commandOps (i : Instr) : runFlow (commandOps i) = true := by
  cases i with
  | readFlash lba => exact runFlow_readOps .read lba (by simp [readReply, actInRun]) rfl
  | _ => rfl

/-! ### An event of RUN -/

/-- The phase, the transport, the exit code and the lines are as they were. -/
structure Stays (s t : State) : Prop where
  phase : t.phase = s.phase
  transportUp : t.transportUp = s.transportUp
  exitCode : t.exitCode = s.exitCode
  lines : linesOf t = linesOf s

theorem Stays.trans {s t u : State} (h : Stays s t) (h' : Stays t u) : Stays s u :=
  ⟨h'.phase.trans h.phase, h'.transportUp.trans h.transportUp, h'.exitCode.trans h.exitCode, h'.lines.trans h.lines⟩

theorem Stays.goto {s t : State} (h : Stays s t) (k : List Op) : Stays s (goto k t) :=
  ⟨h.phase, h.transportUp, h.exitCode, h.lines⟩

theorem stays_goto (k : List Op) (s : State) : Stays s (goto k s) := by
  constructor <;> simp [linesOf]

theorem stays_poll (s : State) : Stays s (pollStatus s) := by
  constructor <;> simp [linesOf]

theorem stays_count (s : State) : Stays s (countDown s) := by
  constructor <;> simp [linesOf]

theorem stays_start (s : State) : Stays s (startWait s) := by
  constructor <;> simp [linesOf]

theorem stays_cfgRead (s : State) : Stays s (fire .cfgRead s) := by
  constructor <;> simp [fire, linesOf]

theorem stays_begin (i : Instr) (s : State) : Stays s (beginCommand i s) := by
  constructor <;> simp [linesOf]

theorem stays_payloadByte (b : Byte) (q : List Byte) (s : State) : Stays s (payloadByte b q s) := by
  constructor <;> simp [linesOf]

theorem stays_frameByte (b : Byte) (q : List Byte) (s : State) : Stays s (frameByte b q s) := by
  constructor <;> simp [linesOf]

theorem stays_handOver (s : State) : Stays s (handOver s) := by
  constructor <;> simp [linesOf]

theorem stays_fire {a : Act} (ha : actInRun a = true) (s : State) : Stays s (fire a s) := by
  cases a <;> simp only [actInRun, Bool.false_eq_true] at ha <;> simp only [fire]
  case errStatus => split <;> constructor <;> simp [linesOf]
  all_goals constructor <;> simp [linesOf]

theorem frameIdle_stays (s : State) : Stays s (frameIdle s) := by
  unfold frameIdle dropPartial
  split_ifs <;> exact ⟨rfl, rfl, rfl, rfl⟩

theorem runFlow_frameIdle (s : State) : runFlow (frameIdle s).pc = true := by
  unfold frameIdle
  split_ifs <;> rfl

/-- Going on at a continuation of RUN. -/
theorem goto_run {k : List Op} (h : runFlow k = true) (s : State) : runFlow (goto k s).pc = true ∧ Stays s (goto k s) :=
  ⟨h, stays_goto k s⟩

/-- In RUN every operation but the loop top leaves the engine in RUN (41 R180). -/
theorem opStep_run {o : Op} {k : List Op} (h : runFlow (o :: k) = true) (top : o ≠ .loopTop) (s : State) :
    runFlow (opStep o k s).pc = true ∧ Stays s (opStep o k s) := by
  have inRun := runFlow_head h
  cases o with
  | act a =>
    have pc : (opStep (.act a) k s).pc = k := (actFrame_fire a (goto k s)).pc
    exact ⟨by rw [pc]; exact runFlow_tail h rfl, (stays_goto k s).trans (stays_fire inRun (goto k s))⟩
  | init | serialOpen | stop | transportUp | start => cases inRun
  | loopTop => exact absurd rfl top
  | tick =>
    simp only [opStep, tickTurn]
    split_ifs
    · exact goto_run rfl s
    · exact goto_run (runFlow_readOps .tick s.stCur (by simp [tickReply, actInRun]) rfl) s
    · exact goto_run rfl s
  | frameWait =>
    simp only [opStep, frameTurn]
    split
    · split_ifs
      · exact ⟨rfl, ((stays_frameByte _ _ s).trans (stays_handOver _)).goto _⟩
      · exact ⟨rfl, (stays_frameByte _ _ s).goto _⟩
    · exact ⟨runFlow_frameIdle s, frameIdle_stays s⟩
  | dispatch => exact ⟨runFlow_commandOps _, (stays_begin _ s).goto _⟩
  | recvPayload =>
    simp only [opStep, payloadTurn]
    split
    · split
      · exact ⟨rfl, (stays_payloadByte _ _ s).goto _⟩
      · split_ifs <;> exact goto_run rfl s
    · exact goto_run rfl s
  | cfgTest =>
    simp only [opStep]
    split_ifs
    · exact goto_run (runFlow_tail h rfl) s
    · exact ⟨runFlow_tail h rfl, (stays_goto k s).trans (stays_cfgRead _)⟩
  | eraseTest =>
    simp only [opStep]
    have program := runFlow_programOps s.curLba
    split_ifs
    · exact goto_run (runFlow_eraseOps s.curLba program) s
    · exact goto_run program s
  | wait w => exact ⟨runFlow_cons (o := .poll w) rfl (runFlow_tail h rfl), (stays_start s).goto _⟩
  | poll w =>
    have more := runFlow_tail h rfl
    simp only [opStep, pollTurn]
    split_ifs
    · exact ⟨runFlow_failOps w, (stays_poll s).goto _⟩
    · exact ⟨runFlow_cons (o := .poll w) rfl more, ((stays_poll s).trans (stays_count _)).goto _⟩
    · exact ⟨more, (stays_poll s).goto _⟩

/-- An event of RUN, but for the loop top's, leaves the phase with the pc. -/
theorem placed_run {o : Op} {k : List Op} {s : State} (h : Placed s) (run : s.phase = .run) (pc : s.pc = o :: k)
    (top : o ≠ .loopTop) : Placed (opStep o k s) := by
  have hf : runFlow (o :: k) = true := by simpa [flow, run, pc] using h.flow
  obtain ⟨flow', stays⟩ := opStep_run hf top s
  have run' := stays.phase.trans run
  have lines := h.lines
  have exit := h.exit
  have transport := h.transport
  simp only [linesOk, exitOk, transportOk, run] at lines exit transport
  refine ⟨?_, ?_, ?_, ?_⟩
  · simpa only [flow, run'] using flow'
  · simpa only [transportOk, run', stays.transportUp] using transport
  · simpa only [exitOk, run', stays.exitCode] using exit
  · simpa only [linesOk, run', stays.lines] using lines

/-- The loop top takes a pending shutdown to START, and goes on to the tick otherwise (41 R180, R181). -/
theorem placed_loopTop {s : State} (h : Placed s) (run : s.phase = .run) : Placed (loopTop s) := by
  have lines := h.lines
  have exit := h.exit
  have transport := h.transport
  simp only [linesOk, exitOk, transportOk, run] at lines exit transport
  unfold loopTop
  split_ifs
  · exact ⟨rfl, by simp [transportOk], rfl, lines⟩
  · refine ⟨?_, ?_, ?_, ?_⟩
    · simp only [flow, goto_phase, goto_pc, run]
      rfl
    · simpa only [transportOk, goto_phase, goto_transportUp, run] using transport
    · simpa only [exitOk, goto_phase, goto_exitCode, run] using exit
    · simp only [linesOk, goto_phase, run]
      exact lines

end Sys2Proof.Machine
end

section
/-! PROOF. The power sequences event by event, and with them: every step from a legal state leads to a legal state. -/

namespace Sys2Proof.Machine

open Sys2Proof Sys2Proof.Safety

/-! ### Inside a sequence of straight-line steps -/

/-- A place inside such a sequence is at one of its steps, with more to come, or at what comes last. -/
theorem suffix_acts {as : List Act} {last o : Op} {k : List Op} (h : o :: k <:+ acts as ++ [last]) :
    (∃ a ∈ as, o = .act a ∧ k ≠ [] ∧ k <:+ acts as ++ [last]) ∨ (o = last ∧ k = []) := by
  induction as with
  | nil =>
    obtain h | h := List.suffix_cons_iff.1 h
    · exact .inr (List.cons.inj h)
    · exact absurd h (by simp)
  | cons a as ih =>
    obtain h | h := List.suffix_cons_iff.1 h
    · obtain ⟨rfl, rfl⟩ := List.cons.inj h
      exact .inl ⟨a, List.mem_cons_self, rfl, by simp, List.suffix_cons _ _⟩
    · exact (ih h).imp_left fun ⟨b, hb, ho, hk, hs⟩ =>
        ⟨b, List.mem_cons_of_mem _ hb, ho, hk, hs.trans (List.suffix_cons _ _)⟩

theorem linesOf_setLines (changes : List (Line × PinLevel)) (s : State) :
    linesOf (changes.foldl setLine s) = changes.foldl changeLine (linesOf s) := by
  induction changes generalizing s with
  | nil => rfl
  | cons c changes ih =>
    obtain ⟨l, v⟩ := c
    cases l <;> exact ih _

/-- A straight-line step makes the line changes that its place in the continuation says (43 R243). -/
theorem endLines_fire (a : Act) (k : List Op) (s : State) :
    endLines k (linesOf (fire a (goto k s))) = endLines (.act a :: k) (linesOf s) := by
  cases a with
  | pins changes => exact congrArg (endLines k) (linesOf_setLines changes (goto k s))
  | errStatus =>
    simp only [fire]
    split <;> rfl
  | _ => rfl

/-- The steps of the power sequences that drive lines or wait (43 R242, R243). -/
def isLineAct : Act → Bool
  | .pins _ => true
  | .settle => true
  | _ => false

/-- A line change or a settle leaves the phase, the transport and the exit code. -/
theorem fire_lineAct {a : Act} (ha : isLineAct a = true) (s : State) :
    (fire a s).phase = s.phase ∧ (fire a s).pc = s.pc ∧ (fire a s).transportUp = s.transportUp
      ∧ (fire a s).exitCode = s.exitCode := by
  cases a with
  | pins changes => exact ⟨setPins_phase _ _, setPins_pc _ _, setPins_transportUp _ _, setPins_exitCode _ _⟩
  | settle => exact ⟨rfl, rfl, rfl, rfl⟩
  | _ => cases ha

/-! ### Phase INIT (70 R291) -/

theorem placed_init {o : Op} {k : List Op} {s : State} (h : Placed s) (phase : s.phase = .init) (pc : s.pc = o :: k) :
    Placed (opStep o k s) := by
  obtain ⟨flow', transport, exit, lines⟩ := h
  simp only [flow, transportOk, exitOk, linesOk, linesOf, phase, pc, List.contains_eq_mem, List.mem_cons, List.not_mem_nil,
    or_false, List.cons.injEq, decide_eq_true_eq, Bool.not_eq_true', beq_iff_eq] at flow' transport exit lines
  obtain ⟨rfl, rfl⟩ | ⟨rfl, rfl⟩ | ⟨rfl, rfl⟩ | ⟨rfl, rfl⟩ := flow'
  · simp only [opStep]
    split_ifs <;> constructor <;> simp [flow, transportOk, exitOk, linesOk, linesOf, phase, transport, exit, lines, acts]
  · simp only [opStep]
    split_ifs <;> constructor <;>
      simp [flow, transportOk, exitOk, linesOk, linesOf, endLines, phase, transport, exit, lines, acts]
  · constructor <;> simp [opStep, fire, flow, transportOk, exitOk, linesOk, linesOf, transport, lines]
  · constructor <;> simp [opStep, fire, flow, transportOk, exitOk, linesOk, linesOf, transport, lines]

/-! ### Phase STOP (43 R240, 70 R292) -/

/-- Every line that STOP drives ends Released (43 R240). -/
theorem endLines_stopSequence (l : Lines) : endLines (acts stopSequence ++ [.transportUp]) l = Lines.idle := rfl

theorem stopSequence_lines : ∀ a ∈ stopSequence, isLineAct a = true := by decide

theorem placed_stop_iff {s : State} (phase : s.phase = .stop) :
    Placed s ↔ flow .stop s.pc = true ∧ s.transportUp = false ∧ s.exitCode = .none
      ∧ endLines s.pc (linesOf s) = Lines.idle := by
  constructor
  · intro ⟨flow', transport, exit, lines⟩
    simp only [transportOk, exitOk, linesOk, phase, Bool.not_eq_true', beq_iff_eq] at flow' transport exit lines
    exact ⟨flow', transport, exit, lines⟩
  · intro ⟨flow', transport, exit, lines⟩
    constructor <;> simp [transportOk, exitOk, linesOk, phase, flow', transport, exit, lines]

theorem placed_stop {o : Op} {k : List Op} {s : State} (h : Placed s) (phase : s.phase = .stop) (pc : s.pc = o :: k) :
    Placed (opStep o k s) := by
  obtain ⟨place, down, noExit, lines⟩ := (placed_stop_iff phase).1 h
  simp only [flow, pc, Bool.or_eq_true, Bool.and_eq_true, beq_iff_eq, List.cons.injEq, List.isSuffixOf_iff_suffix] at place
  rw [pc] at lines
  obtain (⟨rfl, rfl⟩ | ⟨rfl, rfl⟩) | ⟨-, place⟩ := place
  · have inside : flow .stop (acts stopSequence ++ [.transportUp]) = true := by decide
    exact (placed_stop_iff (s := goto (acts stopSequence ++ [Op.transportUp]) s) phase).2 ⟨inside, down, noExit, endLines_stopSequence _⟩
  · have lines : linesOf s = Lines.idle := lines
    constructor <;> simp [opStep, fire, flow, transportOk, exitOk, linesOk, down]
    exact lines
  · obtain ⟨a, ha, rfl, more, place⟩ | ⟨rfl, rfl⟩ := suffix_acts place
    · obtain ⟨phase', pc', up', exit'⟩ := fire_lineAct (stopSequence_lines a ha) (goto k s)
      refine (placed_stop_iff (s := fire a (goto k s)) (phase'.trans phase)).2
        ⟨?_, up'.trans down, exit'.trans noExit, ?_⟩
      · simp [pc', flow, more, place]
      · rw [← lines, ← endLines_fire a k s, pc']
        rfl
    · have lines : linesOf s = Lines.idle := lines
      simp only [opStep]
      split_ifs with up
      · constructor <;> simp [flow, transportOk, exitOk, linesOk, noExit, up]
        · rfl
        · exact lines
      · refine (placed_stop_iff (s := goto _ (afterTransportUp s)) phase).2 ⟨rfl, ?_, noExit, lines⟩
        simp [down, up]

/-! ### Phase START (43 R241, 70 R294) -/

theorem placed_start_iff {s : State} (phase : s.phase = .start) :
    Placed s ↔ flow .start s.pc = true ∧ (s.transportUp = false ∨ s.pc = [.start] ∨ s.pc = acts startSequence)
      ∧ s.exitCode ≠ .none
      ∧ if s.pc = [.start] then linesOf s = Lines.idle else endLines s.pc (linesOf s) = Lines.final := by
  have lines : linesOk s = true ↔
      if s.pc = [.start] then linesOf s = Lines.idle else endLines s.pc (linesOf s) = Lines.final := by
    by_cases h : s.pc = [.start] <;> simp [linesOk, phase, h]
  have transport : transportOk s = true ↔ s.transportUp = false ∨ s.pc = [.start] ∨ s.pc = acts startSequence := by
    simp [transportOk, phase, or_assoc]
  have exit : exitOk s = true ↔ s.exitCode ≠ .none := by simp [exitOk, phase]
  rw [← lines, ← transport, ← exit, ← phase]
  exact ⟨fun h => ⟨h.flow, h.transport, h.exit, h.lines⟩, fun ⟨h₁, h₂, h₃, h₄⟩ => ⟨h₁, h₂, h₃, h₄⟩⟩

/-- START is straight-line steps, the last of which halts the engine (70 R294). -/
theorem startSequence_eq : acts startSequence = acts startSequence.dropLast ++ [.act .halt] := rfl

theorem startSequence_steps : ∀ a ∈ startSequence.dropLast, a = .transportDown ∨ isLineAct a = true := by decide

theorem placed_start {o : Op} {k : List Op} {s : State} (h : Placed s) (phase : s.phase = .start) (pc : s.pc = o :: k) :
    Placed (opStep o k s) := by
  obtain ⟨place, down, exit, lines⟩ := (placed_start_iff phase).1 h
  simp only [flow, pc, Bool.or_eq_true, Bool.and_eq_true, beq_iff_eq, List.cons.injEq, List.isSuffixOf_iff_suffix] at place
  rw [pc] at lines down
  obtain ⟨rfl, rfl⟩ | ⟨-, place⟩ := place
  · have inside : flow .start (acts startSequence) = true := by decide
    have entry : linesOf s = Lines.idle := by simpa using lines
    refine (placed_start_iff (s := goto (acts startSequence) s) phase).2 ⟨inside, .inr (.inr rfl), exit, ?_⟩
    rw [if_neg (by simp [acts, startSequence])]
    exact entry ▸ rfl
  · have notEntry : o :: k ≠ [.start] := by
      rintro h
      rw [h] at place
      exact absurd (List.isSuffixOf_iff_suffix.2 place) (by decide)
    rw [if_neg notEntry] at lines
    rw [startSequence_eq] at place
    obtain ⟨a, ha, rfl, more, place⟩ | ⟨rfl, rfl⟩ := suffix_acts place
    · have inside : flow .start k = true := by simp [flow, startSequence_eq, more, place]
      have notStart : k ≠ [.start] := by
        rintro rfl
        exact absurd (List.isSuffixOf_iff_suffix.2 place) (by decide)
      have last : endLines k (linesOf (fire a (goto k s))) = Lines.final := (endLines_fire a k s).trans lines
      suffices moved : (fire a (goto k s)).phase = s.phase ∧ (fire a (goto k s)).pc = k
          ∧ (fire a (goto k s)).transportUp = false ∧ (fire a (goto k s)).exitCode = s.exitCode by
        obtain ⟨phase', pc', down', exit'⟩ := moved
        refine (placed_start_iff (s := fire a (goto k s)) (phase'.trans phase)).2
          ⟨by rw [pc']; exact inside, .inl down', by rw [exit']; exact exit, ?_⟩
        rw [pc', if_neg notStart]
        exact last
      obtain rfl | lineAct := startSequence_steps a ha
      · exact ⟨rfl, rfl, rfl, rfl⟩
      · obtain ⟨phase', pc', up', exit'⟩ := fire_lineAct lineAct (goto k s)
        have notDown : a ≠ .transportDown := by rintro rfl; cases lineAct
        have down : s.transportUp = false := by simpa [acts, startSequence, notDown] using down
        exact ⟨phase', pc', up'.trans down, exit'⟩
    · have lines : linesOf s = Lines.final := lines
      have down : s.transportUp = false := by simpa [acts, startSequence] using down
      constructor <;> simp [opStep, fire, flow, transportOk, exitOk, linesOk, down, exit]
      exact .inl lines

/-! ### Every event, every move, every step -/

/-- The straight-line steps of the power sequences and of start-up. -/
def actOfPower : Act → Bool
  | .pins _ => true
  | .settle => true
  | .transportDown => true
  | .halt => true
  | .fatalHw => true
  | .fatalTransport => true
  | _ => false

/-- The operations of the power sequences and of start-up. -/
def opOfPower : Op → Bool
  | .act a => actOfPower a
  | .init => true
  | .serialOpen => true
  | .stop => true
  | .transportUp => true
  | .start => true
  | _ => false

theorem opInRun_of_mem {k : List Op} (h : runFlow k = true) {o : Op} (ho : o ∈ k) : opInRun o = true := by
  induction k with
  | nil => cases ho
  | cons o' k ih =>
    obtain rfl | ho := List.mem_cons.1 ho
    · exact runFlow_head h
    · obtain ⟨-, rest⟩ := Bool.and_eq_true_iff.1 h
      rw [if_neg (by simpa using List.ne_nil_of_mem ho)] at rest
      exact ih rest ho

/-- What can wait in the pc: in RUN its own operations, and outside it those of the power sequences and of start-up. -/
theorem op_of_mem_pc {s : State} (h : Placed s) {o : Op} (ho : o ∈ s.pc) :
    (s.phase = .run ∧ opInRun o = true) ∨ (s.phase ≠ .run ∧ opOfPower o = true) := by
  have place := h.flow
  cases phase : s.phase with
  | run =>
    rw [phase] at place
    exact .inl ⟨rfl, opInRun_of_mem place ho⟩
  | init =>
    have power : ∀ k ∈ [[.init], [.serialOpen], [.act .fatalHw], [.act .fatalTransport, .start]], ∀ o ∈ k,
        opOfPower o = true := by decide
    simp only [flow, phase, List.contains_eq_mem, decide_eq_true_eq] at place
    exact .inr ⟨nofun, power _ place o ho⟩
  | stop =>
    have entries : ∀ k ∈ [[.stop], [.act .fatalTransport, .start]], ∀ o ∈ k, opOfPower o = true := by decide
    have sequence : ∀ o ∈ acts stopSequence ++ [.transportUp], opOfPower o = true := by decide
    simp only [flow, phase, Bool.or_eq_true, Bool.and_eq_true, beq_iff_eq, List.isSuffixOf_iff_suffix] at place
    obtain entry | ⟨-, inside⟩ := place
    · exact .inr ⟨nofun, entries s.pc (by simpa using entry) o ho⟩
    · exact .inr ⟨nofun, sequence o (inside.subset ho)⟩
  | start =>
    have sequence : ∀ o ∈ acts startSequence, opOfPower o = true := by decide
    simp only [flow, phase, Bool.or_eq_true, Bool.and_eq_true, beq_iff_eq, List.isSuffixOf_iff_suffix] at place
    obtain entry | ⟨-, inside⟩ := place
    · obtain rfl : o = .start := by simpa [entry] using ho
      exact .inr ⟨nofun, rfl⟩
    · exact .inr ⟨nofun, sequence o (inside.subset ho)⟩
  | halted =>
    have empty : s.pc = [] := by simpa [flow, phase] using place
    simp [empty] at ho

/-- The straight-line steps that wait in the pc are ones the engine may make. -/
theorem pc_actOk {s : State} (h : Placed s) {a : Act} (ha : .act a ∈ s.pc) : actOk a = true := by
  obtain ⟨-, run⟩ | ⟨-, power⟩ := op_of_mem_pc h ha
  · exact actOk_of_actInRun a run
  · cases a with
    | write r v => cases power
    | _ => rfl

theorem placed_eventStep {s : State} (h : Placed s) : Placed (eventStep s) := by
  by_cases held : s.held = true
  · rwa [eventStep_held held]
  · cases pc : s.pc with
    | nil => rwa [eventStep, pc, if_neg held]
    | cons o k =>
      rw [eventStep_free (Bool.eq_false_of_not_eq_true held) pc]
      cases phase : s.phase with
      | init => exact placed_init h phase pc
      | stop => exact placed_stop h phase pc
      | start => exact placed_start h phase pc
      | halted =>
        have := h.flow
        simp [flow, phase, pc] at this
      | run =>
        by_cases top : o = .loopTop
        · subst top
          exact placed_loopTop h phase
        · exact placed_run h phase pc top

/-- An event keeps a state legal. -/
theorem inv_eventStep {s : State} (h : Inv s) : Inv (eventStep s) :=
  inv_of_events h (grows_eventStep s) (evolves_listed.eventStep fun _ => pc_actOk (placed_of_inv h))
    (evolves_ranged.eventStep (fun _ _ => rfl) (ranged_of_inv h)) (placed_eventStep (placed_of_inv h))

/-- The script is no part of what makes a state legal. -/
theorem inv_script {s : State} (rest : List Turn) (h : Inv s) : Inv { s with script := rest } := by
  obtain ⟨h₁, h₂, h₃, h₄, h₅, h₆, h₇, h₈, h₉, h₁₀, h₁₁⟩ := h
  exact ⟨h₁, h₂, h₃, h₄, h₅, h₆, h₇, h₈, h₉, h₁₀, h₁₁⟩

/-- A reset leads to a legal state from any whose parameters and window are (70 R290). -/
theorem inv_resetEngine {s : State} (h : Inv s) : Inv (resetEngine s) :=
  ⟨h.ops, rfl, Nat.zero_le _, Nat.zero_le _, h.window, rfl, rfl, rfl, rfl, Nat.zero_le _, nofun⟩

/-- A move of the host keeps a state legal (70 R308). -/
theorem inv_applyMove (m : HostMove) {s : State} (h : Inv s) : Inv (applyMove m s) := by
  cases m with
  | reset => exact inv_resetEngine h
  | take n =>
    obtain ⟨h₁, h₂, h₃, h₄, h₅, h₆, h₇, h₈, h₉, -, h₁₁⟩ := h
    exact ⟨h₁, h₂, h₃, h₄, h₅, h₆, h₇, h₈, h₉, Nat.min_le_right _ _, h₁₁⟩
  | send bytes =>
    simp only [applyMove, hostSend]
    split_ifs
    · exact h
    · obtain ⟨h₁, h₂, h₃, h₄, h₅, h₆, h₇, h₈, h₉, h₁₀, h₁₁⟩ := h
      exact ⟨h₁, h₂, h₃, h₄, h₅, h₆, h₇, h₈, h₉, h₁₀, h₁₁⟩
  | close | shutdown =>
    obtain ⟨h₁, h₂, h₃, h₄, h₅, h₆, h₇, h₈, h₉, h₁₀, h₁₁⟩ := h
    exact ⟨h₁, h₂, h₃, h₄, h₅, h₆, h₇, h₈, h₉, h₁₀, h₁₁⟩

/-- Settles O53: a step is so many events, each of which keeps the phase with the pc and adds only listed transactions, or a
move of the host. -/
theorem everyStepKeepsTheStateLegal : Obligations.EveryStepKeepsTheStateLegal := fun _ _ h hstep =>
  step_induction (P := Inv) hstep (fun rest => inv_script rest) (fun _ => inv_eventStep) (fun m _ _ => inv_applyMove m) h

/-- Settles O52: the values of `State.reset` are given, but for the parameters, whose op map is the table's. -/
theorem resetIsLegal : Obligations.ResetIsLegal :=
  ⟨by decide, rfl, Nat.zero_le _, Nat.zero_le _, rfl, rfl, rfl, rfl, rfl, Nat.zero_le _, nofun⟩

/-- Settles O54: in a legal state neither refusal applies, and the engine, the events and the host's moves all answer. -/
theorem legalStatesAlwaysStep : Obligations.LegalStatesAlwaysStep := by
  intro s h
  match script : s.script with
  | [] => exact step_empty h.ops h.medium script ▸ engineStep_next s
  | .engine :: rest => exact step_engine h.ops h.medium script ▸ engineStep_next _
  | .events k :: rest => exact ⟨_, step_events h.ops h.medium script⟩
  | .host m :: rest => exact ⟨_, step_host h.ops h.medium script⟩

end Sys2Proof.Machine
end

section
/-! PROOF. What every step keeps besides legality: the outputs, the cache, the bytes in flight; and where the engine is silent. -/

namespace Sys2Proof.Machine

open Sys2Proof Sys2Proof.Safety

/-! ### The outputs (20 R84, 10 R55) -/

theorem applyMove_params (m : HostMove) (s : State) : (applyMove m s).params = s.params := by
  cases m with
  | send bytes =>
    simp only [applyMove, hostSend]
    split_ifs <;> rfl
  | _ => rfl

/-- A move of the host but reset is no event, and sends nothing. -/
theorem applyMove_trace {m : HostMove} (hm : m ≠ .reset) (s : State) : (applyMove m s).trace = s.trace := by
  cases m with
  | send bytes =>
    simp only [applyMove, hostSend]
    split_ifs <;> rfl
  | reset => exact absurd rfl hm
  | _ => rfl

/-- Settles O56: events are only added, and the host's moves but reset leave the history. -/
theorem outputsOnlyGrow : Obligations.OutputsOnlyGrow := by
  intro s t h
  obtain ⟨n, rest, rfl, -⟩ | ⟨m, rest, script, rfl⟩ := step_events_or_host h
  · have grows := grows_events n { s with script := rest }
    exact ⟨grows.params, fun _ => grows.history⟩
  · refine ⟨applyMove_params m _, fun noReset => ⟨[], ?_⟩⟩
    have hm : m ≠ .reset := by
      rintro rfl
      exact noReset (by simp [script])
    simp [State.history, applyMove_trace hm]

/-! ### The configuration cache (10 R37, 20 R89) -/

/-- The straight-line steps that do not fill the configuration cache. -/
def notCfgRead : Act → Bool
  | .cfgRead => false
  | _ => true

/-- A filled cache stays filled with the value it has. -/
def KeepsCache (s t : State) : Prop :=
  s.cfgValid = true → t.cfgValid = true ∧ t.cfgValue = s.cfgValue

theorem KeepsCache.of_eq {s t : State} (h₁ : t.cfgValid = s.cfgValid := by simp) (h₂ : t.cfgValue = s.cfgValue := by simp) :
    KeepsCache s t :=
  fun filled => ⟨h₁.trans filled, h₂⟩

theorem keepsCache_fire {a : Act} (ha : notCfgRead a = true) (s : State) : KeepsCache s (fire a s) := by
  cases a <;> simp only [notCfgRead, Bool.false_eq_true] at ha <;> simp only [fire]
  case errStatus => split <;> exact .of_eq
  all_goals exact .of_eq

theorem evolves_keepsCache : Evolves notCfgRead KeepsCache where
  refl _ := .of_eq
  trans h h' filled := by
    obtain ⟨valid, value⟩ := h filled
    obtain ⟨valid', value'⟩ := h' valid
    exact ⟨valid', value'.trans value⟩
  fire _ s ha := keepsCache_fire ha s
  poll _ := .of_eq
  count _ := .of_eq
  start _ := .of_eq
  goto _ _ := .of_eq
  cfg _ empty filled := absurd filled (Bool.eq_false_iff.1 empty)
  begin_ _ _ := .of_eq
  payload _ _ _ _ _ := .of_eq
  frame _ _ _ _ _ := .of_eq
  frameEnd _ _ _ _ := .of_eq
  partialEnd s := by
    unfold dropPartial
    split_ifs <;> exact .of_eq
  waitDraw _ := .of_eq
  initDraw _ := .of_eq
  enter _ _ _ := .of_eq
  up _ := .of_eq

/-- The read that fills the cache never waits in the pc: `cfgTest` alone makes it. -/
theorem pc_notCfgRead {s : State} (h : Placed s) {a : Act} (ha : .act a ∈ s.pc) : notCfgRead a = true := by
  obtain ⟨-, run⟩ | ⟨-, power⟩ := op_of_mem_pc h ha
  · cases a with
    | cfgRead => cases run
    | _ => rfl
  · cases a with
    | cfgRead => cases power
    | _ => rfl

theorem applyMove_keepsCache {m : HostMove} (hm : m ≠ .reset) (s : State) : KeepsCache s (applyMove m s) := by
  cases m with
  | send bytes =>
    simp only [applyMove, hostSend]
    split_ifs <;> exact .of_eq rfl rfl
  | reset => exact absurd rfl hm
  | _ => exact .of_eq rfl rfl

/-- Settles O12: only an empty cache is ever filled, and a reset alone empties it. -/
theorem theConfigurationCacheIsNeverRefreshed : Obligations.TheConfigurationCacheIsNeverRefreshed := by
  intro s t h filled noReset hstep
  refine (step_induction (P := fun u => Inv u ∧ KeepsCache s u) hstep ?_ ?_ ?_ ⟨h, .of_eq rfl rfl⟩).2 filled
  · exact fun rest ⟨hi, hc⟩ => ⟨inv_script rest hi, hc⟩
  · exact fun u ⟨hi, hc⟩ => ⟨inv_eventStep hi, evolves_keepsCache.trans hc
      (evolves_keepsCache.eventStep fun _ => pc_notCfgRead (placed_of_inv hi))⟩
  · intro m rest script ⟨hi, hc⟩
    have hm : m ≠ .reset := by
      rintro rfl
      exact noReset (by simp [script])
    exact ⟨inv_applyMove m hi, evolves_keepsCache.trans hc (applyMove_keepsCache hm _)⟩

/-! ### HALTED (70 R295) -/

theorem pc_of_halted {s : State} (h : Inv s) (halted : s.phase = .halted) : s.pc = [] := by
  simpa [flow, halted] using h.flow

/-- With nothing left in the pc no event occurs. -/
theorem eventStep_of_empty {s : State} (empty : s.pc = []) : eventStep s = s := by
  rw [eventStep, empty]
  split_ifs <;> rfl

theorem events_of_empty {s : State} (empty : s.pc = []) (n : Nat) : events n s = s := by
  induction n with
  | zero => rfl
  | succ n ih => rw [events, eventStep_of_empty empty, ih]

/-- The lines of a legal HALTED state (70 R295). -/
theorem lines_of_halted {s : State} (h : Inv s) (halted : s.phase = .halted) :
    s.pinRst = .released ∧ s.pinCs = .released ∧ (s.pinDbg = .low ∨ s.exitCode = .one) := by
  have lines := h.lines
  simp only [linesOk, halted, Bool.or_eq_true, Bool.and_eq_true, beq_iff_eq, linesOf, Lines.final, Lines.idle,
    Lines.mk.injEq] at lines
  obtain ⟨dbg, rst, cs⟩ | ⟨⟨-, rst, cs⟩, one⟩ := lines
  · exact ⟨rst, cs, .inl dbg⟩
  · exact ⟨rst, cs, .inr one⟩

/-- A move of the host but reset writes nothing of what HALTED is about. -/
theorem applyMove_frame {m : HostMove} (hm : m ≠ .reset) (s : State) :
    (applyMove m s).phase = s.phase ∧ (applyMove m s).exitCode = s.exitCode ∧ (applyMove m s).pinDbg = s.pinDbg
      ∧ (applyMove m s).visible = s.visible := by
  cases m with
  | send bytes =>
    simp only [applyMove, hostSend]
    split_ifs <;> exact ⟨rfl, rfl, rfl, rfl⟩
  | reset => exact absurd rfl hm
  | _ => exact ⟨rfl, rfl, rfl, rfl⟩

/-- Settles O45: nothing is left in the pc of a legal HALTED state, and what the host does changes none of this; the rest is what
a legal HALTED state is. -/
theorem haltedIsTerminal : Obligations.HaltedIsTerminal := by
  intro s t h halted noReset hstep
  have frame : t.phase = s.phase ∧ t.exitCode = s.exitCode ∧ t.pinDbg = s.pinDbg ∧ t.visible = s.visible := by
    obtain ⟨n, rest, rfl, -⟩ | ⟨m, rest, script, rfl⟩ := step_events_or_host hstep
    · rw [events_of_empty (pc_of_halted (inv_script rest h) halted)]
      exact ⟨rfl, rfl, rfl, rfl⟩
    · have hm : m ≠ .reset := by
        rintro rfl
        exact noReset (by simp [script])
      exact applyMove_frame hm _
  obtain ⟨phase, exit, dbg, visible⟩ := frame
  have legal := everyStepKeepsTheStateLegal s t h hstep
  have halted' := phase.trans halted
  obtain ⟨rst, cs, final⟩ := lines_of_halted legal halted'
  have stopped : t.exitCode ≠ .none := by simpa [exitOk, halted'] using legal.exit
  exact ⟨halted', visible, exit, stopped, dbg, rst, cs, final⟩

/-! ### The bytes in flight (60 R265, 70 R290) -/

/-- A move of the host that neither takes nor resets leaves the bytes in flight. -/
theorem applyMove_inFlight {m : HostMove} (hr : m ≠ .reset) (ht : ∀ n, m ≠ .take n) (s : State) :
    (applyMove m s).inFlight = s.inFlight ∧ (applyMove m s).tx = s.tx := by
  cases m with
  | send bytes =>
    simp only [applyMove, hostSend]
    split_ifs <;> exact ⟨rfl, rfl⟩
  | take n => exact absurd rfl (ht n)
  | reset => exact absurd rfl hr
  | _ => exact ⟨rfl, rfl⟩

/-- Settles O49: events append to the transmit stream and leave the host's count, so what they send joins the bytes in flight
behind; only a taking moves the count. -/
theorem noSentByteIsLost : Obligations.NoSentByteIsLost := by
  intro s t h hstep
  obtain ⟨n, rest, rfl, noHost⟩ | ⟨m, rest, script, rfl⟩ := step_events_or_host hstep
  · refine ⟨fun k hk => absurd hk (noHost _), fun hr => absurd hr (noHost _), fun _ _ => ?_⟩
    have grows := grows_events n { s with script := rest }
    obtain ⟨es, hist⟩ := grows.history
    exact ⟨_, tx_append (s := { s with script := rest }) hist,
      inFlight_append (sent_append hist grows.txCarry) grows.txTaken h.taken⟩
  · simp only [script, List.head?_cons, Option.some.injEq, Turn.host.injEq]
    refine ⟨?_, ?_, fun notTake notReset => ⟨[], ?_⟩⟩
    · rintro k rfl
      exact ⟨inFlight_hostTake k _, rfl⟩
    · rintro rfl
      exact inFlight_reset _
    · obtain ⟨flight, tx⟩ := applyMove_inFlight (m := m) (by simpa using notReset) (by simpa using notTake)
        { s with script := rest }
      simp only [List.append_nil]
      exact ⟨tx, flight⟩

/-! ### Outside RUN (10 R35, 40 R129, 70 R305) -/

/-- From `s` to `t` no transaction is made, nothing is sent and no byte is taken. -/
def NoTraffic (s t : State) : Prop :=
  t.regTrace = s.regTrace ∧ t.tx = s.tx ∧ t.rxQueue = s.rxQueue

theorem NoTraffic.of_silent {s t : State} (h : t.trace = s.trace) (hq : t.rxQueue = s.rxQueue) : NoTraffic s t := by
  simp [NoTraffic, State.regTrace, State.tx, State.history, h, hq]

theorem NoTraffic.of_event {s t : State} {e : Event} (h : t.trace = e :: s.trace) (he : isTransaction e = false)
    (hb : eventBytes e = []) (hq : t.rxQueue = s.rxQueue) : NoTraffic s t := by
  simp [NoTraffic, State.regTrace, State.tx, State.history, h, he, hb, hq]

theorem noTraffic_power {o : Op} (ho : opOfPower o = true) (k : List Op) (s : State) : NoTraffic s (opStep o k s) := by
  cases o with
  | act a =>
    cases a with
    | pins changes => exact .of_event (setPins_trace _ _) rfl rfl (setPins_rxQueue _ _)
    | settle | transportDown | fatalHw | fatalTransport => exact .of_event rfl rfl rfl rfl
    | halt => exact .of_silent rfl rfl
    | _ => cases ho
  | init | serialOpen =>
    simp only [opStep]
    split_ifs <;> exact .of_silent rfl rfl
  | transportUp =>
    simp only [opStep]
    split_ifs <;> exact .of_event rfl rfl rfl rfl
  | stop | start => exact .of_silent rfl rfl
  | _ => cases ho

theorem noTraffic_outside_run {s : State} (h : Inv s) (outside : s.phase ≠ .run) : NoTraffic s (eventStep s) := by
  by_cases held : s.held = true
  · exact (eventStep_held held).symm ▸ .of_silent rfl rfl
  · cases pc : s.pc with
    | nil => exact (eventStep_of_empty pc).symm ▸ .of_silent rfl rfl
    | cons o k =>
      rw [eventStep_free (Bool.eq_false_of_not_eq_true held) pc]
      obtain ⟨run, -⟩ | ⟨-, power⟩ := op_of_mem_pc (placed_of_inv h) (pc ▸ List.mem_cons_self : o ∈ s.pc)
      · exact absurd run outside
      · exact noTraffic_power power k s

/-- Settles O55: the operations that can wait outside RUN are those of the power sequences and of start-up, and in RUN the transport
is up. -/
theorem transactionsOnlyInRunWithTheTransportUp : Obligations.TransactionsOnlyInRunWithTheTransportUp := by
  intro s h traffic
  have run : s.phase = .run := by
    by_contra outside
    obtain ⟨reg, tx, queue⟩ := noTraffic_outside_run h outside
    exact traffic.elim (· reg) fun more => more.elim (· tx) (· queue)
  exact ⟨run, by simpa [transportOk, run] using h.transport⟩

end Sys2Proof.Machine
end

section
/-! PROOF. The frame wait: a whole frame, a part of one, and the model's own placing (41 R182, R183). -/

namespace Sys2Proof.Machine

open Sys2Proof Sys2Proof.Safety

/-- Bytes stored from index `i` on stand behind the first `i` bytes of the buffer. -/
theorem loadBytes_take {n : Nat} (buf : Vector Byte n) {i : Nat} {bs : List Byte} (h : i + bs.length ≤ n) :
    (loadBytes buf i bs).toList.take (i + bs.length) = buf.toList.take i ++ bs := by
  have length : (buf.toList.take i).length = i := by simp; omega
  apply List.ext_getElem
  · simp; omega
  · intro j h₁ h₂
    have hj : j < i + bs.length := by rw [List.length_append, length] at h₂; exact h₂
    rw [List.getElem_take, Vector.getElem_toList, loadBytes_get _ _ _ _ (by omega)]
    by_cases stored : i ≤ j
    · rw [dif_pos ⟨stored, hj⟩, List.getElem_append_right (by omega)]
      simp [length]
    · rw [dif_neg (by omega), List.getElem_append_left (by omega)]
      simp

/-- A frame wait that the transmit stream does not hold back and that fetches a command runs it (41 R182, R183). -/
theorem step_fetched {s u : State} {i : Instr} (h : AtOp .frameWait s) (hf : fetch s = (some i, u)) : step s = exec i u := by
  obtain ⟨k, pc⟩ := h.pc
  rw [step_empty h.ops h.medium h.script, engineStep_free h.free]
  simp only [advanceEngine, pc, hf]

/-- One that fetches none goes on as the wait leaves it. -/
theorem step_unfetched {s u : State} (h : AtOp .frameWait s) (hf : fetch s = (none, u)) : step s = .next u := by
  obtain ⟨k, pc⟩ := h.pc
  rw [step_empty h.ops h.medium h.script, engineStep_free h.free]
  simp only [advanceEngine, pc, hf]

theorem fetch_complete {p q : List Byte} {s : State} (hq : s.rxQueue = p ++ q) (hp : p ≠ []) (h5 : s.rxCnt + p.length = 5) :
    fetch s = (some (frameInstr (assembled p q s)), goto [.loopTop] (handOver (assembled p q s))) := by
  rw [fetch, hq, takeFrame_complete p q s hp h5]
  rfl

theorem fetch_partial {s : State} (part : s.rxCnt + s.rxQueue.length < 5) :
    fetch s = (none, frameIdle (assembled s.rxQueue [] s)) := by
  rw [fetch, takeFrame_partial s.rxQueue s rfl part]

/-- Settles O7: the five bytes are assembled in order, and the decoder reads from the assembler what it reads from the bytes. -/
theorem stepRunsTheDecodedFrame : Obligations.StepRunsTheDecodedFrame := by
  intro s p q i h hcnt hq h5 hdec
  have hp : p ≠ [] := by
    rintro rfl
    simp only [List.length_nil] at h5
    omega
  have frame : (loadBytes s.rxBuf s.rxCnt p).toList = s.rxBuf.toList.take s.rxCnt ++ p := by
    rw [← loadBytes_take s.rxBuf (le_of_eq h5), h5]
    exact (List.take_of_length_le (by simp)).symm
  have instr : frameInstr (assembled p q s) = i := by
    rw [← frame, decode_toList] at hdec
    exact (Prod.mk.inj (Except.ok.inj hdec)).1
  refine ⟨loadBytes s.rxBuf s.rxCnt p, frame, ?_⟩
  rw [step_fetched h (fetch_complete hq hp h5), instr]
  rfl

/-! ### A part of a frame -/

/-- Bytes taken are observed in the order they came (20 R88). -/
theorem visible_recv {s t : State} {p : List Byte} (h : t.trace = (p.map Event.recv).reverse ++ s.trace) :
    t.visible = s.visible ++ p.map Event.recv := by
  rw [visible_of_trace h, List.filter_eq_self.2]
  simp [isLog]

/-- Dropping a partial frame is logged, not observed (60 R263 cause 7, 92 D31). -/
theorem dropPartial_eq (s : State) :
    ∃ es, dropPartial s = { s with rxCnt := 0, trace := es } ∧ (dropPartial s).visible = s.visible := by
  unfold dropPartial
  split_ifs with begun
  · exact ⟨s.trace, by rw [← begun], rfl⟩
  · exact ⟨_, rfl, (visible_of_trace (es := [.log (.rxClosedMidFrame s.rxCnt)]) rfl).trans (List.append_nil _)⟩

/-- Settles O9: what is queued is assembled, and then the three ends of a wait with no byte queued are told apart. -/
theorem frameWaitWithoutAFrame : Obligations.FrameWaitWithoutAFrame := by
  intro s h part
  rw [step_unfetched h (fetch_partial part)]
  refine ⟨_, rfl, ?_⟩
  have loaded := loadBytes_take s.rxBuf (i := s.rxCnt) (bs := s.rxQueue) (by omega)
  have taken : (assembled s.rxQueue [] s).visible = s.visible ++ s.rxQueue.map Event.recv := visible_recv rfl
  have ends : (assembled s.rxQueue [] s).waitEndsNow = s.waitEndsNow := rfl
  have closed' : (assembled s.rxQueue [] s).rxClosed = s.rxClosed := rfl
  rw [frameIdle, ends, closed']
  split_ifs with closed ended
  · obtain ⟨es, dropped, unseen⟩ := dropPartial_eq (assembled s.rxQueue [] s)
    rw [dropped] at unseen ⊢
    exact ⟨rfl, unseen.trans taken, loaded, ⟨rfl, rfl⟩, rfl⟩
  · exact ⟨rfl, taken, loaded, ⟨rfl, rfl⟩, rfl⟩
  · exact ⟨rfl, taken, loaded, ⟨rfl, rfl⟩, rfl⟩

/-! ### The model's own placing (notes/assumptions/22.md) -/

/-- The placed bytes are read in a frame wait that nothing holds back: every sent byte counts as taken. -/
theorem placeBytes_atOp (bytes : List Byte) (s : State) : AtOp .frameWait (placeBytes bytes s) where
  ops := by
    show OpMap.table.wf = true
    decide
  medium := rfl
  script := rfl
  free := by
    have none : (placeBytes bytes s).inFlight = [] := List.drop_length
    have waits : (placeBytes bytes s).waitsForHost = false := by
      unfold State.waitsForHost
      split
      · rfl
      · simp [none]
    simp [State.held, waits]
  pc := ⟨[], rfl⟩

/-- Settles O8: the first five of the placed bytes are a whole frame, and taking them adds nothing to the two streams. -/
theorem placedWordIsRunNext : Obligations.PlacedWordIsRunNext := by
  intro s nbits w i hw
  have hdec : ∃ rest, decode OpMap.table (tableBytes nbits w) = .ok (i, rest) := by
    unfold decodeTableWord at hw
    split at hw
    · next j rest hj => exact ⟨rest, by rw [hj, Option.some.inj hw]⟩
    · cases hw
  obtain ⟨rest, hdec⟩ := hdec
  obtain ⟨f0, f1, f2, f3, f4, hb, rfl⟩ := decode_eq_ok hdec
  obtain ⟨f, -, hstep⟩ := stepRunsTheDecodedFrame (s.withFetchWord nbits w) [f0, f1, f2, f3, f4] (rest ++ s.rxQueue) _
    (placeBytes_atOp _ s) (Nat.zero_le _) (by simp [State.withFetchWord, placeBytes, hb]) rfl rfl
  refine ⟨_, hstep, rfl, rfl, rfl, rfl, rfl, by simp [hb], ?_, ?_⟩
  · simp [State.regTrace, State.history, State.withFetchWord, placeBytes, isTransaction]
  · simp [State.tx, State.history, State.withFetchWord, placeBytes, eventBytes]

end Sys2Proof.Machine
end

section
/-! PROOF. Start-up, shutdown, the lines, reset and the host's moves (43_power.md, 70_reset_and_hazards.md); the ignored commands
and the geometry. -/

namespace Sys2Proof.Machine

open Sys2Proof Sys2Proof.Safety

/-! ### The ignored commands (41 R189 to R191) -/

/-- An ignored command is its dispatch and a log event. -/
theorem exec_ignored {i : Instr} (h : ignored i = true) (s : State) :
    ∃ c, exec i s = .next (logCause c (beginCommand i s)) := by
  cases i with
  | rebootToBootloader lba => exact ⟨.rebootUnsupported, rfl⟩
  | reservedEmmc op lba => exact ⟨.reservedOp op, rfl⟩
  | reservedDaughterboard op lba => exact ⟨.reservedOp op, rfl⟩
  | unrecognized op lba => exact ⟨.unknownOp op, rfl⟩
  | getVersion | getFlashConfig | readFlash | writeFlash | readFlashStream => cases h

theorem logCause_effect (c : Cause) (s : State) : Effect s (logCause c s) 0 [.log c] :=
  Effect.of_event rfl rfl rfl

/-- Settles O30: a log event is in none of the views. -/
theorem ignoredCommandsChangeNothing : Obligations.IgnoredCommandsChangeNothing := by
  intro i s h
  obtain ⟨c, hexec⟩ := exec_ignored h s
  have he := (beginCommand_effect i s).trans (logCause_effect c _)
  exact ⟨_, hexec, he.visible.trans (List.append_nil _), he.tx.trans (List.append_nil _),
    he.regTrace.trans (List.append_nil _), rfl⟩

/-! ### The geometry (10 R38, 40 R136) -/

theorem majorOf_toNat (c : Word) : (majorOf c).toNat = c.toNat / 2 ^ 17 % 4 := by
  rw [majorOf, BitVec.extractLsb'_toNat, Nat.shiftRight_eq_div_pow]

theorem minorOf_toNat (c : Word) : (minorOf c).toNat = c.toNat / 2 ^ 4 % 4 := by
  rw [minorOf, BitVec.extractLsb'_toNat, Nat.shiftRight_eq_div_pow]

/-- The table is asked at the two fields, and nothing else of the configuration is. -/
theorem sectorsInBlock_eq (p : Params) (c : Word) :
    sectorsInBlock p c
      = blockBytes ((p.blockSizes[4 * (c.toNat / 2 ^ 17 % 4) + c.toNat / 2 ^ 4 % 4]?).getD .b4000) / 0x200 := by
  rw [sectorsInBlock, blockSizeOf, majorOf_toNat, minorOf_toNat]

/-- Bit 3 is in neither field (10 R48). -/
theorem fields_or_eraseEnable (c : Word) : majorOf (c ||| 0x08#32) = majorOf c ∧ minorOf (c ||| 0x08#32) = minorOf c := by
  constructor <;> apply BitVec.eq_of_getLsbD_eq <;> intro i hi <;> interval_cases i <;> simp [majorOf, minorOf]

/-- Settles O33: the two fields are the place in the table, and the erase-enable bit is in neither. -/
theorem geometryComesFromTwoFields : Obligations.GeometryComesFromTwoFields := by
  intro p c
  refine ⟨fun i hi => ?_, fun c' major minor => ?_, ?_⟩
  · have entry : (p.blockSizes[4 * (c.toNat / 2 ^ 17 % 4) + c.toNat / 2 ^ 4 % 4]?).getD .b4000 = p.blockSizes[i] := by
      rw [← hi]
      simp
    rw [sectorsInBlock_eq, entry]
    refine ⟨fun size => ?_, fun size => ?_, fun size => ?_⟩ <;> rw [size] <;> rfl
  · rw [sectorsInBlock_eq, sectorsInBlock_eq, major, minor]
  · obtain ⟨major, minor⟩ := fields_or_eraseEnable c
    rw [sectorsInBlock, sectorsInBlock, major, minor]

/-! ### Start-up (70 R291) -/

theorem step_init {s : State} (h : AtOp .init s) : step s = .next (runInit s) := by
  obtain ⟨k, hpc⟩ := h.pc
  rw [step_procedure h nofun]
  simp only [runProcedure, hpc]

/-- Settles O40: the two draws of INIT give its three ends, and only a log event is added. -/
theorem startUpChecks : Obligations.StartUpChecks := by
  intro s h
  refine ⟨_, step_init h, ?_⟩
  rw [runInit]
  by_cases hw : s.initAnswer = true
  · rw [if_pos hw, serialOpen]
    by_cases serial : (dropInit s).initAnswer = true
    · rw [if_pos serial]
      simp only [hw, serial]
      exact ⟨rfl, nofun, nofun, fun _ _ => ⟨rfl, rfl, rfl⟩, rfl⟩
    · rw [if_neg serial]
      simp only [hw, serial]
      have unseen : (transportFailed (dropInit (dropInit s))).visible = s.visible :=
        (visible_of_trace (es := [.log .fatalTransportInit]) rfl).trans (List.append_nil _)
      exact ⟨unseen, nofun, fun _ _ => ⟨rfl, rfl, rfl⟩, nofun, rfl⟩
  · rw [if_neg hw]
    simp only [hw]
    have unseen : (goto [] (fire .fatalHw (dropInit s))).visible = s.visible :=
      (visible_of_trace (es := [.log .fatalHwInit]) rfl).trans (List.append_nil _)
    exact ⟨unseen, fun _ => ⟨rfl, rfl, rfl⟩, nofun, nofun, rfl⟩

/-! ### Shutdown (41 R180, R181) -/

theorem step_loopTop {s : State} (h : AtOp .loopTop s) : step s = .next (loopTop s) := by
  obtain ⟨k, hpc⟩ := h.pc
  rw [step_procedure h nofun]
  simp only [runProcedure, hpc, eventStep_free h.free hpc, opStep]

/-- Settles O43: the loop top takes a pending shutdown to START, and START's one sequence sends nothing. -/
theorem shutdownIsTakenAtTheLoopTop : Obligations.ShutdownIsTakenAtTheLoopTop := by
  intro s h
  have first := step_loopTop h
  refine ⟨fun pending => ?_, fun idle => ?_⟩
  · let u : State := goto [.start] { s with exitCode := .zero, phase := .start }
    have taken : loopTop s = u := by rw [loopTop, if_pos pending]
    have atStart : AtOp .start u := ⟨h.ops, h.medium, h.script, rfl, [], rfl⟩
    refine ⟨runStart u, ?_, ?_⟩
    · rw [run_next (first.trans (congrArg _ taken)), run_next (step_start atStart)]
      rfl
    · have history : (runStart u).history = s.history ++ startEvents s.params.settleMinMs := by
        simp [State.history, runStart_eq, u]
      have tx := tx_append history
      have reg := regTrace_append history
      rw [runStart_eq] at tx reg ⊢
      exact ⟨rfl, rfl, rfl, rfl, rfl, rfl, tx.trans (List.append_nil _), reg.trans (List.append_nil _), rfl⟩
  · rw [first, loopTop, if_neg (Bool.eq_false_iff.1 idle)]
    rfl

/-! ### The lines (43 R244) -/

/-- Settles O46: off the transport's chip-select a line is driven by its level. -/
theorem linesAreDrivenAsTheirLevelSays : Obligations.LinesAreDrivenAsTheirLevelSays := by
  intro s l h
  rw [State.lineDrive, if_neg h]
  refine ⟨fun low => ?_, fun released high => ?_, fun released highZ => ?_, fun u up => ?_⟩
  · rw [low]
    rfl
  · rw [released, high]
    rfl
  · rw [released, highZ]
    rfl
  · rw [State.lineDrive, if_pos ⟨rfl, up⟩]

/-! ### Reset and the host (70 R290, R308) -/

/-- Every element the spec states a value for has it right after a reset (10 R57). -/
theorem resetValues_resetEngine (s : State) : ResetValues (resetEngine s) :=
  ⟨rfl, rfl, rfl, rfl, rfl, rfl, rfl, rfl, rfl, rfl, rfl, rfl, rfl, rfl, rfl, rfl, rfl, rfl⟩

/-- Settles O47: the reset move sets what `State.reset` sets and keeps what is not the engine's. -/
theorem resetGivesTheStatedValues : Obligations.ResetGivesTheStatedValues := by
  refine ⟨⟨rfl, rfl, rfl, rfl, rfl, rfl, rfl, rfl, rfl, rfl, rfl, rfl, rfl, rfl, rfl, rfl, rfl, rfl⟩, ?_⟩
  intro s rest hp hm script
  exact ⟨_, step_host hp hm script, resetValues_resetEngine _, rfl, rfl, rfl, inFlight_reset _, rfl, rfl⟩

/-- Settles O48: each move writes one field, and `hostTake` stops at the end of the bytes sent. -/
theorem hostMovesChangeOnlyTheirOwn : Obligations.HostMovesChangeOnlyTheirOwn := by
  intro s m rest hp hm script
  have hstep := step_host hp hm script
  refine ⟨?_, ?_, ?_, ?_⟩
  · rintro bytes rfl
    refine ⟨fun isOpen => ?_, fun closed => ?_⟩
    · rw [hstep, applyMove, hostSend, if_neg (by simp [isOpen])]
    · rw [hstep, applyMove, hostSend, if_pos closed]
  · rintro rfl
    exact hstep
  · rintro rfl
    exact hstep
  · rintro n rfl
    exact ⟨min (s.txTaken + n) s.sent.length, Nat.min_eq_left, Nat.min_eq_right, hstep⟩

/-! ### Waiting for the host (60 R265) -/

theorem waitsForHost_iff {s : State} {k : Nat} (h : s.sends = k + 1) :
    s.waitsForHost = true ↔ s.room k < s.inFlight.length := by
  simp [State.waitsForHost, h]

/-- A send waits by its own room, for what was in flight and what it adds. -/
theorem waitsForHost_send (bytes : List Byte) {s : State} (h : s.txTaken ≤ s.sent.length) :
    (send bytes s).waitsForHost = true ↔ s.room s.sends < s.inFlight.length + bytes.length := by
  have one : (send bytes s).sends = s.sends + 1 := List.countP_cons_of_pos rfl
  have sent : (send bytes s).sent = s.sent ++ bytes := by
    simpa [eventBytes] using sent_append (history_cons (send_trace bytes s)) (send_txCarry bytes s)
  rw [waitsForHost_iff one, inFlight_append sent (send_txTaken bytes s) h, List.length_append]
  rfl

/-- Held back, any number of steps leave the state as it is. -/
theorem run_of_fixed {s : State} (h : step s = .next s) (n : Nat) : Host.Core.run Sys2Proof.core n s = .next s := by
  induction n with
  | zero => rfl
  | succ n ih => rw [run_next h, ih]

/-- After a taking the same send still waits, exactly where more than its room is still in flight. -/
theorem held_hostTake {s : State} (h : s.held = true) (n : Nat) :
    (hostTake n s).held = true ↔ s.room (s.sends - 1) + n < s.inFlight.length := by
  obtain ⟨gate, waits⟩ := Bool.and_eq_true_iff.1 h
  obtain ⟨k, hk⟩ : ∃ k, s.sends = k + 1 := by
    refine Nat.exists_eq_succ_of_ne_zero fun none => ?_
    simp [State.waitsForHost, none] at waits
  have held : (hostTake n s).held = true ↔ (hostTake n s).waitsForHost = true := by
    rw [State.held, Bool.and_eq_true_iff]
    exact and_iff_right gate
  rw [held, waitsForHost_iff (s := hostTake n s) hk, inFlight_hostTake, List.length_drop, hk, Nat.add_sub_cancel]
  exact Nat.lt_sub_iff_add_lt

/-- Settles O50: the wait is a comparison of the last send's room with the bytes in flight, and only a taking changes its sides. -/
theorem theEngineWaitsForTheHost : Obligations.TheEngineWaitsForTheHost := by
  intro s taken
  refine ⟨fun bytes => waitsForHost_send bytes taken, fun held => ⟨fun hp hm hs n => ?_, held_hostTake held, ?_⟩⟩
  · exact ⟨run_of_fixed ((step_empty hp hm hs).trans (engineStep_held held)) n, events_held held n⟩
  · refine Bool.eq_false_iff.2 fun still => ?_
    have := (held_hostTake held _).1 still
    omega

end Sys2Proof.Machine
end

section
/-! PROOF. READ_FLASH (40 R135, 41 R186). -/

namespace Sys2Proof.Machine

open Sys2Proof Sys2Proof.Safety

/-! ### The transactions of a read, counted -/

@[simp] theorem length_readSetupEvents (a : Nat → Word) (lba : Word) : (readSetupEvents a lba).length = 4 := rfl

@[simp] theorem length_drainEvents (a : Nat → Word) : (drainEvents a).length = 265 := by
  simp [drainEvents, List.length_flatMap, sectorWords]

/-- 269 transactions and the polls (40 R135). -/
theorem length_readEvents (a : Nat → Word) (lba : Word) (p : Nat) : (readEvents a lba p).length = 269 + (p + 1) := by
  simp only [readEvents, List.length_append, length_readSetupEvents, length_pollEvents, length_drainEvents]
  omega

@[simp] theorem length_timeoutEvents (e : ErrStatusSource) (a : Nat → Word) (T : Nat) :
    (timeoutEvents e a T).length = T + 1 + errorReads e := by
  rw [timeoutEvents, List.length_append, length_pollEvents]
  cases e <;> rfl

theorem errorReads_le (e : ErrStatusSource) : errorReads e ≤ 1 := by
  cases e <;> decide

theorem countP_isDataRead_pollEvents (a : Nat → Word) (n : Nat) : (pollEvents a n).countP isDataRead = 0 := by
  simp [pollEvents, List.countP_eq_zero, isDataRead]

theorem countP_isDataRead_drain (a : Nat → Word) (n : Nat) :
    ((List.range n).flatMap fun k => [Event.regWrite 0x08#8 0x00#32, .regRead 0x10#8 (a k)]).countP isDataRead = n := by
  induction n with
  | zero => rfl
  | succ n ih => simp [List.range_succ, List.flatMap_append, List.countP_append, ih, isDataRead]

/-- One read of REG_DATA for each word of the sector (10 R52). -/
theorem countP_isDataRead_readEvents (a : Nat → Word) (lba : Word) (p : Nat) :
    (readEvents a lba p).countP isDataRead = 132 := by
  have drain : (drainEvents (shift (1 + (p + 1)) a)).countP isDataRead = 132 := by
    rw [drainEvents, List.countP_cons_of_neg (by simp [isDataRead]), countP_isDataRead_drain, sectorWords]
  have setup : (readSetupEvents a lba).countP isDataRead = 0 := rfl
  rw [readEvents, List.countP_append, List.countP_append, setup, countP_isDataRead_pollEvents, drain]

theorem timeoutEvents_transactions (e : ErrStatusSource) (a : Nat → Word) (T : Nat) :
    ∀ x ∈ timeoutEvents e a T, isTransaction x = true := by
  refine List.forall_mem_append.2 ⟨pollEvents_transactions _ _, ?_⟩
  cases e <;> simp [errorEvents, isTransaction]

theorem readEvents_transactions (a : Nat → Word) (lba : Word) (p : Nat) : ∀ e ∈ readEvents a lba p, isTransaction e = true :=
  List.forall_mem_append.2 ⟨List.forall_mem_append.2 ⟨readSetupEvents_transactions a lba, pollEvents_transactions _ _⟩,
    drainEvents_transactions _⟩

/-! ### What transactions and one send leave in the views -/

/-- Transactions send nothing. -/
theorem eventBytes_transactions {es : List Event} (h : ∀ e ∈ es, isTransaction e = true) : es.flatMap eventBytes = [] := by
  rw [List.flatMap_eq_nil_iff]
  intro e he
  have transaction := h e he
  cases e with
  | send bytes => cases transaction
  | _ => rfl

/-- The transmit stream after transactions and one send. -/
theorem tx_of_transactions_send {s t : State} {es : List Event} {bytes : List Byte} (ht : ∀ e ∈ es, isTransaction e = true)
    (h : t.visible = s.visible ++ es ++ [.send bytes]) : t.tx = s.tx ++ bytes := by
  rw [List.append_assoc] at h
  rw [tx_of_visible h, List.flatMap_append, eventBytes_transactions ht]
  simp [eventBytes]

/-- The register trace after transactions and one send. -/
theorem regTrace_of_transactions_send {s t : State} {es : List Event} {bytes : List Byte}
    (ht : ∀ e ∈ es, isTransaction e = true) (h : t.visible = s.visible ++ es ++ [.send bytes]) :
    t.regTrace = s.regTrace ++ es := by
  rw [List.append_assoc] at h
  rw [regTrace_of_visible h, List.filter_append, List.filter_eq_self.2 ht]
  simp [isTransaction]

/-! ### The two ends of a READ_FLASH -/

theorem exec_readFlash (lba : Word) (s : State) :
    exec (.readFlash lba) s = .next (reply readReply (readBlock .read lba (beginCommand (.readFlash lba) s))) := rfl

/-- A READ_FLASH whose wait is Ready is the read's transactions and the send of the sector. -/
theorem readFlash_ok {lba : Word} {s : State} {p : Nat} (ready : ReadyAt (shift 1 s.answer) s.params.waitBudget.toNat p) :
    ∃ u, readBlock .read lba (beginCommand (.readFlash lba) s) = (none, u)
      ∧ exec (.readFlash lba) s = .next (send (le32 0#32 ++ sectorBytes (shift (1 + (p + 1)) s.answer)) u)
      ∧ Stretch (beginCommand (.readFlash lba) s) u (1 + (p + 1) + sectorWords) (readEvents s.answer lba p)
      ∧ u.rdBuf.toList = sectorBytes (shift (1 + (p + 1)) s.answer) := by
  obtain ⟨u, hu, hs, hbuf⟩ := readBlock_ok (w := .read) (lba := lba) (s := beginCommand (.readFlash lba) s) ready
  refine ⟨u, hu, ?_, hs, hbuf⟩
  rw [exec_readFlash, hu, ← show u.rdBuf.toList = sectorBytes (shift (1 + (p + 1)) s.answer) from hbuf]
  rfl

/-- A READ_FLASH whose wait is NotReady is the setup, the polls, the error entry and the send of the error word. -/
theorem readFlash_fails {lba : Word} {s : State} (never : NeverReady (shift 1 s.answer) s.params.waitBudget.toNat) :
    ∃ u, readBlock .read lba (beginCommand (.readFlash lba) s) = (some .read, u)
      ∧ exec (.readFlash lba) s = .next (send (le32 u.err) u)
      ∧ Stretch (beginCommand (.readFlash lba) s) u (1 + (s.params.waitBudget.toNat + 1 + errorReads s.params.errStatusSource))
          (readSetupEvents s.answer lba
            ++ timeoutEvents s.params.errStatusSource (shift 1 s.answer) s.params.waitBudget.toNat)
      ∧ u.err = failureWord s.params.errStatusSource (shift 1 s.answer) s.params.waitBudget.toNat := by
  obtain ⟨u, hu, hs, herr⟩ := readBlock_never (w := .read) (lba := lba) (s := beginCommand (.readFlash lba) s) never
  exact ⟨u, hu, by rw [exec_readFlash, hu]; rfl, hs, herr⟩

/-- Settles O13: the read's transactions, and one send of the words read. -/
theorem readFlashSendsTheSector : Obligations.ReadFlashSendsTheSector := by
  intro lba s p ready
  obtain ⟨u, hu, hexec, hs, hbuf⟩ := readFlash_ok (lba := lba) ready
  have visible := hs.visible_send (le32 0#32 ++ sectorBytes (shift (1 + (p + 1)) s.answer))
  have transactions := readEvents_transactions s.answer lba p
  have tx := congrArg List.length (tx_of_transactions_send transactions visible)
  have reg := congrArg List.length (regTrace_of_transactions_send transactions visible)
  have addr := readBlock_addr .read lba (beginCommand (.readFlash lba) s)
  rw [hu] at addr
  refine ⟨_, hexec, visible, hbuf, tx.trans ?_, reg.trans ?_, countP_isDataRead_readEvents _ _ _, addr⟩
  · rw [List.length_append, List.length_append, sectorBytes_length]
    rfl
  · rw [List.length_append, length_readEvents]
    rfl

/-- Settles O14: no word of the sector is read, and the error word is the only thing sent. -/
theorem readFlashReportsItsTimeout : Obligations.ReadFlashReportsItsTimeout := by
  intro lba s never
  obtain ⟨u, hu, hexec, hs, herr⟩ := readFlash_fails (lba := lba) never
  have visible := hs.visible_send (le32 u.err)
  have transactions := List.forall_mem_append.2 ⟨readSetupEvents_transactions s.answer lba,
    timeoutEvents_transactions s.params.errStatusSource (shift 1 s.answer) s.params.waitBudget.toNat⟩
  have tx := congrArg List.length (tx_of_transactions_send transactions visible)
  have reg := congrArg List.length (regTrace_of_transactions_send transactions visible)
  have addr := readBlock_addr .read lba (beginCommand (.readFlash lba) s)
  have buf := readBlock_never_rdBuf (w := .read) (lba := lba) (s := beginCommand (.readFlash lba) s) never
  rw [hu] at addr buf
  refine ⟨_, hexec, ?_, herr, buf, tx.trans ?_, reg.trans ?_, addr⟩
  · rw [visible, herr, List.append_assoc s.visible]
    rfl
  · rw [List.length_append]
    rfl
  · rw [List.length_append, List.length_append, length_readSetupEvents, length_timeoutEvents, ← Nat.add_assoc 4,
      ← Nat.add_assoc 4, Nat.add_comm 4]
    rfl

/-! ### What a read leaves alone, however it ends -/

theorem steady_scrub : Steady quiet fun s t => scrub t = scrub s where
  refl _ := rfl
  trans h h' := h'.trans h
  fire _ s ha := scrub_fire ha s
  poll s := (WaitFrame.poll s).scrub
  count s := (WaitFrame.count s).scrub
  start s := (WaitFrame.start s).scrub

theorem readBlock_scrub (w : Site) (lba : Word) (s : State) : scrub (readBlock w lba s).2 = scrub s := by
  refine steady_scrub.andThen (steady_scrub.stage w (quiet_readSetup lba) (quiet_errorEntry w) s) fun u => ?_
  have drain := steady_scrub.perform quiet_readDrain u
  generalize perform readDrain u = v at drain
  exact drain

/-- A READ_FLASH is its read and one send. -/
theorem reply_readReply (r : Option Site × State) (h : r.1 = none ∨ r.1 = some .read) :
    ∃ bytes, reply readReply r = send bytes r.2 := by
  obtain ⟨o, u⟩ := r
  obtain rfl | rfl := h <;> exact ⟨_, rfl⟩

theorem readBlock_site (w : Site) (lba : Word) (s : State) :
    (readBlock w lba s).1 = none ∨ (readBlock w lba s).1 = some w := by
  obtain ⟨p, ready⟩ | never := ready_or_never (shift 1 s.answer) s.params.waitBudget.toNat
  · obtain ⟨u, hu, -⟩ := readBlock_ok (w := w) (lba := lba) ready
    exact .inl (congrArg Prod.fst hu)
  · obtain ⟨u, hu, -⟩ := readBlock_never (w := w) (lba := lba) never
    exact .inr (congrArg Prod.fst hu)

/-- Settles O15: the read changes what `scrub` sets aside, the dispatch its two registers, and the send the trace alone. -/
theorem readFlashFrame : Obligations.ReadFlashFrame := by
  intro lba s t h
  have rest := readBlock_scrub .read lba (beginCommand (.readFlash lba) s)
  have window (x : Nat) := readBlock_window .read lba (beginCommand (.readFlash lba) s) (x := x)
  obtain ⟨bytes, sends⟩ := reply_readReply _ (readBlock_site .read lba (beginCommand (.readFlash lba) s))
  rw [exec_readFlash, sends] at h
  obtain rfl := Host.Outcome.next.inj h
  generalize (readBlock .read lba (beginCommand (.readFlash lba) s)).2 = u at rest window
  refine ⟨?_, fun x h4 h8 h12 => window x h4 h8 h12⟩
  exact congrArg (fun v : State => { v with curOp := s.curOp, curLba := s.curLba }) (frame_of_scrub rest)

end Sys2Proof.Machine
end

section
/-! PROOF. WRITE_FLASH (40 R138, R139, 41 R187). -/

namespace Sys2Proof.Machine

open Sys2Proof Sys2Proof.Safety

/-! ### The payload (41 R187 steps 1 to 7) -/

/-- WRITE_FLASH before its payload: dispatched, and the count cleared (41 R187 step 1). -/
def writeBegun (lba : Word) (s : State) : State :=
  { beginCommand (.writeFlash lba) s with wrCnt := 0 }

/-- WRITE_FLASH once it has taken what is queued of its payload. -/
def payloadTaken (lba : Word) (s : State) : State :=
  absorbed (s.rxQueue.take 528) (s.rxQueue.drop 528) (writeBegun lba s)

/-- The payload receive takes what is queued, up to the end of the payload. -/
theorem takePayload_queue {s : State} (h : s.wrCnt ≤ 528) :
    takePayload s.rxQueue s = absorbed (s.rxQueue.take (528 - s.wrCnt)) (s.rxQueue.drop (528 - s.wrCnt)) s := by
  have cut := List.take_append_drop (528 - s.wrCnt) s.rxQueue
  have taken : (s.rxQueue.take (528 - s.wrCnt)).length = min (528 - s.wrCnt) s.rxQueue.length := List.length_take
  have ends : s.rxQueue.drop (528 - s.wrCnt) = [] ∨ s.wrCnt + (s.rxQueue.take (528 - s.wrCnt)).length = 528 := by
    by_cases long : 528 - s.wrCnt ≤ s.rxQueue.length
    · exact .inr (by omega)
    · exact .inl (List.drop_eq_nil_of_le (by omega))
  have absorbs := takePayload_eq _ _ s cut.symm (by omega) ends
  rwa [cut] at absorbs

/-- WRITE_FLASH takes the payload, as far as it is queued, and then decides. -/
theorem exec_writeFlash (lba : Word) (s : State) : exec (.writeFlash lba) s = .next (payloadDecide (payloadTaken lba s)) :=
  congrArg (fun u => Host.Outcome.next (payloadDecide u))
    (takePayload_queue (s := writeBegun lba s) (Nat.zero_le _))

theorem payloadTaken_wrCnt (lba : Word) (s : State) : (payloadTaken lba s).wrCnt = min 528 s.rxQueue.length :=
  (Nat.zero_add _).trans List.length_take

theorem payloadTaken_visible (lba : Word) (s : State) :
    (payloadTaken lba s).visible = s.visible ++ (s.rxQueue.take 528).map Event.recv := visible_recv rfl

theorem payloadTaken_answer (lba : Word) (s : State) : (payloadTaken lba s).answer = s.answer := rfl
theorem payloadTaken_params (lba : Word) (s : State) : (payloadTaken lba s).params = s.params := rfl
theorem payloadTaken_rxQueue (lba : Word) (s : State) : (payloadTaken lba s).rxQueue = s.rxQueue.drop 528 := rfl
theorem payloadTaken_curLba (lba : Word) (s : State) : (payloadTaken lba s).curLba = lba := rfl

/-- The payload is loaded from the start of the write buffer, over the first of its bytes. -/
theorem payloadTaken_wrBuf (lba : Word) (s : State) :
    (payloadTaken lba s).wrBuf.toList
      = s.rxQueue.take 528 ++ s.wrBuf.toList.drop (s.rxQueue.take 528).length := by
  have short : (s.rxQueue.take 528).length ≤ 528 := List.length_take_le _ _
  apply List.ext_getElem
  · simp only [Vector.length_toList, List.length_append, List.length_drop]
    omega
  · intro i h₁ h₂
    have hi : i < 528 := by simpa using h₁
    have get : (payloadTaken lba s).wrBuf = loadBytes s.wrBuf 0 (s.rxQueue.take 528) := rfl
    simp only [get, Vector.getElem_toList, loadBytes_get _ _ _ _ hi, Nat.zero_le, true_and, Nat.zero_add, Nat.sub_zero]
    by_cases loaded : i < (s.rxQueue.take 528).length
    · rw [dif_pos loaded, List.getElem_append_left loaded]
    · rw [dif_neg loaded, List.getElem_append_right (by omega), List.getElem_drop, Vector.getElem_toList]
      congr 1
      omega

/-- With the whole payload queued the write goes on (41 R187 step 8). -/
theorem exec_writeFlash_of_complete (lba : Word) {s : State} (h : 528 ≤ s.rxQueue.length) :
    exec (.writeFlash lba) s = .next (finishWrite (payloadTaken lba s)) := by
  rw [exec_writeFlash, payloadDecide, if_neg (by rw [payloadTaken_wrCnt, payloadBytes]; omega)]

/-- With a part of it queued and the channel closed it is abandoned (41 R187 steps 4 to 6). -/
theorem exec_writeFlash_of_closed (lba : Word) {s : State} (h : s.rxQueue.length < 528) (closed : s.rxClosed = true) :
    exec (.writeFlash lba) s = .next (abandonPayload (payloadTaken lba s)) := by
  have closed' : (payloadTaken lba s).rxClosed = true := closed
  rw [exec_writeFlash, payloadDecide, if_pos (by rw [payloadTaken_wrCnt, payloadBytes]; omega), if_pos closed']

/-- With a part of it queued and the channel open it is waited for (70 R302). -/
theorem exec_writeFlash_of_open (lba : Word) {s : State} (h : s.rxQueue.length < 528) (isOpen : s.rxClosed = false) :
    exec (.writeFlash lba) s = .next (goto [.recvPayload] (payloadTaken lba s)) := by
  have isOpen' : ¬ (payloadTaken lba s).rxClosed = true := Bool.eq_false_iff.1 isOpen
  rw [exec_writeFlash, payloadDecide, if_pos (by rw [payloadTaken_wrCnt, payloadBytes]; omega), if_neg isOpen']

/-! ### A payload cut short, and one that is incomplete -/

theorem abandonPayload_eq (s : State) :
    abandonPayload s = { s with wrCnt := 0, trace := .log (.payloadIncomplete s.wrCnt) :: s.trace } := rfl

theorem visible_abandonPayload (s : State) : (abandonPayload s).visible = s.visible :=
  (visible_of_trace (es := [.log (.payloadIncomplete s.wrCnt)]) rfl).trans (List.append_nil _)

/-- Settles O20: what is queued is taken, the abandoning is logged, and the count is cleared. -/
theorem truncatedPayloadIsAbandoned : Obligations.TruncatedPayloadIsAbandoned := by
  intro lba s closed short
  have whole : s.rxQueue.take 528 = s.rxQueue := List.take_of_length_le (by omega)
  have logged := visible_abandonPayload (payloadTaken lba s)
  have visible : (abandonPayload (payloadTaken lba s)).visible = s.visible ++ s.rxQueue.map Event.recv := by
    rw [logged, payloadTaken_visible, whole]
  refine ⟨_, exec_writeFlash_of_closed lba short closed, visible, ?_, ?_, rfl, ?_, ?_⟩
  · rw [tx_of_visible visible]
    simp [List.flatMap_map, eventBytes]
  · rw [regTrace_of_visible visible]
    simp [isTransaction]
  · rw [abandonPayload_eq]
    exact (payloadTaken_rxQueue lba s).trans (List.drop_eq_nil_of_le short.le)
  · rw [abandonPayload_eq]
    rfl

/-- In the payload receive, with no byte queued and the channel open, the step leaves the state as it is (70 R302). -/
theorem step_waiting_for_payload {s : State} (h : AtOp .recvPayload s) (pc : s.pc = [.recvPayload]) (part : s.wrCnt < 528)
    (isOpen : s.rxClosed = false) (idle : s.rxQueue = []) : step s = .next s := by
  rw [step_procedure h nofun]
  simp only [runProcedure, pc, payloadReceive, goto_rxQueue, idle, takePayload, payloadDecide, goto_wrCnt, payloadBytes, part,
    if_true, goto_rxClosed, isOpen, Bool.false_eq_true, if_false]
  exact congrArg Host.Outcome.next (congrArg (goto · s) pc.symm)

/-- Settles O21: the payload receive takes what there is and waits; with nothing new it stays. -/
theorem incompletePayloadStalls : Obligations.IncompletePayloadStalls := by
  refine ⟨fun lba s isOpen short => ?_, fun s n hp hm hs pc part isOpen idle => ?_⟩
  · have whole : s.rxQueue.take 528 = s.rxQueue := List.take_of_length_le (by omega)
    have visible : (goto [.recvPayload] (payloadTaken lba s)).visible = s.visible ++ s.rxQueue.map Event.recv := by
      have taken := payloadTaken_visible lba s
      rwa [whole] at taken
    refine ⟨_, exec_writeFlash_of_open lba short isOpen, rfl, visible, ?_, ?_, ?_,
      (payloadTaken_rxQueue lba s).trans (List.drop_eq_nil_of_le short.le), ?_⟩
    · rw [tx_of_visible visible]
      simp [List.flatMap_map, eventBytes]
    · rw [regTrace_of_visible visible]
      simp [isTransaction]
    · exact (payloadTaken_wrCnt lba s).trans (by omega)
    · have loaded := payloadTaken_wrBuf lba s
      rw [whole] at loaded
      exact (congrArg (List.take _) loaded).trans List.take_left
  · have atOp : AtOp .recvPayload s := ⟨hp, hm, hs, held_of_pc pc rfl, [], pc⟩
    exact run_of_fixed (step_waiting_for_payload atOp pc part isOpen idle) n

/-! ### A payload in two parts -/

/-- The state with another receive queue. -/
def withQueue (q : List Byte) (s : State) : State :=
  { s with rxQueue := q }

/-- Two parts taken one after the other are the two taken at once. -/
theorem absorbed_append (p q r x y : List Byte) (s : State) :
    absorbed (p ++ q) r s = absorbed q r (withQueue x (absorbed p y s)) := by
  simp [absorbed, withQueue, loadBytes_append, Nat.add_assoc]

theorem payloadTaken_withQueue (lba : Word) (q : List Byte) (s : State) :
    payloadTaken lba (withQueue q s) = absorbed (q.take 528) (q.drop 528) (writeBegun lba s) := rfl

/-- With the rest of the payload sent, what the payload receive takes is the payload at once (41 R187). -/
theorem payloadTaken_hostSend (lba : Word) {s : State} (more : List Byte) (short : s.rxQueue.length < 528)
    (isOpen : s.rxClosed = false) :
    takePayload more (withQueue more (payloadTaken lba s)) = payloadTaken lba (hostSend more s) := by
  have part : (withQueue more (payloadTaken lba s)).wrCnt = s.rxQueue.length := (payloadTaken_wrCnt lba s).trans (by omega)
  have whole : s.rxQueue.take 528 = s.rxQueue := List.take_of_length_le (by omega)
  have takes := takePayload_queue (s := withQueue more (payloadTaken lba s)) (by omega)
  rw [part] at takes
  calc takePayload more (withQueue more (payloadTaken lba s))
    _ = absorbed (more.take (528 - s.rxQueue.length)) (more.drop (528 - s.rxQueue.length))
          (withQueue more (payloadTaken lba s)) := takes
    _ = absorbed (s.rxQueue ++ more.take (528 - s.rxQueue.length)) (more.drop (528 - s.rxQueue.length))
          (writeBegun lba s) := by rw [payloadTaken, whole, ← absorbed_append]
    _ = payloadTaken lba (withQueue (s.rxQueue ++ more) s) := by
        rw [payloadTaken_withQueue, List.take_append, List.drop_append, whole, List.drop_eq_nil_of_le short.le,
          List.nil_append]
    _ = payloadTaken lba (hostSend more s) := by
        rw [hostSend, if_neg (Bool.eq_false_iff.1 isOpen)]
        rfl

/-- Settles O22: the second part is absorbed behind the first, and the pc is the loop top again, as it was before the command. -/
theorem payloadInPartsIsPayloadAtOnce : Obligations.PayloadInPartsIsPayloadAtOnce := by
  intro lba s t more hp hm hs pc isOpen short h
  obtain rfl := Host.Outcome.next.inj ((exec_writeFlash_of_open lba short isOpen).symm.trans h)
  have emptied : (payloadTaken lba s).rxQueue = [] := by rw [payloadTaken_rxQueue, List.drop_eq_nil_of_le short.le]
  have arrived : hostSend more (goto [.recvPayload] (payloadTaken lba s))
      = goto [.recvPayload] (withQueue more (payloadTaken lba s)) := by
    rw [hostSend, if_neg (by exact Bool.eq_false_iff.1 isOpen), goto_rxQueue, emptied]
    rfl
  have back : goto [.loopTop] (withQueue more (payloadTaken lba s)) = withQueue more (payloadTaken lba s) :=
    congrArg (fun k => goto k (withQueue more (payloadTaken lba s))) pc.symm
  have atOp : AtOp .recvPayload (goto [.recvPayload] (withQueue more (payloadTaken lba s))) :=
    ⟨hp, hm, hs, held_of_pc rfl rfl, [], rfl⟩
  rw [arrived, step_procedure atOp nofun, exec_writeFlash, ← payloadTaken_hostSend lba more short isOpen]
  simp only [runProcedure, goto_pc, payloadReceive, Reach.goto_goto, back]
  rfl

/-! ### A whole payload: the ends of `write_block` and their replies (41 R187 steps 8 to 10) -/

/-- The ends of a WRITE_FLASH differ in the bytes sent: the success word, or the error word. -/
def writeBytes (o : Option Site) (v : State) : List Byte :=
  match o with
  | none => le32 0#32
  | some _ => le32 v.err

/-- The waits of `write_block`. -/
def writeSite : Option Site → Bool
  | some .read => false
  | some .tick => false
  | _ => true

/-- Whatever its end, a WRITE_FLASH sends once and empties the payload count (41 R187 steps 9 and 10, 60 R269). -/
theorem reply_writeReply {o : Option Site} (h : writeSite o = true) (v : State) :
    reply writeReply (o, v) = { send (writeBytes o v) v with wrCnt := 0 } := by
  rcases o with _ | w
  · rfl
  · cases w with
    | read | tick => cases h
    | erase | fill | addr | commit => rfl

theorem configOf_payloadTaken (lba : Word) (s : State) : configOf (payloadTaken lba s) = configOf s := rfl

theorem configReads_payloadTaken (lba : Word) (s : State) : configReads (payloadTaken lba s) = configReads s := rfl

theorem configEvents_payloadTaken (lba : Word) (s : State) : configEvents (payloadTaken lba s) = configEvents s := rfl

/-- `WriteBegins` looks at the parameters, the cache and the answers alone. -/
theorem writeBegins_payloadTaken {lba : Word} {s : State} {n : Nat} {es : List Event} (h : WriteBegins s lba n es) :
    WriteBegins (payloadTaken lba s) lba n es := by
  simpa only [WriteBegins, configOf_payloadTaken, configReads_payloadTaken, configEvents_payloadTaken,
    payloadTaken_params, payloadTaken_answer] using h

/-- A WRITE_FLASH with its whole payload queued, by the end of its `write_block`. -/
theorem writeFlash_ends {lba : Word} {s v : State} {payload rest : List Byte} {o : Option Site} {n : Nat} {es : List Event}
    (hq : s.rxQueue = payload ++ rest) (h528 : payload.length = 528)
    (ends : writeBlock lba (payloadTaken lba s) = (o, v)) (site : writeSite o = true)
    (written : Written (payloadTaken lba s) v n es) :
    ∃ t, exec (.writeFlash lba) s = .next t
      ∧ t.visible = s.visible ++ payload.map Event.recv ++ es ++ [.send (writeBytes o v)]
      ∧ t.err = v.err ∧ t.wrBuf = (payloadTaken lba s).wrBuf ∧ t.wrBuf.toList = payload ∧ t.wrCnt = 0 ∧ t.rxQueue = rest
      ∧ t.cfgValid = true ∧ t.cfgValue = configOf s := by
  have take : s.rxQueue.take 528 = payload := by rw [hq, ← h528, List.take_left]
  have drop : s.rxQueue.drop 528 = rest := by rw [hq, ← h528, List.drop_left]
  have loaded : (payloadTaken lba s).wrBuf.toList = payload := by
    rw [payloadTaken_wrBuf, take, List.drop_eq_nil_of_le (by simp [h528]), List.append_nil]
  have queue : v.rxQueue = rest := (rest_rxQueue written.rest).trans drop
  have visible : (send (writeBytes o v) v).visible
      = s.visible ++ payload.map Event.recv ++ es ++ [.send (writeBytes o v)] := by
    rw [visible_send, written.visible, payloadTaken_visible, take]
  refine ⟨{ send (writeBytes o v) v with wrCnt := 0 }, ?_, visible, rfl, written.wrBuf, ?_, rfl, queue,
    rest_cfgValid written.rest, rest_cfgValue written.rest⟩
  · rw [exec_writeFlash_of_complete lba (by rw [hq, List.length_append]; omega), finishWrite, payloadTaken_curLba, ends,
      reply_writeReply site]
  · rw [← loaded]
    exact congrArg Vector.toList written.wrBuf

end Sys2Proof.Machine
end

section
/-! PROOF. The ends of a WRITE_FLASH with its whole payload queued, and what its transactions are (40 R137 to R139). -/

namespace Sys2Proof.Machine

open Sys2Proof Sys2Proof.Safety

/-! ### The ends of a WRITE_FLASH -/

@[simp] theorem length_fillEvents (a : Nat → Word) (buf : Vector Byte 528) : (fillEvents a buf).length = 267 := by
  simp [fillEvents, clearEvents, List.length_flatMap, sectorWords]

@[simp] theorem length_addrEvents (lba : Word) : (addrEvents lba).length = 1 := rfl

@[simp] theorem length_commitEvents : commitEvents.length = 3 := rfl

@[simp] theorem length_eraseSetupEvents (a : Nat → Word) (lba : Word) : (eraseSetupEvents a lba).length = 8 := rfl

/-- 271 transactions and the polls of the three waits (40 R139). -/
theorem length_programEvents (a : Nat → Word) (buf : Vector Byte 528) (lba : Word) (p q r : Nat) :
    (programEvents a buf lba p q r).length = 271 + (p + 1) + (q + 1) + (r + 1) := by
  simp only [programEvents, List.length_append, length_fillEvents, length_pollEvents, length_addrEvents, length_commitEvents]
  omega

theorem programEvents_transactions (a : Nat → Word) (buf : Vector Byte 528) (lba : Word) (p q r : Nat) :
    ∀ e ∈ programEvents a buf lba p q r, isTransaction e = true := by
  simp only [programEvents, List.forall_mem_append]
  exact ⟨⟨⟨fillEvents_transactions _ _, pollEvents_transactions _ _⟩, addrEvents_transactions _, pollEvents_transactions _ _⟩,
    commitEvents_transactions, pollEvents_transactions _ _⟩

theorem writeBegins_transactions {s : State} {lba : Word} {n : Nat} {es : List Event} (h : WriteBegins s lba n es) :
    ∀ e ∈ es, isTransaction e = true := by
  obtain ⟨-, -, rfl⟩ | ⟨-, p, -, -, rfl⟩ := h
  · exact configEvents_transactions s
  · simp only [List.forall_mem_append]
    exact ⟨configEvents_transactions s, eraseSetupEvents_transactions _ _, pollEvents_transactions _ _⟩

/-- The register trace of a WRITE_FLASH: its transactions alone. -/
theorem regTrace_of_write {s t : State} {payload : List Byte} {es : List Event} {bytes : List Byte}
    (ht : ∀ e ∈ es, isTransaction e = true)
    (h : t.visible = s.visible ++ payload.map Event.recv ++ es ++ [.send bytes]) : t.regTrace = s.regTrace ++ es := by
  simp only [List.append_assoc] at h
  rw [regTrace_of_visible h, List.filter_append, List.filter_append, List.filter_eq_self.2 ht]
  simp [isTransaction]

/-- Settles O16: the payload, then what comes before the fill, then the program's transactions, then the success word. -/
theorem writeFlashProgramsTheSector : Obligations.WriteFlashProgramsTheSector := by
  intro lba s payload rest n p q r es hq h528 begins fill addr commit
  obtain ⟨v, hv, written⟩ := writeBlock_ok (writeBegins_payloadTaken begins) (p := p) (q := q) (r := r)
    (by rwa [payloadTaken_answer, payloadTaken_params]) (by rwa [payloadTaken_answer, payloadTaken_params])
    (by rwa [payloadTaken_answer, payloadTaken_params])
  rw [payloadTaken_answer] at written
  obtain ⟨t, hexec, visible, -, hbuf, loaded, count, queue, valid, value⟩ := writeFlash_ends hq h528 hv rfl written
  rw [← hbuf] at visible
  have reg := regTrace_of_write (List.forall_mem_append.2 ⟨writeBegins_transactions begins, programEvents_transactions _ _ _ _ _ _⟩)
    visible
  refine ⟨t, hexec, ?_, loaded, count, queue, valid, value, ?_⟩
  · rw [visible, ← List.append_assoc _ es]
    rfl
  · rw [reg, List.length_append, List.length_append, length_programEvents]
    omega

/-- Settles O17: the erase's failure is the end of the write. -/
theorem writeFlashReportsAFailedErase : Obligations.WriteFlashReportsAFailedErase := by
  intro lba s payload rest hq h528 boundary never
  obtain ⟨v, hv, written, err⟩ := writeBlock_eraseFails (s := payloadTaken lba s) (lba := lba)
    (by rwa [payloadTaken_params, configOf_payloadTaken])
    (by rwa [payloadTaken_answer, payloadTaken_params, configReads_payloadTaken])
  rw [payloadTaken_answer, payloadTaken_params, configReads_payloadTaken, configEvents_payloadTaken] at written
  rw [payloadTaken_answer, payloadTaken_params, configReads_payloadTaken] at err
  obtain ⟨t, hexec, visible, err', -, -, count, queue, -⟩ := writeFlash_ends hq h528 hv rfl written
  refine ⟨t, hexec, ?_, err'.trans err, count, queue⟩
  rw [visible, err']
  simp only [List.append_assoc]
  rfl

/-- A write that fails at a wait ends with the error word; its fill is of the payload, which is still in the write buffer. -/
theorem writeFlash_fails {lba word : Word} {s v : State} {payload rest : List Byte} {w : Site} {n : Nat} {es : List Event}
    {shown : State → List Event} (hq : s.rxQueue = payload ++ rest) (h528 : payload.length = 528)
    (ends : writeBlock lba (payloadTaken lba s) = (some w, v)) (site : writeSite (some w) = true)
    (written : Written (payloadTaken lba s) v n es) (err : v.err = word)
    (form : ∀ t, t.wrBuf = (payloadTaken lba s).wrBuf → t.err = v.err →
      shown t = s.visible ++ payload.map Event.recv ++ es ++ [.send (le32 v.err)]) :
    ∃ t, exec (.writeFlash lba) s = .next t ∧ t.visible = shown t ∧ t.err = word ∧ t.wrBuf.toList = payload ∧ t.wrCnt = 0
      ∧ t.rxQueue = rest := by
  obtain ⟨t, hexec, visible, err', hbuf, loaded, count, queue, -⟩ := writeFlash_ends hq h528 ends site written
  exact ⟨t, hexec, visible.trans (form t hbuf err').symm, err'.trans err, loaded, count, queue⟩

/-- Settles O18: each wait that fails first is the end of the write. -/
theorem writeFlashReportsAFailedWait : Obligations.WriteFlashReportsAFailedWait := by
  intro lba s payload rest n es hq h528 begins
  have begins' := writeBegins_payloadTaken begins
  refine ⟨fun never => ?_, fun p fill => ⟨fun never => ?_, fun q addr never => ?_⟩⟩
  · obtain ⟨v, hv, written, err⟩ := writeBlock_fillFails begins' (by rwa [payloadTaken_answer, payloadTaken_params])
    rw [payloadTaken_answer, payloadTaken_params] at written err
    refine writeFlash_fails hq h528 hv rfl written err fun t buf err' => ?_
    rw [buf, err']
    simp only [List.append_assoc]
  · obtain ⟨v, hv, written, err⟩ := writeBlock_addrFails begins' (p := p)
      (by rwa [payloadTaken_answer, payloadTaken_params]) (by rwa [payloadTaken_answer, payloadTaken_params])
    rw [payloadTaken_answer, payloadTaken_params] at written err
    refine writeFlash_fails hq h528 hv rfl written err fun t buf err' => ?_
    rw [buf, err']
    simp only [List.append_assoc]
  · obtain ⟨v, hv, written, err⟩ := writeBlock_commitFails begins' (p := p) (q := q)
      (by rwa [payloadTaken_answer, payloadTaken_params]) (by rwa [payloadTaken_answer, payloadTaken_params])
      (by rwa [payloadTaken_answer, payloadTaken_params])
    rw [payloadTaken_answer, payloadTaken_params] at written err
    refine writeFlash_fails hq h528 hv rfl written err fun t buf err' => ?_
    rw [buf, err']
    simp only [List.append_assoc]

end Sys2Proof.Machine
end

section
/-! PROOF. What the transactions of a WRITE_FLASH are, however it ends: the erase's last strobe, the words written, and their
number (40 R137, 20 R75, 70 R301). -/

namespace Sys2Proof.Machine

open Sys2Proof Sys2Proof.Safety

/-! ### Transactions that are neither the erase's last strobe nor a word of the fill -/

/-- A transaction that writes neither 0x05 to REG_CMD nor anything to REG_DATA. -/
def plain : Event → Bool
  | .regRead _ _ => true
  | .regWrite a v => !(a == 0x08#8 && v == 0x05#32) && a != 0x10#8
  | _ => false

theorem plain_pollEvents (a : Nat → Word) (n : Nat) : ∀ e ∈ pollEvents a n, plain e = true := by
  simp [pollEvents, plain]

theorem plain_timeoutEvents (e : ErrStatusSource) (a : Nat → Word) (T : Nat) : ∀ x ∈ timeoutEvents e a T, plain x = true := by
  refine List.forall_mem_append.2 ⟨plain_pollEvents _ _, ?_⟩
  cases e <;> simp [errorEvents, plain]

theorem plain_addrEvents (lba : Word) : ∀ e ∈ addrEvents lba, plain e = true := by
  simp [addrEvents, plain]

theorem plain_commitEvents : ∀ e ∈ commitEvents, plain e = true := by decide

theorem plain_configEvents (s : State) : ∀ e ∈ configEvents s, plain e = true := by
  unfold configEvents
  split_ifs <;> simp [plain]

/-- The last write of the erase handshake (40 R138). -/
def eraseStrobe : Event := .regWrite 0x08#8 0x05#32

theorem eraseStrobe_not_mem {es : List Event} (h : ∀ e ∈ es, plain e = true) : eraseStrobe ∉ es :=
  fun mem => absurd (h _ mem) (by decide)

theorem wordsWritten_append (es fs : List Event) : wordsWritten (es ++ fs) = wordsWritten es ++ wordsWritten fs :=
  List.filterMap_append

theorem wordsWritten_plain {es : List Event} (h : ∀ e ∈ es, plain e = true) : wordsWritten es = [] := by
  rw [wordsWritten, List.filterMap_eq_nil_iff]
  intro e he
  have hp := h e he
  cases e with
  | regWrite a v =>
    have notData : a ≠ 0x10#8 := by
      rintro rfl
      simp [plain] at hp
    simp [notData]
  | _ => rfl

/-! ### The fill and the erase -/

theorem eraseStrobe_not_mem_fillEvents (a : Nat → Word) (buf : Vector Byte 528) : eraseStrobe ∉ fillEvents a buf := by
  simp [fillEvents, clearEvents, eraseStrobe]

theorem eraseStrobe_mem_eraseSetupEvents (a : Nat → Word) (lba : Word) : eraseStrobe ∈ eraseSetupEvents a lba := by
  simp [eraseSetupEvents, eraseStrobe]

theorem wordsWritten_eraseSetupEvents (a : Nat → Word) (lba : Word) : wordsWritten (eraseSetupEvents a lba) = [] := by
  simp [eraseSetupEvents, clearEvents, wordsWritten]

theorem wordsWritten_fillEvents (a : Nat → Word) (buf : Vector Byte 528) :
    wordsWritten (fillEvents a buf) = (List.range 132).map (wordAt buf) := by
  have words (n : Nat) : wordsWritten ((List.range n).flatMap fun k =>
      [.regWrite 0x10#8 (wordAt buf k), .regWrite 0x08#8 0x01#32]) = (List.range n).map (wordAt buf) := by
    induction n with
    | zero => rfl
    | succ n ih =>
      rw [List.range_succ, List.flatMap_append, wordsWritten_append, ih, List.map_append]
      rfl
  rw [fillEvents, wordsWritten_append, words, sectorWords]
  rfl

/-! ### A whole write -/

/-- What the transactions `es` of a WRITE_FLASH of the payload `buf` are. -/
structure WriteTrace (s : State) (lba : Word) (buf : Vector Byte 528) (es : List Event) : Prop where
  transactions : ∀ e ∈ es, isTransaction e = true
  erase : eraseStrobe ∈ es ↔ lba.toNat % sectorsInBlock s.params (configOf s) = 0
  words : wordsWritten es = [] ∨ wordsWritten es = (List.range 132).map (wordAt buf)
  length : es.length ≤ 1 + 8 + (s.params.waitBudget.toNat + 1) + 271 + 3 * (s.params.waitBudget.toNat + 1) + 1

theorem length_configEvents_le (s : State) : (configEvents s).length ≤ 1 := by
  unfold configEvents
  split_ifs <;> simp

/-- A write whose erase fails. -/
theorem writeTrace_erase_fails {s : State} {lba : Word} {buf : Vector Byte 528} {e : ErrStatusSource} {a b : Nat → Word}
    (boundary : lba.toNat % sectorsInBlock s.params (configOf s) = 0) :
    WriteTrace s lba buf (configEvents s ++ (eraseSetupEvents a lba ++ timeoutEvents e b s.params.waitBudget.toNat)) where
  transactions := by
    simp only [List.forall_mem_append]
    exact ⟨configEvents_transactions s, eraseSetupEvents_transactions _ _, timeoutEvents_transactions _ _ _⟩
  erase := by simp [eraseStrobe_mem_eraseSetupEvents, boundary]
  words := .inl (by simp [wordsWritten_append, wordsWritten_plain (plain_configEvents s), wordsWritten_eraseSetupEvents,
    wordsWritten_plain (plain_timeoutEvents _ _ _)])
  length := by
    have config := length_configEvents_le s
    have error := errorReads_le e
    simp only [List.length_append, length_eraseSetupEvents, length_timeoutEvents]
    omega

/-- What a write has made before its fill: an erase exactly on the boundary. -/
theorem writeBegins_trace {s : State} {lba : Word} {n : Nat} {es : List Event} (h : WriteBegins s lba n es) :
    (eraseStrobe ∈ es ↔ lba.toNat % sectorsInBlock s.params (configOf s) = 0) ∧ wordsWritten es = []
      ∧ es.length ≤ 1 + 8 + (s.params.waitBudget.toNat + 1) := by
  have config := length_configEvents_le s
  have noWords := wordsWritten_plain (plain_configEvents s)
  obtain ⟨inside, -, rfl⟩ | ⟨boundary, p, ready, -, rfl⟩ := h
  · exact ⟨iff_of_false (eraseStrobe_not_mem (plain_configEvents s)) inside, noWords, by omega⟩
  · have polls := ready.1
    refine ⟨by simp [eraseStrobe_mem_eraseSetupEvents, boundary], ?_, ?_⟩
    · simp [wordsWritten_append, noWords, wordsWritten_eraseSetupEvents, wordsWritten_plain (plain_pollEvents _ _)]
    · simp only [List.length_append, length_eraseSetupEvents, length_pollEvents]
      omega

/-- A write that comes as far as its fill, whatever plain transactions follow. -/
theorem writeTrace_fill {s : State} {lba : Word} {buf : Vector Byte 528} {n : Nat} {es tail : List Event} {a : Nat → Word}
    (h : WriteBegins s lba n es) (ht : ∀ e ∈ tail, isTransaction e = true) (hp : ∀ e ∈ tail, plain e = true)
    (hl : tail.length ≤ 4 + 3 * (s.params.waitBudget.toNat + 1) + 1) :
    WriteTrace s lba buf (es ++ (fillEvents a buf ++ tail)) := by
  obtain ⟨erase, noWords, short⟩ := writeBegins_trace h
  constructor
  · simp only [List.forall_mem_append]
    exact ⟨writeBegins_transactions h, fillEvents_transactions _ _, ht⟩
  · simp [erase, eraseStrobe_not_mem_fillEvents, eraseStrobe_not_mem hp]
  · exact .inr (by rw [wordsWritten_append, wordsWritten_append, noWords, wordsWritten_fillEvents, wordsWritten_plain hp,
      List.nil_append, List.append_nil])
  · simp only [List.length_append, length_fillEvents]
    omega

/-- However a write goes, these are its transactions. -/
theorem writeBlock_trace (s : State) (lba : Word) :
    ∃ o v n es, writeBlock lba s = (o, v) ∧ writeSite o = true ∧ Written s v n es ∧ WriteTrace s lba s.wrBuf es := by
  have error := errorReads_le s.params.errStatusSource
  obtain ⟨boundary, never⟩ | ⟨n, es, begins, ways⟩ := writeBlock_ways s lba
  · obtain ⟨v, hv, written, -⟩ := writeBlock_eraseFails boundary never
    exact ⟨_, v, _, _, hv, rfl, written, writeTrace_erase_fails boundary⟩
  · obtain never | ⟨p, fill, never | ⟨q, addr, never | ⟨r, commit⟩⟩⟩ := ways
    · obtain ⟨v, hv, written, -⟩ := writeBlock_fillFails begins never
      exact ⟨_, v, _, _, hv, rfl, written, writeTrace_fill begins (timeoutEvents_transactions _ _ _)
        (plain_timeoutEvents _ _ _) (by rw [length_timeoutEvents]; omega)⟩
    · obtain ⟨v, hv, written, -⟩ := writeBlock_addrFails begins fill never
      have := fill.1
      refine ⟨_, v, _, _, hv, rfl, written, ?_⟩
      rw [List.append_assoc (fillEvents _ _)]
      refine writeTrace_fill begins ?_ ?_ ?_
      · simp only [List.forall_mem_append]
        exact ⟨pollEvents_transactions _ _, addrEvents_transactions _, timeoutEvents_transactions _ _ _⟩
      · simp only [List.forall_mem_append]
        exact ⟨plain_pollEvents _ _, plain_addrEvents _, plain_timeoutEvents _ _ _⟩
      · simp only [List.length_append, length_pollEvents, length_addrEvents, length_timeoutEvents]
        omega
    · obtain ⟨v, hv, written, -⟩ := writeBlock_commitFails begins fill addr never
      have := fill.1
      have := addr.1
      refine ⟨_, v, _, _, hv, rfl, written, ?_⟩
      simp only [List.append_assoc (fillEvents _ _)]
      refine writeTrace_fill begins ?_ ?_ ?_
      · simp only [List.forall_mem_append]
        exact ⟨⟨pollEvents_transactions _ _, addrEvents_transactions _, pollEvents_transactions _ _⟩,
          commitEvents_transactions, timeoutEvents_transactions _ _ _⟩
      · simp only [List.forall_mem_append]
        exact ⟨⟨plain_pollEvents _ _, plain_addrEvents _, plain_pollEvents _ _⟩, plain_commitEvents,
          plain_timeoutEvents _ _ _⟩
      · simp only [List.length_append, length_pollEvents, length_addrEvents, length_commitEvents, length_timeoutEvents]
        omega
    · obtain ⟨v, hv, written⟩ := writeBlock_ok begins fill addr commit
      have := fill.1
      have := addr.1
      have := commit.1
      refine ⟨_, v, _, _, hv, rfl, written, ?_⟩
      simp only [programEvents, List.append_assoc (fillEvents _ _)]
      refine writeTrace_fill begins ?_ ?_ ?_
      · simp only [List.forall_mem_append]
        exact ⟨⟨pollEvents_transactions _ _, addrEvents_transactions _, pollEvents_transactions _ _⟩,
          commitEvents_transactions, pollEvents_transactions _ _⟩
      · simp only [List.forall_mem_append]
        exact ⟨⟨plain_pollEvents _ _, plain_addrEvents _, plain_pollEvents _ _⟩, plain_commitEvents,
          plain_pollEvents _ _⟩
      · simp only [List.length_append, length_pollEvents, length_addrEvents, length_commitEvents]
        omega

/-- A WRITE_FLASH with its whole payload queued: its transactions, whatever the answers. -/
theorem writeFlash_trace (lba : Word) {s : State} (h : 528 ≤ s.rxQueue.length) :
    ∃ t es, exec (.writeFlash lba) s = .next t ∧ t.regTrace = s.regTrace ++ es
      ∧ WriteTrace s lba (payloadTaken lba s).wrBuf es := by
  obtain ⟨o, v, n, es, hv, site, written, trace⟩ := writeBlock_trace (payloadTaken lba s) lba
  obtain ⟨t, hexec, visible, -⟩ := writeFlash_ends (List.take_append_drop 528 s.rxQueue).symm
    (List.length_take_of_le h) hv site written
  exact ⟨t, es, hexec, regTrace_of_write trace.transactions visible, trace.transactions, trace.erase, trace.words, trace.length⟩

/-! ### The erase-on-boundary test -/

theorem sectorsInBlock_mem (p : Params) (c : Word) : sectorsInBlock p c ∈ [32, 256, 512] := by
  rw [sectorsInBlock]
  cases blockSizeOf p (majorOf c) (minorOf c) <;> decide

/-- Settles O23: the erase's strobe is among the transactions exactly where the erase begins the write; and the sizes are powers of
two, which divide 0 and not 2^32 - 1. -/
theorem eraseExactlyOnTheBoundary : Obligations.EraseExactlyOnTheBoundary := by
  intro lba s h
  obtain ⟨t, es, hexec, reg, trace⟩ := writeFlash_trace lba h
  refine ⟨⟨t, hexec, ?_⟩, Nat.zero_mod _, ?_⟩
  · rw [reg, List.drop_left]
    exact trace.erase
  · have size := sectorsInBlock_mem s.params (configOf s)
    simp only [List.mem_cons, List.not_mem_nil, or_false] at size
    obtain size | size | size := size <;> rw [size] <;> decide

/-! ### What is written reads back -/

/-- Settles O24: where the fill was reached the words written are those of the payload, and their bytes are the payload; where it was
not, there are none and the premise fails. -/
theorem writtenSectorReadsBack : Obligations.WrittenSectorReadsBack := by
  intro lba lba' s t u payload rest p hq h528 hwrite ready answers
  have whole : 528 ≤ s.rxQueue.length := by rw [hq, List.length_append]; omega
  obtain ⟨t', es, hexec, reg, trace⟩ := writeFlash_trace lba whole
  obtain rfl := Host.Outcome.next.inj (hexec.symm.trans hwrite)
  rw [reg, List.drop_left] at answers
  have loaded : (payloadTaken lba s).wrBuf.toList = payload := by
    have taken : s.rxQueue.take 528 = payload := by rw [hq]; exact List.take_left' h528
    rw [payloadTaken_wrBuf, taken, List.drop_eq_nil_of_le (by simp [h528]), List.append_nil]
  have words : ∀ k < 132, wordAt (payloadTaken lba s).wrBuf k = u.answer (1 + (p + 1) + k) := by
    intro k hk
    have answer := answers k hk
    obtain none | some := trace.words
    · simp [none] at answer
    · simpa [some, hk] using answer
  have sector : sectorBytes (shift (1 + (p + 1)) u.answer) = payload := by
    rw [← loaded, ← sectorBytes_wordAt]
    refine List.flatMap_congr fun k hk => ?_
    rw [words k (List.mem_range.1 hk)]
    rfl
  obtain ⟨v, -, hread, stretch, -⟩ := readFlash_ok (lba := lba') ready
  have tx := tx_of_transactions_send (readEvents_transactions _ _ _) (stretch.visible_send (le32 0#32 ++ payload))
  have idle : (beginCommand (.readFlash lba') u).tx = u.tx := rfl
  rw [idle, ← List.append_assoc] at tx
  rw [sector] at hread
  exact ⟨_, hread, tx⟩

end Sys2Proof.Machine
end

section
/-! PROOF. What a command leaves unchanged (40_nand_engine.md, 41_dispatcher.md). -/

namespace Sys2Proof.Machine

open Sys2Proof Sys2Proof.Safety

/-! ### The commands that take no payload and arm no stream -/

/-- `t` with what a query, a read or an ignored command may change put back as in `s`. -/
def putBackQuery (s t : State) : State :=
  { t with
    trace := s.trace
    lastWrite := s.lastWrite
    regAnswers := s.regAnswers
    regDraws := s.regDraws
    t := s.t
    sLast := s.sLast
    tmp := s.tmp
    rdBuf := s.rdBuf
    err := s.err
    cfgValid := s.cfgValid
    cfgValue := s.cfgValue }

theorem getFlashConfig_frame (s : State) : putBackQuery s (getFlashConfig s) = s := by
  by_cases filled : s.cfgValid = true
  · rw [getFlashConfig_of_filled filled]
    rfl
  · rw [getFlashConfig_of_empty (Bool.eq_false_of_not_eq_true filled)]
    simp [putBackQuery, fire]

/-- But for WRITE_FLASH and READ_FLASH_STREAM a command leaves what its dispatch left, in all but the fields of a query. -/
theorem exec_query_frame {i : Instr} {s t : State} (h : exec i s = .next t) (notWrite : ∀ lba, i ≠ .writeFlash lba)
    (notStream : ∀ lba, i ≠ .readFlashStream lba) : putBackQuery s t = beginCommand i s := by
  have logged (hi : ignored i = true) : putBackQuery s t = beginCommand i s := by
    obtain ⟨c, hexec⟩ := exec_ignored hi s
    obtain rfl := Host.Outcome.next.inj (h.symm.trans hexec)
    rfl
  cases i with
  | writeFlash lba => exact absurd rfl (notWrite lba)
  | readFlashStream lba => exact absurd rfl (notStream lba)
  | getVersion lba =>
    obtain rfl := Host.Outcome.next.inj (h.symm.trans (exec_getVersion lba s))
    rfl
  | getFlashConfig lba =>
    have frame := getFlashConfig_frame (beginCommand (.getFlashConfig lba) s)
    rw [exec_getFlashConfig] at h
    obtain rfl := Host.Outcome.next.inj h
    generalize getFlashConfig (beginCommand (.getFlashConfig lba) s) = u at frame
    exact frame
  | readFlash lba =>
    have rest := readBlock_scrub .read lba (beginCommand (.readFlash lba) s)
    obtain ⟨bytes, sends⟩ := reply_readReply _ (readBlock_site .read lba (beginCommand (.readFlash lba) s))
    rw [exec_readFlash, sends] at h
    obtain rfl := Host.Outcome.next.inj h
    generalize (readBlock .read lba (beginCommand (.readFlash lba) s)).2 = u at rest
    exact congrArg (putBackQuery s) (frame_of_scrub rest)
  | rebootToBootloader | reservedEmmc | reservedDaughterboard | unrecognized => exact logged rfl

/-! ### WRITE_FLASH, however it ends -/

/-- The three ways a WRITE_FLASH goes (41 R187): the payload complete, cut short, or waited for. -/
inductive WriteGoes (lba : Word) (s t : State) : Prop where
  | complete {o : Option Site} {v : State} {n : Nat} {es : List Event} (whole : 528 ≤ s.rxQueue.length)
      (ends : writeBlock lba (payloadTaken lba s) = (o, v)) (written : Written (payloadTaken lba s) v n es)
      (trace : WriteTrace (payloadTaken lba s) lba (payloadTaken lba s).wrBuf es)
      (replied : t = { send (writeBytes o v) v with wrCnt := 0 })
  | cutShort (part : s.rxQueue.length < 528) (closed : s.rxClosed = true) (abandoned : t = abandonPayload (payloadTaken lba s))
  | waits (part : s.rxQueue.length < 528) (isOpen : s.rxClosed = false) (stays : t = goto [.recvPayload] (payloadTaken lba s))

theorem writeGoes {lba : Word} {s t : State} (h : exec (.writeFlash lba) s = .next t) : WriteGoes lba s t := by
  by_cases whole : 528 ≤ s.rxQueue.length
  · obtain ⟨o, v, n, es, hv, site, written, trace⟩ := writeBlock_trace (payloadTaken lba s) lba
    rw [exec_writeFlash_of_complete lba whole, finishWrite, payloadTaken_curLba, hv, reply_writeReply site] at h
    exact .complete whole hv written trace (Host.Outcome.next.inj h).symm
  · have part := Nat.lt_of_not_le whole
    by_cases closed : s.rxClosed = true
    · rw [exec_writeFlash_of_closed lba part closed] at h
      exact .cutShort part closed (Host.Outcome.next.inj h).symm
    · have isOpen := Bool.eq_false_of_not_eq_true closed
      rw [exec_writeFlash_of_open lba part isOpen] at h
      exact .waits part isOpen (Host.Outcome.next.inj h).symm

/-- `t` with what a WRITE_FLASH may change put back as in `s`. -/
def putBackWrite (s t : State) : State :=
  { t with
    trace := s.trace
    lastWrite := s.lastWrite
    regAnswers := s.regAnswers
    regDraws := s.regDraws
    t := s.t
    sLast := s.sLast
    tmp := s.tmp
    err := s.err
    rxQueue := s.rxQueue
    wrBuf := s.wrBuf
    wrCnt := s.wrCnt
    cfgValid := s.cfgValid
    cfgValue := s.cfgValue
    pc := s.pc }

theorem putBackWrite_payloadTaken (lba : Word) (s : State) :
    putBackWrite s (payloadTaken lba s) = beginCommand (.writeFlash lba) s := by
  simp only [putBackWrite, payloadTaken, absorbed, writeBegun]
  rfl

theorem exec_write_frame {lba : Word} {s t : State} (h : exec (.writeFlash lba) s = .next t) :
    putBackWrite s t = beginCommand (.writeFlash lba) s := by
  rw [← putBackWrite_payloadTaken lba s]
  cases writeGoes h with
  | complete whole ends written trace replied =>
    next o v n es =>
    have rdBuf : v.rdBuf = (configured (payloadTaken lba s)).rdBuf := by
      have same := writeBlock_rdBuf lba (payloadTaken lba s)
      rwa [ends] at same
    have frame := frame_of_scrub written.rest
    rw [← rdBuf] at frame
    rw [replied]
    exact (congrArg (putBackWrite s) frame :)
  | cutShort part closed abandoned =>
    rw [abandoned, abandonPayload_eq]
    rfl
  | waits part isOpen stays =>
    rw [stays]
    rfl

/-- Settles O19: the payload and the write change what is set aside, and only the wait for the payload is elsewhere than before. -/
theorem writeFlashFrame : Obligations.WriteFlashFrame := by
  intro lba s t h
  have frame := exec_write_frame h
  refine ⟨congrArg (fun v : State => { v with curOp := s.curOp, curLba := s.curLba }) frame, fun ready => ?_,
    fun x h0 h4 h8 h12 h16 => (keeps_window h0 h4 h8 h12 h16).exec h⟩
  cases writeGoes h with
  | complete whole ends written trace replied =>
    rw [replied]
    exact (rest_pc written.rest :)
  | cutShort part closed abandoned =>
    rw [abandoned, abandonPayload_eq]
    rfl
  | waits part isOpen stays =>
    obtain whole | closed := ready
    · exact absurd whole (Nat.not_le.2 part)
    · rw [isOpen] at closed
      cases closed

/-! ### Every command -/

/-- `t` with what any command may change, but for the registers of its dispatch, put back as in `s`. -/
def putBack (s t : State) : State :=
  { t with
    trace := s.trace
    lastWrite := s.lastWrite
    regAnswers := s.regAnswers
    regDraws := s.regDraws
    t := s.t
    sLast := s.sLast
    tmp := s.tmp
    rdBuf := s.rdBuf
    err := s.err
    rxQueue := s.rxQueue
    wrBuf := s.wrBuf
    wrCnt := s.wrCnt
    cfgValid := s.cfgValid
    cfgValue := s.cfgValue
    pc := s.pc
    stActive := s.stActive
    stCur := s.stCur
    stEnd := s.stEnd
    stMedium := s.stMedium }

theorem exec_frame {i : Instr} {s t : State} (h : exec i s = .next t) : putBack s t = beginCommand i s := by
  by_cases write : ∃ lba, i = .writeFlash lba
  · obtain ⟨lba, rfl⟩ := write
    exact congrArg (putBack s) (exec_write_frame h)
  · by_cases stream : ∃ lba, i = .readFlashStream lba
    · obtain ⟨lba, rfl⟩ := stream
      obtain rfl := Host.Outcome.next.inj (h.symm.trans (exec_readFlashStream lba s))
      rfl
    · exact congrArg (putBack s) (exec_query_frame h (not_exists.1 write) (not_exists.1 stream))

/-- The stream session (10 R44). -/
def sessionOf (s : State) : Bool × Word × Word × Medium :=
  (s.stActive, s.stCur, s.stEnd, s.stMedium)

/-- Settles O37: the session is none of what a query, a read or a write may change. -/
theorem commandsLeaveTheStreamSession : Obligations.CommandsLeaveTheStreamSession := by
  intro i s t h notStream
  have session : sessionOf t = sessionOf s := by
    by_cases write : ∃ lba, i = .writeFlash lba
    · obtain ⟨lba, rfl⟩ := write
      exact (congrArg sessionOf (exec_write_frame h) :)
    · exact (congrArg sessionOf (exec_query_frame h (not_exists.1 write) notStream) :)
  simpa only [sessionOf, Prod.mk.injEq] using session

/-! ### The line trace and the bytes taken -/

/-- From `s` to `t` no line event is added, and what is recorded as taken is what left the queue, in its order (20 R88). -/
structure Accounts (s t : State) : Prop where
  lines : t.lineTrace = s.lineTrace
  taken : t.history.filter isRecv ++ t.rxQueue.map Event.recv = s.history.filter isRecv ++ s.rxQueue.map Event.recv

/-- An update that adds no event. -/
theorem Accounts.of_silent {s t : State} (h : t.trace = s.trace) (queue : t.rxQueue = s.rxQueue := by simp) : Accounts s t := by
  constructor <;> simp [State.lineTrace, State.history, h, queue]

/-- An update that adds one event, neither a line event nor a byte taken. -/
theorem Accounts.of_event {s t : State} {e : Event} (h : t.trace = e :: s.trace) (line : isLineEvent e = false)
    (recv : isRecv e = false) (queue : t.rxQueue = s.rxQueue := by simp) : Accounts s t := by
  constructor <;> simp [State.lineTrace, State.history, h, line, recv, queue]

theorem accounts_fire {a : Act} (ha : actInRun a = true) (s : State) : Accounts s (fire a s) := by
  have queue := (actFrame_fire a s).rxQueue
  obtain silent | ⟨e, event, he⟩ := fire_trace a s
  · exact .of_silent silent queue
  · exact .of_event event (he.noLine ha) he.noRecv queue

theorem keeps_accounts : Keeps Accounts where
  refl _ := .of_silent rfl
  trans h h' := ⟨h'.lines.trans h.lines, h'.taken.trans h.taken⟩
  fire a s ha := accounts_fire ha s
  poll s := .of_event (pollStatus_trace s) rfl rfl
  count s := .of_silent (countDown_trace s)
  start s := .of_silent (startWait_trace s)
  cfg s _ :=
    .of_event (e := .regRead 0x00#8 (s.answer 0)) rfl rfl rfl (actFrame_fire .cfgRead s).rxQueue
  payload b q s hq _ := by
    constructor <;> simp [State.lineTrace, State.history, List.filter_cons, isLineEvent, isRecv, hq]
  begin_ i s := .of_silent (beginCommand_trace i s)
  wait s := .of_silent (goto_trace _ s)

/-- Settles O38: all of it stays but for what `putBack` puts back, and of that the trace has no line event added. -/
theorem commandsLeaveTheMachineAround : Obligations.CommandsLeaveTheMachineAround := by
  intro i s t h
  have frame := exec_frame h
  exact ⟨(congrArg State.params frame :), (congrArg State.phase frame :), (congrArg State.exitCode frame :),
    (congrArg State.shutdownPending frame :), (congrArg State.transportUp frame :), (congrArg State.pinDbg frame :),
    (congrArg State.pinRst frame :), (congrArg State.pinCs frame :), (keeps_accounts.exec h).lines, (congrArg State.rxClosed frame :),
    (congrArg State.rxBuf frame :), (congrArg State.rxCnt frame :), (congrArg State.txCarry frame :), (congrArg State.txTaken frame :),
    (congrArg State.txRooms frame :), (congrArg State.txSends frame :), (congrArg State.script frame :), (congrArg State.initAnswers frame :),
    (congrArg State.initDraws frame :), (congrArg State.waitEnds frame :), (congrArg State.waitDraws frame :), (congrArg State.curOp frame :),
    (congrArg State.curLba frame :)⟩

/-- However a WRITE_FLASH ends, what it took is gone from the queue and in the write buffer (41 R187). -/
theorem exec_write_takes {lba : Word} {s t : State} (h : exec (.writeFlash lba) s = .next t) :
    t.rxQueue = s.rxQueue.drop 528 ∧ t.wrBuf = (payloadTaken lba s).wrBuf := by
  rw [← payloadTaken_rxQueue lba s]
  cases writeGoes h with
  | complete whole ends written trace replied =>
    rw [replied]
    exact ⟨(rest_rxQueue written.rest :), written.wrBuf⟩
  | cutShort part closed abandoned =>
    rw [abandoned, abandonPayload_eq]
    exact ⟨rfl, rfl⟩
  | waits part isOpen stays =>
    rw [stays]
    exact ⟨rfl, rfl⟩

/-- But for WRITE_FLASH no command touches the queue or the write buffer. -/
theorem exec_takes_nothing {i : Instr} {s t : State} (h : exec i s = .next t) (notWrite : ∀ lba, i ≠ .writeFlash lba) :
    t.rxQueue = s.rxQueue ∧ t.wrBuf = s.wrBuf ∧ t.wrCnt = s.wrCnt := by
  by_cases stream : ∃ lba, i = .readFlashStream lba
  · obtain ⟨lba, rfl⟩ := stream
    obtain rfl := Host.Outcome.next.inj (h.symm.trans (exec_readFlashStream lba s))
    exact ⟨rfl, rfl, rfl⟩
  · have frame := exec_query_frame h notWrite (not_exists.1 stream)
    exact ⟨(congrArg State.rxQueue frame :), (congrArg State.wrBuf frame :), (congrArg State.wrCnt frame :)⟩

/-- Where `n` bytes left the queue, these are the bytes recorded as taken. -/
theorem Accounts.recorded {s t : State} (h : Accounts s t) {n : Nat} (queue : t.rxQueue = s.rxQueue.drop n) :
    t.history.filter isRecv
      = s.history.filter isRecv ++ (s.rxQueue.take (s.rxQueue.length - t.rxQueue.length)).map Event.recv := by
  have gone : s.rxQueue.take (s.rxQueue.length - t.rxQueue.length) = s.rxQueue.take n := by
    rw [queue, List.length_drop, List.take_eq_take_iff]
    omega
  have split : s.rxQueue.map Event.recv = (s.rxQueue.take n).map Event.recv ++ t.rxQueue.map Event.recv := by
    rw [queue, ← List.map_append, List.take_append_drop]
  have taken := h.taken
  rw [split, ← List.append_assoc] at taken
  rw [gone]
  exact List.append_cancel_right taken

/-- Settles O39: WRITE_FLASH takes the first 528 bytes or all there are, the others none; and every byte taken is recorded. -/
theorem commandsTakeOnlyTheirPayload : Obligations.CommandsTakeOnlyTheirPayload := by
  intro i s t h
  have accounts := keeps_accounts.exec h
  refine ⟨exec_takes_nothing h, ?_, ?_⟩
  · rintro lba rfl
    obtain ⟨queue, buf⟩ := exec_write_takes h
    exact ⟨queue, by rw [buf, payloadTaken_wrBuf]⟩
  · by_cases write : ∃ lba, i = .writeFlash lba
    · obtain ⟨lba, rfl⟩ := write
      exact accounts.recorded (exec_write_takes h).1
    · exact accounts.recorded (n := 0) (exec_takes_nothing h (not_exists.1 write)).1

end Sys2Proof.Machine
end

section
/-! PROOF. The stream session, tick by tick (42_stream.md), and the bounds on transactions (70 R301). -/

namespace Sys2Proof.Machine

open Sys2Proof Sys2Proof.Safety

/-! ### The two ends of a tick that reads (42 R220) -/

/-- A tick whose read is Ok sends the success word and the read buffer, and advances by one. -/
theorem streamTick_ok {s : State} {p : Nat} (active : s.stActive = true) (more : s.stCur < s.stEnd)
    (ready : ReadyAt (shift 1 s.answer) s.params.waitBudget.toNat p) :
    ∃ u, streamTick s = { send (le32 0#32 ++ u.rdBuf.toList) u with stCur := u.stCur + 1#32 }
      ∧ Stretch s u (1 + (p + 1) + sectorWords) (readEvents s.answer s.stCur p) := by
  obtain ⟨u, hu, hs, -⟩ := readBlock_ok (w := .tick) (lba := s.stCur) ready
  exact ⟨u, by rw [streamTick_before_end active more, hu]; rfl, hs⟩

/-- A tick whose read fails sends the error word and ends the session. -/
theorem streamTick_fails {s : State} (active : s.stActive = true) (more : s.stCur < s.stEnd) (never : ReadFails s) :
    ∃ u, streamTick s = { send (le32 u.err) u with stActive := false }
      ∧ Stretch s u (1 + (s.params.waitBudget.toNat + 1 + errorReads s.params.errStatusSource))
          (readSetupEvents s.answer s.stCur
            ++ timeoutEvents s.params.errStatusSource (shift 1 s.answer) s.params.waitBudget.toNat) := by
  obtain ⟨u, hu, hs, -⟩ := readBlock_never (w := .tick) (lba := s.stCur) never
  exact ⟨u, by rw [streamTick_before_end active more, hu]; rfl, hs⟩

/-- The four ways of a tick. -/
inductive TickGoes (s : State) : Prop where
  | inactive (idle : s.stActive = false) (same : streamTick s = s)
  | atEnd (active : s.stActive = true) (done : s.stEnd ≤ s.stCur) (cleared : streamTick s = { s with stActive := false })
  | sector {p : Nat} {u : State} (active : s.stActive = true) (more : s.stCur < s.stEnd)
      (polls : p ≤ s.params.waitBudget.toNat)
      (sent : streamTick s = { send (le32 0#32 ++ u.rdBuf.toList) u with stCur := u.stCur + 1#32 })
      (stretch : Stretch s u (1 + (p + 1) + sectorWords) (readEvents s.answer s.stCur p))
  | error {u : State} (active : s.stActive = true) (more : s.stCur < s.stEnd)
      (sent : streamTick s = { send (le32 u.err) u with stActive := false })
      (stretch : Stretch s u (1 + (s.params.waitBudget.toNat + 1 + errorReads s.params.errStatusSource))
          (readSetupEvents s.answer s.stCur
            ++ timeoutEvents s.params.errStatusSource (shift 1 s.answer) s.params.waitBudget.toNat))

theorem tickGoes (s : State) : TickGoes s := by
  by_cases active : s.stActive = true
  · by_cases done : s.stEnd ≤ s.stCur
    · exact .atEnd active done (streamTick_at_end active done)
    · have more := BitVec.not_le.1 done
      obtain ⟨p, ready⟩ | never := ready_or_never (shift 1 s.answer) s.params.waitBudget.toNat
      · obtain ⟨u, sent, stretch⟩ := streamTick_ok active more ready
        exact .sector active more ready.1 sent stretch
      · obtain ⟨u, sent, stretch⟩ := streamTick_fails active more never
        exact .error active more sent stretch
  · have idle := Bool.eq_false_of_not_eq_true active
    exact .inactive idle (streamTick_of_inactive idle)

/-! ### The end of the session is never passed (42 R221) -/

/-- Below the end one more sector is no wrap. -/
theorem toNat_succ_of_lt {c e : Word} (h : c < e) : (c + 1#32).toNat = c.toNat + 1 := by
  bv_omega

/-- Settles O29: a tick advances below the end only, and a command that is not READ_FLASH_STREAM leaves the session. -/
theorem streamNeverPassesItsEnd : Obligations.StreamNeverPassesItsEnd := by
  intro s h
  refine ⟨?_, ?_, ?_, fun i t hexec => ?_⟩
  · cases tickGoes s with
    | inactive idle same => rwa [same]
    | atEnd active done cleared => rw [cleared]; exact nofun
    | sector active more polls sent stretch =>
      rw [sent]
      intro _
      have next := toNat_succ_of_lt more
      show _ + 1#32 ≤ _
      rw [rest_stCur stretch.rest, BitVec.le_def, next]
      exact (Nat.succ_le_of_lt more).trans_eq (congrArg BitVec.toNat (rest_stEnd stretch.rest)).symm
    | error active more sent stretch => rw [sent]; exact nofun
  · cases tickGoes s with
    | inactive idle same => rw [same]; omega
    | atEnd active done cleared => rw [cleared]; exact Nat.le_succ _
    | sector active more polls sent stretch =>
      rw [sent, rest_stCur stretch.rest]
      exact (toNat_succ_of_lt more).le
    | error active more sent stretch =>
      rw [sent, ← rest_stCur stretch.rest]
      exact Nat.le_succ _
  · cases tickGoes s with
    | inactive idle same => rw [same]
    | atEnd active done cleared => rw [cleared]
    | sector active more polls sent stretch =>
      rw [sent, rest_stCur stretch.rest]
      exact (Nat.le_succ _).trans (toNat_succ_of_lt more).ge
    | error active more sent stretch =>
      rw [sent, ← rest_stCur stretch.rest]
      exact le_rfl
  · by_cases stream : ∃ lba, i = .readFlashStream lba
    · obtain ⟨lba, rfl⟩ := stream
      obtain rfl := Host.Outcome.next.inj (hexec.symm.trans (exec_readFlashStream lba s))
      exact fun _ => BitVec.le_def.2 (Nat.zero_le _)
    · obtain ⟨active, cur, stEnd, -⟩ := commandsLeaveTheStreamSession i s t hexec (not_exists.1 stream)
      rwa [StreamInBounds, active, cur, stEnd]

/-! ### A session -/

/-- What a tick that reads a sector leaves. -/
structure SectorSent (s t : State) : Prop where
  tx : t.tx = s.tx ++ le32 0#32 ++ t.rdBuf.toList
  addressed : .regWrite 0x0C#8 (byteAddress s.stCur) ∈ t.regTrace.drop s.regTrace.length
  active : t.stActive = true
  cur : t.stCur = s.stCur + 1#32
  stEnd : t.stEnd = s.stEnd

theorem sectorSent {s : State} (active : s.stActive = true) (more : s.stCur < s.stEnd) (succeeds : ReadSucceeds s) :
    SectorSent s (streamTick s) := by
  obtain ⟨p, ready⟩ := succeeds
  obtain ⟨u, sent, stretch⟩ := streamTick_ok active more ready
  have transactions := readEvents_transactions s.answer s.stCur p
  have visible := stretch.visible_send (le32 0#32 ++ u.rdBuf.toList)
  have reg : (streamTick s).regTrace = s.regTrace ++ readEvents s.answer s.stCur p := by
    rw [sent]
    exact regTrace_of_transactions_send transactions visible
  refine ⟨?_, ?_, ?_, ?_, ?_⟩
  · rw [sent, List.append_assoc]
    exact tx_of_transactions_send transactions visible
  · rw [reg, List.drop_left, readEvents, List.append_assoc]
    exact List.mem_append_left _ (addr_mem_readSetupEvents _ _)
  · rw [sent]
    exact (rest_stActive stretch.rest).trans active
  · rw [sent, ← rest_stCur stretch.rest]
  · rw [sent]
    exact (rest_stEnd stretch.rest :)

/-- A session armed in `s`, after `i` sectors have been sent. -/
structure Session (s u : State) (i : Nat) : Prop where
  active : u.stActive = true
  cur : u.stCur = BitVec.ofNat 32 i
  stEnd : u.stEnd = s.stEnd
  sent : u.tx.length = s.tx.length + 532 * i

/-- Before its last sector a session has more to read. -/
theorem Session.more {s u : State} {i : Nat} (h : Session s u i) (hi : i < s.stEnd.toNat) : u.stCur < u.stEnd := by
  have small := Nat.mod_eq_of_lt (hi.trans s.stEnd.isLt)
  rw [h.cur, h.stEnd, BitVec.lt_def, BitVec.toNat_ofNat, small]
  exact hi

theorem Session.sector {s u : State} {i : Nat} (h : Session s u i) (hi : i < s.stEnd.toNat) (succeeds : ReadSucceeds u) :
    SectorSent u (streamTick u) :=
  sectorSent h.active (h.more hi) succeeds

theorem Session.next {s u : State} {i : Nat} (h : Session s u i) (hi : i < s.stEnd.toNat) (succeeds : ReadSucceeds u) :
    Session s (streamTick u) (i + 1) := by
  have unit := h.sector hi succeeds
  refine ⟨unit.active, ?_, unit.stEnd.trans h.stEnd, ?_⟩
  · rw [unit.cur, h.cur, BitVec.ofNat_add]
  · rw [unit.tx, List.length_append, List.length_append, Vector.length_toList, h.sent]
    show _ + 4 + 528 = _
    omega

theorem session_ticks {s : State} (active : s.stActive = true) (start : s.stCur = 0#32) {n : Nat} (hn : n ≤ s.stEnd.toNat)
    (succeeds : ∀ i < n, ReadSucceeds (ticks i s)) : Session s (ticks n s) n := by
  induction n with
  | zero => exact ⟨active, start, rfl, rfl⟩
  | succ n ih => exact (ih (by omega) fun i hi => succeeds i (by omega)).next hn (succeeds n (by omega))

/-- A session that is over stays over. -/
theorem ticks_of_inactive {s : State} {n : Nat} (ended : (ticks n s).stActive = false) (m : Nat) : ticks (n + m) s = ticks n s := by
  induction m with
  | zero => rfl
  | succ m ih => exact (congrArg streamTick ih).trans (streamTick_of_inactive ended)

/-- Settles O27: every tick before the end sends a sector, and the tick at the end clears the session. -/
theorem streamSendsItsCount : Obligations.StreamSendsItsCount := by
  intro s active start succeeds
  have session {n : Nat} (hn : n ≤ s.stEnd.toNat) : Session s (ticks n s) n :=
    session_ticks active start hn fun i hi => succeeds i (by omega)
  have whole := session le_rfl
  have done : (ticks s.stEnd.toNat s).stEnd ≤ (ticks s.stEnd.toNat s).stCur := by
    rw [whole.cur, whole.stEnd, BitVec.ofNat_toNat, BitVec.setWidth_eq]
    exact BitVec.le_refl _
  have cleared : ticks (s.stEnd.toNat + 1) s = { ticks s.stEnd.toNat s with stActive := false } :=
    streamTick_at_end whole.active done
  have inactive : (ticks (s.stEnd.toNat + 1) s).stActive = false := by rw [cleared]
  refine ⟨fun i hi => ?_, whole.sent, by rw [cleared]; rfl, inactive, ticks_of_inactive inactive⟩
  have here := session hi.le
  have unit := here.sector hi (succeeds i hi)
  exact ⟨unit.tx, here.cur ▸ unit.addressed⟩

/-- Settles O28: the tick whose read fails sends the error word, ends the session and does not advance it. -/
theorem streamStopsAtTheFirstError : Obligations.StreamStopsAtTheFirstError := by
  intro s k active start hk succeeds fails
  have session := session_ticks active start hk.le succeeds
  obtain ⟨u, sent, stretch⟩ := streamTick_fails session.active (session.more hk) fails
  have ended : ticks (k + 1) s = { send (le32 u.err) u with stActive := false } := sent
  have transactions := List.forall_mem_append.2 ⟨readSetupEvents_transactions (ticks k s).answer (ticks k s).stCur,
    timeoutEvents_transactions (ticks k s).params.errStatusSource (shift 1 (ticks k s).answer)
      (ticks k s).params.waitBudget.toNat⟩
  have tx : (ticks (k + 1) s).tx = (ticks k s).tx ++ le32 (ticks (k + 1) s).err := by
    rw [ended]
    exact tx_of_transactions_send transactions (stretch.visible_send (le32 u.err))
  have inactive : (ticks (k + 1) s).stActive = false := by rw [ended]
  refine ⟨?_, tx, inactive, ?_, ticks_of_inactive inactive⟩
  · rw [tx, List.length_append, session.sent]
    rfl
  · rw [ended]
    exact (rest_stCur stretch.rest).trans session.cur

/-! ### The bounds on transactions (70 R301) -/

/-- The transactions of a read, however it ends. -/
theorem length_readSetupEvents_timeoutEvents_le (e : ErrStatusSource) (a b : Nat → Word) (lba : Word) (T : Nat) :
    (readSetupEvents a lba ++ timeoutEvents e b T).length ≤ 269 + (T + 1) := by
  have error := errorReads_le e
  rw [List.length_append, length_readSetupEvents, length_timeoutEvents]
  omega

/-- So many transactions and one send leave so many more in the register trace. -/
theorem regTrace_length_le {s t : State} {es : List Event} {bytes : List Byte} {n : Nat} (ht : ∀ e ∈ es, isTransaction e = true)
    (h : t.visible = s.visible ++ es ++ [.send bytes]) (hn : es.length ≤ n) : t.regTrace.length ≤ s.regTrace.length + n := by
  rw [regTrace_of_transactions_send ht h, List.length_append]
  omega

theorem readFlash_bounded {lba : Word} {s t : State} (h : exec (.readFlash lba) s = .next t) :
    t.regTrace.length ≤ s.regTrace.length + (269 + (s.params.waitBudget.toNat + 1)) := by
  obtain ⟨p, ready⟩ | never := ready_or_never (shift 1 s.answer) s.params.waitBudget.toNat
  · obtain ⟨u, -, hexec, stretch, -⟩ := readFlash_ok (lba := lba) ready
    obtain rfl := Host.Outcome.next.inj (hexec.symm.trans h)
    have polls := ready.1
    exact regTrace_length_le (s := beginCommand (.readFlash lba) s) (readEvents_transactions _ _ _) (stretch.visible_send _)
      (by rw [length_readEvents]; omega)
  · obtain ⟨u, -, hexec, stretch, -⟩ := readFlash_fails (lba := lba) never
    obtain rfl := Host.Outcome.next.inj (hexec.symm.trans h)
    exact regTrace_length_le (s := beginCommand (.readFlash lba) s)
      (List.forall_mem_append.2 ⟨readSetupEvents_transactions _ _, timeoutEvents_transactions _ _ _⟩) (stretch.visible_send _)
      (length_readSetupEvents_timeoutEvents_le _ _ _ _ _)

theorem streamTick_bounded (s : State) :
    (streamTick s).regTrace.length ≤ s.regTrace.length + (269 + (s.params.waitBudget.toNat + 1)) := by
  cases tickGoes s with
  | inactive idle same =>
    rw [same]
    exact Nat.le_add_right _ _
  | atEnd active done cleared =>
    rw [cleared]
    exact Nat.le_add_right _ _
  | sector active more polls sent stretch =>
    rw [sent]
    exact regTrace_length_le (readEvents_transactions _ _ _) (stretch.visible_send _) (by rw [length_readEvents]; omega)
  | error active more sent stretch =>
    rw [sent]
    exact regTrace_length_le
      (List.forall_mem_append.2 ⟨readSetupEvents_transactions _ _, timeoutEvents_transactions _ _ _⟩) (stretch.visible_send _)
      (length_readSetupEvents_timeoutEvents_le _ _ _ _ _)

/-- Taking the payload is no transaction (41 R187). -/
theorem payloadTaken_regTrace (lba : Word) (s : State) : (payloadTaken lba s).regTrace = s.regTrace := by
  have none (q : List Byte) : (q.map Event.recv).filter isTransaction = [] := by simp [isTransaction]
  rw [regTrace_of_visible (payloadTaken_visible lba s), none, List.append_nil]

theorem writeFlash_bounded {lba : Word} {s t : State} (h : exec (.writeFlash lba) s = .next t) :
    t.regTrace.length ≤ s.regTrace.length
      + (1 + 8 + (s.params.waitBudget.toNat + 1) + 271 + 3 * (s.params.waitBudget.toNat + 1) + 1) := by
  rw [← payloadTaken_regTrace lba s]
  cases writeGoes h with
  | complete whole ends written trace replied =>
    rw [replied]
    exact regTrace_length_le trace.transactions (by rw [← written.visible]; exact visible_send _ _) trace.length
  | cutShort part closed abandoned =>
    rw [abandoned, regTrace_of_visible ((visible_abandonPayload _).trans (List.append_nil _).symm), List.filter_nil, List.append_nil]
    exact Nat.le_add_right _ _
  | waits part isOpen stays =>
    rw [stays]
    exact Nat.le_add_right _ _

/-- Settles O36: the transactions of each are counted, whatever the answers. -/
theorem transactionsAreBounded : Obligations.TransactionsAreBounded := by
  intro s
  refine ⟨fun lba t h => readFlash_bounded h, streamTick_bounded s, fun lba t h => writeFlash_bounded h, fun budget => ?_⟩
  rw [budget]
  decide

end Sys2Proof.Machine
end

section
/-! PROOF. The shutdown flag is read at the loop top alone (10 R34, 41 R181): away from it setting or clearing the flag commutes
with a step of the engine. -/

namespace Sys2Proof.Machine

open Sys2Proof Sys2Proof.Safety

/-- The state with the shutdown flag set or cleared. -/
def withShutdown (b : Bool) (s : State) : State :=
  { s with shutdownPending := b }

namespace WithShutdown

variable (b : Bool)

theorem setLine_comm (s : State) (change : Line × PinLevel) : setLine (withShutdown b s) change = withShutdown b (setLine s change) := by
  obtain ⟨l, v⟩ := change
  cases l <;> rfl

theorem setPins_comm (changes : List (Line × PinLevel)) (s : State) :
    changes.foldl setLine (withShutdown b s) = withShutdown b (changes.foldl setLine s) := by
  induction changes generalizing s with
  | nil => rfl
  | cons change changes ih => rw [List.foldl_cons, List.foldl_cons, setLine_comm, ih]

theorem fire_comm (a : Act) (s : State) : fire a (withShutdown b s) = withShutdown b (fire a s) := by
  cases a with
  | errStatus =>
    have source : (withShutdown b s).params = s.params := rfl
    simp only [fire, source]
    cases s.params.errStatusSource <;> rfl
  | pins changes =>
    simp only [fire, setPins, setPins_comm]
    rfl
  | _ => rfl

/-- No command reads the flag. -/
theorem commutes : Commutes (withShutdown b) where
  params _ := rfl
  cfgValid _ := rfl
  cfgValue _ := rfl
  sLast _ := rfl
  stActive _ := rfl
  stCur _ := rfl
  stEnd _ := rfl
  fire := fire_comm b
  poll _ := rfl
  count _ := rfl
  start _ := rfl

/-! ### The commands and the frame wait -/

theorem takePayload_comm (q : List Byte) (s : State) :
    takePayload q (withShutdown b s) = withShutdown b (takePayload q s) := by
  induction q generalizing s with
  | nil => rfl
  | cons c q ih =>
    have count : (withShutdown b s).wrCnt = s.wrCnt := rfl
    unfold takePayload
    rw [count]
    split_ifs
    · exact ih (payloadByte c q s)
    · rfl

theorem payloadDecide_comm (s : State) : payloadDecide (withShutdown b s) = withShutdown b (payloadDecide s) := by
  have count : (withShutdown b s).wrCnt = s.wrCnt := rfl
  have closed : (withShutdown b s).rxClosed = s.rxClosed := rfl
  unfold payloadDecide
  rw [count, closed]
  split_ifs
  · exact (commutes b).perform _ s
  · rfl
  · exact (commutes b).reply _ ((commutes b).writeBlock _ _)

theorem payloadReceive_comm (s : State) : payloadReceive (withShutdown b s) = withShutdown b (payloadReceive s) :=
  (congrArg payloadDecide (takePayload_comm b s.rxQueue s)).trans (payloadDecide_comm b _)

theorem exec_comm {i : Instr} {s t : State} (h : exec i s = .next t) : exec i (withShutdown b s) = .next (withShutdown b t) := by
  have straight (as : List Act) (hi : ∀ u, exec i u = .next (perform as (beginCommand i u))) :
      exec i (withShutdown b s) = .next (withShutdown b t) := by
    obtain rfl := Host.Outcome.next.inj ((hi s).symm.trans h)
    exact (hi _).trans (congrArg Host.Outcome.next ((commutes b).perform as (beginCommand i s)))
  cases i with
  | getVersion lba => exact straight [.sendVersion] fun _ => rfl
  | readFlashStream lba => exact straight [.armStream] fun _ => rfl
  | rebootToBootloader lba => exact straight [.log .rebootUnsupported] fun _ => rfl
  | reservedEmmc op lba => exact straight [.log (.reservedOp op)] fun _ => rfl
  | reservedDaughterboard op lba => exact straight [.log (.reservedOp op)] fun _ => rfl
  | unrecognized op lba => exact straight [.log (.unknownOp op)] fun _ => rfl
  | getFlashConfig lba =>
    have config := (commutes b).getFlashConfig (beginCommand (.getFlashConfig lba) s)
    rw [exec_getFlashConfig] at h ⊢
    obtain rfl := Host.Outcome.next.inj h
    rw [← (commutes b).perform, ← config]
    rfl
  | readFlash lba =>
    obtain rfl := Host.Outcome.next.inj ((exec_readFlash lba s).symm.trans h)
    exact congrArg Host.Outcome.next
      ((commutes b).reply _ ((commutes b).readBlock .read lba (beginCommand (.readFlash lba) s)))
  | writeFlash lba =>
    obtain rfl := Host.Outcome.next.inj h
    exact congrArg Host.Outcome.next (payloadReceive_comm b (writeBegun lba s))

theorem takeFrame_comm (q : List Byte) (s : State) :
    takeFrame q (withShutdown b s) = ((takeFrame q s).1, withShutdown b (takeFrame q s).2) := by
  induction q generalizing s with
  | nil => rfl
  | cons c q ih =>
    have whole : frameComplete (frameByte c q (withShutdown b s)) = frameComplete (frameByte c q s) := rfl
    simp only [takeFrame, whole]
    split_ifs
    · rfl
    · exact ih (frameByte c q s)

theorem dropPartial_comm (s : State) : dropPartial (withShutdown b s) = withShutdown b (dropPartial s) := by
  have count : (withShutdown b s).rxCnt = s.rxCnt := rfl
  unfold dropPartial
  rw [count]
  split_ifs <;> rfl

theorem frameIdle_comm (s : State) : frameIdle (withShutdown b s) = withShutdown b (frameIdle s) := by
  have closed : (withShutdown b s).rxClosed = s.rxClosed := rfl
  have ends : (withShutdown b s).waitEndsNow = s.waitEndsNow := rfl
  unfold frameIdle
  rw [closed, ends, dropPartial_comm]
  split_ifs <;> rfl

theorem fetch_comm (s : State) : fetch (withShutdown b s) = ((fetch s).1, withShutdown b (fetch s).2) := by
  have frame := takeFrame_comm b s.rxQueue s
  have queue : (withShutdown b s).rxQueue = s.rxQueue := rfl
  unfold fetch
  rw [queue, frame]
  rcases takeFrame s.rxQueue s with ⟨whole, u⟩
  cases whole
  · exact congrArg (Prod.mk none) (frameIdle_comm b u)
  · rfl

/-! ### The procedures of the engine -/

theorem runInit_comm (s : State) : runInit (withShutdown b s) = withShutdown b (runInit s) := by
  have answer (u : State) : (withShutdown b u).initAnswer = u.initAnswer := rfl
  have dropped : dropInit (withShutdown b s) = withShutdown b (dropInit s) := rfl
  unfold runInit serialOpen
  rw [answer, dropped, answer]
  split_ifs <;> rfl

theorem bringUp_comm (s : State) : bringUp (withShutdown b s) = withShutdown b (bringUp s) := by
  have up : transportUpOk (withShutdown b s) = transportUpOk s := rfl
  unfold bringUp
  rw [up]
  split_ifs <;> rfl

theorem runStop_comm (s : State) : runStop (withShutdown b s) = withShutdown b (runStop s) := by
  rw [runStop, (commutes b).perform, bringUp_comm]
  rfl

theorem runStart_comm (s : State) : runStart (withShutdown b s) = withShutdown b (runStart s) :=
  congrArg (goto []) ((commutes b).perform startSequence s)

theorem payloadTurn_comm (s : State) : payloadTurn (withShutdown b s) = withShutdown b (payloadTurn s) := by
  have count : (withShutdown b s).wrCnt = s.wrCnt := rfl
  have queue : (withShutdown b s).rxQueue = s.rxQueue := rfl
  have closed : (withShutdown b s).rxClosed = s.rxClosed := rfl
  unfold payloadTurn
  rw [count, queue, closed]
  by_cases more : s.wrCnt < payloadBytes
  · rw [if_pos more, if_pos more]
    cases s.rxQueue with
    | nil => cases s.rxClosed <;> rfl
    | cons c q => rfl
  · rw [if_neg more, if_neg more]
    rfl

theorem frameTurn_comm (s : State) : frameTurn (withShutdown b s) = withShutdown b (frameTurn s) := by
  have queue : (withShutdown b s).rxQueue = s.rxQueue := rfl
  unfold frameTurn
  rw [queue]
  cases s.rxQueue with
  | nil => exact frameIdle_comm b s
  | cons c q =>
    have whole : frameComplete (frameByte c q (withShutdown b s)) = frameComplete (frameByte c q s) := rfl
    simp only [whole]
    split_ifs <;> rfl

theorem pollTurn_comm (w : Site) (k : List Op) (s : State) :
    pollTurn w k (withShutdown b s) = withShutdown b (pollTurn w k s) := by
  have counter : (withShutdown b s).t = s.t := rfl
  unfold pollTurn
  rw [(commutes b).poll, (commutes b).sLast, counter, (commutes b).count]
  split_ifs <;> rfl

theorem tickTurn_comm (s : State) : tickTurn (withShutdown b s) = withShutdown b (tickTurn s) := by
  unfold tickTurn
  rw [(commutes b).stActive, (commutes b).stCur, (commutes b).stEnd]
  split_ifs <;> rfl

/-- Every operation but the loop top's leaves the flag unread. -/
theorem opStep_comm {o : Op} (top : o ≠ .loopTop) (k : List Op) (s : State) :
    opStep o k (withShutdown b s) = withShutdown b (opStep o k s) := by
  have answer : (withShutdown b s).initAnswer = s.initAnswer := rfl
  have up : transportUpOk (withShutdown b s) = transportUpOk s := rfl
  have lba : (withShutdown b s).curLba = s.curLba := rfl
  cases o with
  | loopTop => exact absurd rfl top
  | act a => exact fire_comm b a (goto k s)
  | stop | start | dispatch | wait => rfl
  | init | serialOpen =>
    simp only [opStep, answer]
    split_ifs <;> rfl
  | transportUp =>
    simp only [opStep, up]
    split_ifs <;> rfl
  | tick => exact tickTurn_comm b s
  | frameWait => exact frameTurn_comm b s
  | recvPayload => exact payloadTurn_comm b s
  | poll w => exact pollTurn_comm b w k s
  | cfgTest =>
    simp only [opStep, (commutes b).cfgValid]
    split_ifs <;> rfl
  | eraseTest =>
    simp only [opStep, (commutes b).params, (commutes b).cfgValue, lba]
    split_ifs <;> rfl

theorem held_comm (s : State) : (withShutdown b s).held = s.held := rfl

theorem eventStep_comm {s : State} (top : s.pc.head? ≠ some .loopTop) :
    eventStep (withShutdown b s) = withShutdown b (eventStep s) := by
  have pc : (withShutdown b s).pc = s.pc := rfl
  unfold eventStep
  rw [held_comm, pc]
  by_cases held : s.held = true
  · rw [if_pos held, if_pos held]
  · rw [if_neg held, if_neg held]
    cases hpc : s.pc with
    | nil => rfl
    | cons o k => exact opStep_comm b (fun loop => top (by rw [hpc, loop]; rfl)) k s

theorem runProcedure_comm {s : State} (top : s.pc.head? ≠ some .loopTop) :
    runProcedure (withShutdown b s) = withShutdown b (runProcedure s) := by
  have pc : (withShutdown b s).pc = s.pc := rfl
  unfold runProcedure
  rw [pc]
  split
  · exact runInit_comm b s
  · exact runStop_comm b s
  · exact runStart_comm b s
  · exact congrArg (goto [.frameWait]) ((commutes b).streamTick s)
  · exact payloadReceive_comm b (goto [.loopTop] s)
  · exact eventStep_comm b top

theorem advanceEngine_comm {s t : State} (top : s.pc.head? ≠ some .loopTop) (h : advanceEngine s = .next t) :
    advanceEngine (withShutdown b s) = .next (withShutdown b t) := by
  have pc : (withShutdown b s).pc = s.pc := rfl
  unfold advanceEngine at h ⊢
  rw [pc]
  split at h
  · rw [fetch_comm]
    rcases hf : fetch s with ⟨_ | i, u⟩ <;> rw [hf] at h
    · obtain rfl := Host.Outcome.next.inj h
      rfl
    · exact exec_comm b h
  · obtain rfl := Host.Outcome.next.inj h
    exact congrArg Host.Outcome.next (runProcedure_comm b top)

theorem engineStep_comm {s t : State} (top : s.pc.head? ≠ some .loopTop) (h : engineStep s = .next t) :
    engineStep (withShutdown b s) = .next (withShutdown b t) := by
  unfold engineStep at h ⊢
  rw [held_comm]
  by_cases held : s.held = true
  · rw [if_pos held] at h ⊢
    rw [Host.Outcome.next.inj h]
  · rw [if_neg held] at h ⊢
    exact advanceEngine_comm b top h

end WithShutdown

/-- Settles O44: away from the loop top the engine's step commutes with a change of the flag, and no event writes it. -/
theorem shutdownIsReadOnlyAtTheLoopTop : Obligations.ShutdownIsReadOnlyAtTheLoopTop := by
  intro s t b script top h
  obtain ⟨ops, medium, -⟩ := step_cases h
  have engine : engineStep s = .next t := by rwa [step_empty ops medium script] at h
  have same : t.shutdownPending = s.shutdownPending := by
    obtain ⟨n, rfl⟩ := Reach.engine engine
    exact (grows_events n s).shutdownPending
  exact ⟨same, (step_empty (s := withShutdown b s) ops medium script).trans (WithShutdown.engineStep_comm b top engine)⟩

end Sys2Proof.Machine
end
